-- ==== Sys2Proof/Word.lean ====
section
/-! DEFINITION. The word and byte types of the CPU and the plain arithmetic of the two operand
widths (00_scope.md R7, R9; 10_state.md R37). -/

namespace Sys2Proof

/-- A register, an address, an instruction word: 16 bits (R7). -/
abbrev Word := BitVec 16

/-- The addressable unit: 8 bits (R7). -/
abbrev Byte := BitVec 8

/-- The operand width, chosen by the B/W bit: word (B/W = 0) or byte (B/W = 1) (R7, R9). -/
inductive Width where
  | word
  | byte
  deriving DecidableEq, Repr

/-- `n`, the operand width in bits (R9). -/
def Width.bits : Width → Nat
  | .word => 16
  | .byte => 8

/-- `k = n / 8`, the operand width in bytes (R10). -/
def Width.bytes : Width → Nat
  | .word => 2
  | .byte => 1

/-- `v[n-1:0]`, zero-extended to a word: a byte operation looks at bits 7:0 only (R9, R37). -/
def Width.trunc : Width → Word → Word
  | .word, v => v
  | .byte, v => v &&& 0x00FF#16

/-- Bit `n-1` of an operand: "MSB means bit 15 for a word operation and bit 7 for a byte
operation" (R9). -/
def Width.msb : Width → Word → Bool
  | .word, v => v.getLsbD 15
  | .byte, v => v.getLsbD 7

/-- `(~v)[n-1:0]`, the complement within the operand's width (R10). -/
def Width.complement (w : Width) (v : Word) : Word := w.trunc (~~~v)

/-- A word with `b` in bit `k` and 0 elsewhere. -/
def bitAt (b : Bool) (k : Nat) : Word := if b then 1#16 <<< k else 0#16

end Sys2Proof
end

