-- ==== Sys2Proof/Config.lean ====
section
/-! DEFINITION. What the spec leaves to the platform or the implementation: the named parameters
of 00_scope.md R8 as plain data (the model takes them as arguments; they stand in the state and no
step changes them), and the one opaque source of the values no source fixes. -/

namespace Sys2Proof

/-- The value a source of the manual leaves open, one for each draw. It has no body: nothing can
be proved of it but what holds of every word. Drawn for V after DADD and for DADD on non-BCD digits
(R129), for device answers the register descriptions do not fix (R52, R60), and for SP and R4 to R15
at a reset (R263). Log entry 1. -/
opaque Config.freeWord : Nat → Word

/-- `P_MISALIGNED` (R8): what a word access at an odd address does (R56). -/
inductive MisalignedPolicy where
  /-- `raise MisalignedAccess(addr)`, the default. -/
  | fault
  /-- The access is performed at `addr & 0xFFFE`. -/
  | ignoreBit0
  deriving DecidableEq, Repr

/-- `P_RRC_V` (R8): the overflow flag after RRC (R141). -/
inductive RrcOverflow where
  /-- V is reset, the default. -/
  | reset
  /-- V is set if the operand was positive and the carry was set. -/
  | legacy
  deriving DecidableEq, Repr

/-- `P_SR_RESERVED` (R8): SR bits 15 to 9 (R27). -/
inductive SrReserved where
  /-- They read as 0 and writes to them are ignored, the default. -/
  | hardwired0
  /-- They hold what was written. -/
  | storage
  deriving DecidableEq, Repr

/-- R102's choice for R3 as the destination operand of an instruction that reads it. -/
inductive R3Destination where
  /-- `raise Unpredictable(a, iw)`, the spec's own choice. -/
  | fault
  /-- "the model is built with the assumption that R3 reads as 0 there". -/
  | readsZero
  deriving DecidableEq, Repr

/-- The two digital I/O ports with interrupt capability (R245). -/
inductive PortId where
  | p1
  | p2
  deriving DecidableEq, Repr

/-- The registers of a port, one bit per pin (R245). -/
inductive PortReg where
  /-- PxIN -/
  | input
  /-- PxOUT -/
  | output
  /-- PxDIR -/
  | dir
  /-- PxIFG -/
  | ifg
  /-- PxIES -/
  | ies
  /-- PxIE -/
  | ie
  /-- PxSEL -/
  | sel
  /-- PxSEL2 -/
  | sel2
  /-- PxREN -/
  | ren
  deriving DecidableEq, Repr

/-- What answers at a `device` address (R52, R60). -/
inductive Device where
  /-- An 8-bit port register (R245). -/
  | port (p : PortId) (r : PortReg)
  /-- Timer_A control, 16 bits (R241). -/
  | tactl
  /-- Timer_A capture/compare control of block `x`, 16 bits (R242). -/
  | tacctl (x : Nat)
  /-- The watchdog control register, 16 bits (R248). -/
  | watchdog
  /-- A register no source describes. -/
  | other
  deriving DecidableEq, Repr

/-- `P_MEMMAP`'s answer for one address (R8). -/
inductive MemKind where
  | ram
  | rom
  | device (d : Device)
  /-- `none`: unpopulated. -/
  | unmapped
  deriving DecidableEq, Repr

/-- One line of `P_MEMMAP`: the addresses `first` to `last` inclusive are of one kind. -/
structure Region where
  first : Nat
  last  : Nat
  kind  : MemKind
  deriving DecidableEq, Repr

/-- Where an interrupt source's flag and enable bits are (R225). Port and Timer_A overflow vectors
are multi-source; a capture/compare block and a line that only the platform knows say which they are. -/
inductive Request where
  /-- `PxIFG & PxIE`, gated by PxSEL (R246, R247). -/
  | port (p : PortId)
  /-- TAIFG and TAIE (R241). -/
  | timerOverflow
  /-- CCIFG and CCIE of block `x` (R242). -/
  | capture (x : Nat) (singleSource : Bool)
  /-- A flag and an enable bit in a peripheral no source describes. -/
  | line (k : Nat) (singleSource : Bool)
  deriving DecidableEq, Repr

/-- One of the sixteen interrupt vectors, the words at 0xFFE0 to 0xFFFF (R7, R62, R231). -/
abbrev VectorSlot := Fin 16

/-- One entry of `P_IRQ_TABLE` (R8, R225). Its vector is one of the sixteen of R231. Without a
priority of its own an entry is ranked by its vector address (R229). -/
structure IrqSource where
  slot     : VectorSlot
  priority : Option Nat
  maskable : Bool
  request  : Request
  deriving DecidableEq, Repr

/-- The parameters of R8 that a step reads. `P_END_OF_RUN` is about a run, not a step: Safety.lean. -/
structure Params where
  memmap      : List Region
  /-- `P_RESET_VECTOR`: which vector of the table is the reset vector (R62, R231). -/
  resetVector : VectorSlot
  irqTable    : List IrqSource
  misaligned  : MisalignedPolicy
  rrcV        : RrcOverflow
  srReserved  : SrReserved
  r3Dst       : R3Destination
  deriving DecidableEq, Repr

/-- The peripheral addresses R63 fixes, then RAM everywhere else. R63's rows are the spec's; RAM
elsewhere is DESIGN CHOICE (log entry 3): the spec leaves the map OPEN (92_eei_decisions.md D6). -/
def Config.defaultMap : List Region :=
  [ ⟨0x0020, 0x0020, .device (.port .p1 .input)⟩,
    ⟨0x0021, 0x0021, .device (.port .p1 .output)⟩,
    ⟨0x0022, 0x0022, .device (.port .p1 .dir)⟩,
    ⟨0x0023, 0x0023, .device (.port .p1 .ifg)⟩,
    ⟨0x0024, 0x0024, .device (.port .p1 .ies)⟩,
    ⟨0x0025, 0x0025, .device (.port .p1 .ie)⟩,
    ⟨0x0026, 0x0026, .device (.port .p1 .sel)⟩,
    ⟨0x0027, 0x0027, .device (.port .p1 .ren)⟩,
    ⟨0x0041, 0x0041, .device (.port .p1 .sel2)⟩,
    ⟨0x0120, 0x0121, .device .watchdog⟩,
    ⟨0x0000, 0xFFFF, .ram⟩ ]

/-- The defaults of R8 (and R102's own choice for R3), with the map of log entry 3 and the empty
interrupt table of R224. The reset vector is the last of the table, the word at 0xFFFE. -/
def Config.defaults : Params where
  memmap      := Config.defaultMap
  resetVector := 15
  irqTable    := []
  misaligned  := .fault
  rrcV        := .reset
  srReserved  := .hardwired0
  r3Dst       := .fault

end Sys2Proof
end

