-- ==== Sys2Proof/Machine/State.lean ====
section
/-! DEFINITION. The state of the machine as plain data, the faults and refusals a step can end in,
and the state after reset (10_state.md, 60_exceptions.md R222, 70_reset_and_hazards.md R260 to R264).
INVENTORY.md lists every field with the rule that names it and its reset value. -/

namespace Sys2Proof.Machine

/-- The register file (R20, R21): PC, SP, SR and R4 to R15. R3 holds no state (R33). SR is the
16-bit register of R26; its fields have accessors in Machine/Flags.lean. -/
structure Regs where
  pc  : Word
  sp  : Word
  sr  : Word
  r4  : Word
  r5  : Word
  r6  : Word
  r7  : Word
  r8  : Word
  r9  : Word
  r10 : Word
  r11 : Word
  r12 : Word
  r13 : Word
  r14 : Word
  r15 : Word
  deriving DecidableEq, Repr

/-- The bytes of RAM and ROM as address and byte pairs in one canonical form: addresses strictly
rising, none at or above 0x10000, no byte 0 (what an unlisted address reads as, log entry 2). -/
abbrev Memory := List Host.Cell

/-- One digital I/O port: its eight registers and the levels of the input signals at its pins
(R245, R246). PxIN is not stored: it reflects the input signals. -/
structure Port where
  /-- The input signals at the pins, owned by the platform. -/
  pins   : Byte
  /-- PxOUT -/
  output : Byte
  /-- PxDIR -/
  dir    : Byte
  /-- PxIFG -/
  ifg    : Byte
  /-- PxIES -/
  ies    : Byte
  /-- PxIE -/
  ie     : Byte
  /-- PxSEL -/
  sel    : Byte
  /-- PxSEL2 -/
  sel2   : Byte
  /-- PxREN -/
  ren    : Byte
  deriving DecidableEq, Repr

/-- Capture/compare block `x` of Timer_A (R242, R243). -/
structure TimerBlock where
  /-- TACCTLx without the bits the hardware supplies (SCCI and CCI). -/
  ctl    : Word
  /-- The input signal CCIxA, owned by the platform. -/
  inputA : Bool
  /-- The input signal CCIxB, owned by the platform. -/
  inputB : Bool
  /-- SCCI, the latched input. -/
  scci   : Bool
  /-- The output signal OUTx. -/
  out    : Bool
  deriving DecidableEq, Repr

/-- Timer_A as far as the sources go (R241, R242): TACTL and the capture/compare blocks. -/
structure Timer where
  ctl    : Word
  blocks : List TimerBlock
  deriving DecidableEq, Repr

/-- The flag and enable bit of an interrupt source in a peripheral no source describes (R223). -/
structure Line where
  flag   : Bool
  enable : Bool
  deriving DecidableEq, Repr

/-- The peripheral state the sources give. -/
structure Devices where
  p1    : Port
  p2    : Port
  timer : Timer
  lines : List Line
  deriving DecidableEq, Repr

/-- What a peripheral, or the world outside, does to the device state: the platform oracle's
actions (R60, R226), each with the effect the sources give it. -/
inductive PlatformEvent where
  /-- The input signals of a port take these levels (R246, R247). -/
  | pins (p : PortId) (levels : Byte)
  /-- Flags of a port set by the platform for a reason the sources leave open, such as a write to
  PxOUT, PxDIR or PxIES (R247, R274). -/
  | portFlags (p : PortId) (mask : Byte)
  /-- Line `k` takes these bits (R223). -/
  | line (k : Nat) (l : Line)
  /-- TAR returns to 0: TAIFG is set (R223, R244). -/
  | timerReturnsToZero
  /-- The timer counts to TACCRx: EQUx (R242, R243). -/
  | timerCountsTo (x : Nat)
  /-- CCIFG of block `x` is set (R242). -/
  | captureFlag (x : Nat)
  /-- A capture overflow occurred: COV of block `x` is set (R242). -/
  | captureOverflow (x : Nat)
  /-- The input signal CCIxA of block `x` takes this level (R242). -/
  | captureInputA (x : Nat) (level : Bool)
  /-- The input signal CCIxB of block `x` takes this level (R242). -/
  | captureInputB (x : Nat) (level : Bool)
  deriving DecidableEq, Repr

/-- The platform's answer at one instruction boundary (R226): whether a reset is requested, what
happened in the peripherals since the last boundary, and its choice where GieGate answers `may`. -/
structure Tick where
  reset     : Bool
  events    : List PlatformEvent
  acceptMay : Bool
  deriving DecidableEq, Repr

/-- One access to a `device` address as the platform sees it (R60; 92_eei_decisions.md D25). -/
structure BusAccess where
  write : Bool
  addr  : Word
  width : Width
  value : Word
  deriving DecidableEq, Repr

/-- The machine. -/
structure State where
  /-- The register file (R20). -/
  regs      : Regs
  /-- `g1` of gie_hist: GIE before the last executed instruction (R40, R228). -/
  g1        : Bool
  /-- `g2` of gie_hist: GIE before the one before that (R40, R228). -/
  g2        : Bool
  /-- RAM and ROM contents (R50). -/
  mem       : Memory
  /-- The peripheral registers (R241 to R248). -/
  dev       : Devices
  /-- The parameters of R8. No step changes them. -/
  params    : Params
  /-- The platform's answers at the coming instruction boundaries, the next one first; none left:
  nothing happens. The model's own field (log entry 4). -/
  ticks     : List Tick
  /-- What the platform does before each of the coming device accesses, the next one first (R59);
  none left: nothing. The model's own field (log entry 4). -/
  busTicks  : List (List PlatformEvent)
  /-- The device accesses made so far, the last one first (R60). -/
  busLog    : List BusAccess
  /-- How many free values have been drawn. The model's own field (log entry 1). -/
  freeCount : Nat
  /-- MCLK cycles executed since the counter's start (R276 to R282); nothing reads it (R283). -/
  cycles    : Nat
  deriving DecidableEq, Repr

/-- The model-level faults of R222. The hardware raises no synchronous exception (R221): each of
these ends the run where no source says what the hardware does, so each is safe (a claim becomes
unprovable, no false claim provable). Beside the info of R222's table each holds a state `s`. Of the
two faults of decoding it is the state before the instruction (92_eei_decisions.md D11); of the three
faults of an access it is "the state as it was when the fault was raised": what the instruction wrote
earlier, PC's advance and autoincrements among it, stays made. -/
inductive Fault where
  /-- Raised by decoding a word with no assigned instruction at address `a` (R98, R100, R101); PC
  and all state are as before the instruction (D11). Safe. -/
  | illegalInstruction (a iw : Word) (s : State)
  /-- Raised by an operand combination no source defines (R99, R102, R140, R145), before any operand
  access; PC and all state are as before the instruction (D11). Safe. -/
  | unpredictable (a iw : Word) (s : State)
  /-- Raised by any access, fetch included, to an address the map marks `none` (R52, R54). Safe. -/
  | unmappedAccess (a : Word) (s : State)
  /-- Raised by a write to a `rom` address (R54). Safe. -/
  | writeToReadOnly (a : Word) (s : State)
  /-- Raised by a word access at an odd address under `P_MISALIGNED = fault` (R56). Safe. -/
  | misalignedAccess (a : Word) (s : State)
  deriving DecidableEq, Repr

/-- Why `exec` gives an instruction no meaning. -/
inductive Refusal where
  /-- Raised by `exec`'s arm of an instruction that has no meaning yet. Every instruction has one, so
  nothing raises it. Safe. -/
  | notModelled (mnemonic : String)
  deriving DecidableEq, Repr

/-- A port after power-up: the registers "Reset with PUC" are 0 (R264); PxOUT, PxIES and the pins
have no reset value and stand at 0 (log entry 5). R264 lists port P1: the same of port P2 is DESIGN
CHOICE (log entry 37). -/
def Port.powerUp : Port := ⟨0#8, 0#8, 0#8, 0#8, 0#8, 0#8, 0#8, 0#8, 0#8⟩

/-- A capture/compare block after reset: TACCTLx = 0 (R264), the signals low (log entry 5). -/
def TimerBlock.powerUp : TimerBlock := ⟨0#16, false, false, false, false⟩

/-- The peripherals after power-up. Two capture/compare blocks (log entry 6). No line is set, so
every line's flag and enable bit are clear: DESIGN CHOICE, the spec gives peripherals that no source
describes no power-up value (log entry 5). -/
def Devices.powerUp : Devices where
  p1    := Port.powerUp
  p2    := Port.powerUp
  timer := ⟨0#16, [TimerBlock.powerUp, TimerBlock.powerUp]⟩
  lines := []

/-- The register file after power-up. PC is the word at the reset vector of a memory with nothing
listed (R261), SR is 0 (R262); SP and R4 to R15 have no reset value (R263) and stand at 0 (log
entry 5). -/
def Regs.powerUp : Regs where
  pc  := 0#16
  sp  := 0#16
  sr  := 0#16
  r4  := 0#16
  r5  := 0#16
  r6  := 0#16
  r7  := 0#16
  r8  := 0#16
  r9  := 0#16
  r10 := 0#16
  r11 := 0#16
  r12 := 0#16
  r13 := 0#16
  r14 := 0#16
  r15 := 0#16

/-- The machine right after reset (R41, R260 to R264), with the default parameters, nothing listed
in memory and a quiet platform. The cycle counter starts at 0, the cycles of the reset itself not
counted: DESIGN CHOICE (log entry 38). -/
def State.reset : State where
  regs      := Regs.powerUp
  g1        := false
  g2        := false
  mem       := []
  dev       := Devices.powerUp
  params    := Config.defaults
  ticks     := []
  busTicks  := []
  busLog    := []
  freeCount := 0
  cycles    := 0

end Sys2Proof.Machine
end

