-- ==== Sys2Proof/Machine/Memory.lean ====
section
/-! DEFINITION. RAM and ROM contents: reading and writing one byte of the canonical list
(20_memory.md R50, R52, R54), and the form itself as a Bool. -/

namespace Sys2Proof.Machine

/-- What a byte nothing has written reads as: 0 (log entry 2; R264 leaves RAM contents unspecified). -/
def unwrittenByte : Byte := 0#8

/-- The byte stored at an address. -/
def Memory.read : Memory → Nat → Byte
  | [], _ => unwrittenByte
  | c :: m, a => if c.1 = a then c.2 else Memory.read m a

/-- The list with the byte at an address replaced, in canonical form: a byte equal to
`unwrittenByte` is not listed. -/
def Memory.write : Memory → Nat → Byte → Memory
  | [], a, b => if b = unwrittenByte then [] else [(a, b)]
  | c :: m, a, b =>
    if c.1 < a then c :: Memory.write m a b
    else if c.1 = a then (if b = unwrittenByte then m else (a, b) :: m)
    else (if b = unwrittenByte then c :: m else (a, b) :: c :: m)

/-- The canonical form above a lower bound: addresses strictly rising, inside the address space, no
entry equal to `unwrittenByte`. -/
def Memory.wfFrom : Nat → Memory → Bool
  | _, [] => true
  | lo, c :: m =>
    decide (lo ≤ c.1) && decide (c.1 < 0x10000) && decide (c.2 ≠ unwrittenByte)
      && Memory.wfFrom (c.1 + 1) m

/-- The canonical form of memory. -/
def Memory.wf (m : Memory) : Bool := Memory.wfFrom 0 m

/-- Storing consecutive bytes from an address upward, wrapping at the top of the address space. -/
def Memory.writeBytes : Memory → Word → List Byte → Memory
  | m, _, [] => m
  | m, a, b :: bs => Memory.writeBytes (Memory.write m a.toNat b) (a + 1#16) bs

end Sys2Proof.Machine
end

