-- ==== Sys2Proof/Syntax.lean ====
section
/-! DEFINITION. The instruction set as syntax: registers, operand forms (30_encoding.md R88, R89)
and one constructor of `Instr` for each of the 51 rows of spec/opcode_table.json. An operand form
names its addressing mode; the extension word it needs is not part of the instruction word (R97)
and is fetched while the instruction executes (R81, R90, R91). -/

namespace Sys2Proof

/-- The sixteen registers (10_state.md R20, R21): R0 = PC, R1 = SP, R2 = SR, R3 = CG2. -/
inductive Reg where
  | pc | sp | sr | cg
  | r4 | r5 | r6 | r7 | r8 | r9 | r10 | r11 | r12 | r13 | r14 | r15
  deriving DecidableEq, Repr

/-- The constants of the constant generators: 0, 1, 2, -1 from R3 (CG2), 4 and 8 from R2 (CG1)
(R33, R88). -/
inductive Const where
  | zero | one | two | minusOne | four | eight
  deriving DecidableEq, Repr

/-- The source operand forms of R88; also the operand of a Format II instruction (R140). -/
inductive Src where
  /-- `Rn` -/
  | reg (r : Reg)
  /-- `X(Rn)` -/
  | indexed (r : Reg)
  /-- `LABEL`, that is `X(PC)` -/
  | symbolic
  /-- `&LABEL` -/
  | absolute
  /-- `@Rn`, `@PC` included (R103) -/
  | indirect (r : Reg)
  /-- `@Rn+` -/
  | autoinc (r : Reg)
  /-- `#N`, that is `@PC+` -/
  | immediate
  /-- a constant of the constant generators -/
  | const (c : Const)
  deriving DecidableEq, Repr

/-- The destination operand forms of R89. -/
inductive Dst where
  /-- `Rn`, `R3` included: its write is discarded -/
  | reg (r : Reg)
  /-- `X(Rm)` -/
  | indexed (r : Reg)
  /-- `LABEL` -/
  | symbolic
  /-- `&LABEL` -/
  | absolute
  /-- Ad = 1 with register 3, which no source lists (R89, R102) -/
  | unlisted
  deriving DecidableEq, Repr

/-- One constructor for each row of spec/opcode_table.json: the 27 core instructions, then the 24
emulated ones, which the assembler maps onto core instructions (43_emulated.md R180) and the
decoder never answers (R97). -/
inductive Instr where
  -- Format I, double operand (40_double_operand.md)
  | mov  (w : Width) (src : Src) (dst : Dst)
  | add  (w : Width) (src : Src) (dst : Dst)
  | addc (w : Width) (src : Src) (dst : Dst)
  | subc (w : Width) (src : Src) (dst : Dst)
  | sub  (w : Width) (src : Src) (dst : Dst)
  | cmp  (w : Width) (src : Src) (dst : Dst)
  | dadd (w : Width) (src : Src) (dst : Dst)
  | bit  (w : Width) (src : Src) (dst : Dst)
  | bic  (w : Width) (src : Src) (dst : Dst)
  | bis  (w : Width) (src : Src) (dst : Dst)
  | xor  (w : Width) (src : Src) (dst : Dst)
  | and  (w : Width) (src : Src) (dst : Dst)
  -- Format II, single operand (41_single_operand.md)
  | rrc  (w : Width) (opd : Src)
  | swpb (opd : Src)
  | rra  (w : Width) (opd : Src)
  | sxt  (opd : Src)
  | push (w : Width) (opd : Src)
  | call (opd : Src)
  | reti
  -- Format III, jumps (42_jumps.md)
  | jne (off : BitVec 10)
  | jeq (off : BitVec 10)
  | jnc (off : BitVec 10)
  | jc  (off : BitVec 10)
  | jn  (off : BitVec 10)
  | jge (off : BitVec 10)
  | jl  (off : BitVec 10)
  | jmp (off : BitVec 10)
  -- emulated (43_emulated.md)
  | adc  (w : Width) (dst : Dst)
  | br   (src : Src)
  | clr  (w : Width) (dst : Dst)
  | clrc
  | clrn
  | clrz
  | dadc (w : Width) (dst : Dst)
  | dec  (w : Width) (dst : Dst)
  | decd (w : Width) (dst : Dst)
  | dint
  | eint
  | inc  (w : Width) (dst : Dst)
  | incd (w : Width) (dst : Dst)
  | inv  (w : Width) (dst : Dst)
  | nop
  | pop  (w : Width) (dst : Dst)
  | ret
  | rla  (w : Width) (dst : Dst)
  | rlc  (w : Width) (dst : Dst)
  | sbc  (w : Width) (dst : Dst)
  | setc
  | setn
  | setz
  | tst  (w : Width) (dst : Dst)
  deriving DecidableEq, Repr

end Sys2Proof
end

