-- ==== Sys2Proof/WellFormed.lean ====
section
/-! DEFINITION. Which operand forms the tables of 30_encoding.md R88 and R89 have. A form outside
them is another form's encoding (`X(PC)` is written `symbolic`, `@PC+` is `immediate`, the source
`R3` is the constant 0): one term for each encoding. -/

namespace Sys2Proof

/-- R88: which registers each source form takes. -/
def Src.wf : Src → Bool
  | .reg r      => decide (r ≠ .cg)
  | .indexed r  => decide (r ≠ .pc ∧ r ≠ .sr ∧ r ≠ .cg)
  | .symbolic   => true
  | .absolute   => true
  | .indirect r => decide (r ≠ .sr ∧ r ≠ .cg)
  | .autoinc r  => decide (r ≠ .pc ∧ r ≠ .sr ∧ r ≠ .cg)
  | .immediate  => true
  | .const _    => true

/-- R89: which registers each destination form takes. -/
def Dst.wf : Dst → Bool
  | .reg _     => true
  | .indexed r => decide (r ≠ .pc ∧ r ≠ .sr ∧ r ≠ .cg)
  | .symbolic  => true
  | .absolute  => true
  | .unlisted  => true

/-- RLA and RLC name one operand that is written in both operand fields (R198, R199): it must be
an operand of both tables, which R3 and the unlisted form are not. -/
def Dst.wfBoth : Dst → Bool
  | .reg r    => decide (r ≠ .cg)
  | .unlisted => false
  | d         => d.wf

/-- An instruction whose operands are forms of the tables. -/
def Instr.wf : Instr → Bool
  | .mov _ s d  => s.wf && d.wf
  | .add _ s d  => s.wf && d.wf
  | .addc _ s d => s.wf && d.wf
  | .subc _ s d => s.wf && d.wf
  | .sub _ s d  => s.wf && d.wf
  | .cmp _ s d  => s.wf && d.wf
  | .dadd _ s d => s.wf && d.wf
  | .bit _ s d  => s.wf && d.wf
  | .bic _ s d  => s.wf && d.wf
  | .bis _ s d  => s.wf && d.wf
  | .xor _ s d  => s.wf && d.wf
  | .and _ s d  => s.wf && d.wf
  | .rrc _ s    => s.wf
  | .swpb s     => s.wf
  | .rra _ s    => s.wf
  | .sxt s      => s.wf
  | .push _ s   => s.wf
  | .call s     => s.wf
  | .reti       => true
  | .jne _      => true
  | .jeq _      => true
  | .jnc _      => true
  | .jc _       => true
  | .jn _       => true
  | .jge _      => true
  | .jl _       => true
  | .jmp _      => true
  | .adc _ d    => d.wf
  | .br s       => s.wf
  | .clr _ d    => d.wf
  | .clrc       => true
  | .clrn       => true
  | .clrz       => true
  | .dadc _ d   => d.wf
  | .dec _ d    => d.wf
  | .decd _ d   => d.wf
  | .dint       => true
  | .eint       => true
  | .inc _ d    => d.wf
  | .incd _ d   => d.wf
  | .inv _ d    => d.wf
  | .nop        => true
  | .pop _ d    => d.wf
  | .ret        => true
  | .rla _ d    => d.wfBoth
  | .rlc _ d    => d.wfBoth
  | .sbc _ d    => d.wf
  | .setc       => true
  | .setn       => true
  | .setz       => true
  | .tst _ d    => d.wf

end Sys2Proof
end

