-- ==== Sys2Proof/Decode.lean ====
section
/-! DEFINITION. The instruction encodings (30_encoding.md R82 to R101): the decoder from an
instruction word, total and rejecting by name; the encoder, written from the same tables; and the
core form of an emulated instruction (43_emulated.md R181 to R204). -/

namespace Sys2Proof

/-! ### Fields of an instruction word -/

/-- `iw[hi:lo]` as a number (R10). -/
def field (iw : Word) (hi lo : Nat) : Nat := iw.toNat / 2 ^ lo % 2 ^ (hi - lo + 1)

/-- Register numbers (10_state.md R21). -/
def Reg.num : Reg → Nat
  | .pc => 0 | .sp => 1 | .sr => 2 | .cg => 3
  | .r4 => 4 | .r5 => 5 | .r6 => 6 | .r7 => 7
  | .r8 => 8 | .r9 => 9 | .r10 => 10 | .r11 => 11
  | .r12 => 12 | .r13 => 13 | .r14 => 14 | .r15 => 15

/-- The register of a 4-bit register number. -/
def Reg.ofNum : Nat → Reg
  | 0 => .pc | 1 => .sp | 2 => .sr | 3 => .cg
  | 4 => .r4 | 5 => .r5 | 6 => .r6 | 7 => .r7
  | 8 => .r8 | 9 => .r9 | 10 => .r10 | 11 => .r11
  | 12 => .r12 | 13 => .r13 | 14 => .r14 | _ => .r15

/-- The B/W bit (R83, R85). -/
def Width.num : Width → Nat
  | .word => 0
  | .byte => 1

/-- The width of a B/W bit. -/
def Width.ofNum : Nat → Width
  | 0 => .word
  | _ => .byte

/-- The As bits of a source form (R88). -/
def Src.mode : Src → Nat
  | .reg _           => 0
  | .indexed _       => 1
  | .symbolic        => 1
  | .absolute        => 1
  | .indirect _      => 2
  | .autoinc _       => 3
  | .immediate       => 3
  | .const .zero     => 0
  | .const .one      => 1
  | .const .two      => 2
  | .const .minusOne => 3
  | .const .four     => 2
  | .const .eight    => 3

/-- The register field of a source form (R88). -/
def Src.register : Src → Reg
  | .reg r           => r
  | .indexed r       => r
  | .symbolic        => .pc
  | .absolute        => .sr
  | .indirect r      => r
  | .autoinc r       => r
  | .immediate       => .pc
  | .const .zero     => .cg
  | .const .one      => .cg
  | .const .two      => .cg
  | .const .minusOne => .cg
  | .const .four     => .sr
  | .const .eight    => .sr

/-- The source form of As bits and a register: the table of R88, row by row. -/
def Src.ofFields (as : Nat) (r : Reg) : Src :=
  match as, r with
  | 0, .cg => .const .zero
  | 0, r   => .reg r
  | 1, .pc => .symbolic
  | 1, .sr => .absolute
  | 1, .cg => .const .one
  | 1, r   => .indexed r
  | 2, .sr => .const .four
  | 2, .cg => .const .two
  | 2, r   => .indirect r
  | _, .pc => .immediate
  | _, .sr => .const .eight
  | _, .cg => .const .minusOne
  | _, r   => .autoinc r

/-- The Ad bit of a destination form (R89). -/
def Dst.mode : Dst → Nat
  | .reg _     => 0
  | .indexed _ => 1
  | .symbolic  => 1
  | .absolute  => 1
  | .unlisted  => 1

/-- The register field of a destination form (R89). -/
def Dst.register : Dst → Reg
  | .reg r     => r
  | .indexed r => r
  | .symbolic  => .pc
  | .absolute  => .sr
  | .unlisted  => .cg

/-- The destination form of an Ad bit and a register: the table of R89. -/
def Dst.ofFields (ad : Nat) (r : Reg) : Dst :=
  match ad, r with
  | 0, r   => .reg r
  | _, .pc => .symbolic
  | _, .sr => .absolute
  | _, .cg => .unlisted
  | _, r   => .indexed r

/-! ### The decoder -/

/-- Why a word is no instruction: `IllegalInstruction` by R98, R100 or R101. -/
inductive DecodeError where
  /-- An empty cell of the instruction map: 0x0000 to 0x0FFF, 0x1380 to 0x1FFF (R98). -/
  | unassigned
  /-- B/W = 1 on SWPB, SXT or CALL (R100). -/
  | byteFormOfWordInstruction
  /-- 0x1301 to 0x137F (R101). -/
  | retiOperandBits
  deriving DecidableEq, Repr

/-- Format I (R83, R84): the twelve opcodes `iw[15:12]` from 4 to 15. -/
def decodeDouble (iw : Word) : Instr :=
  let w := Width.ofNum (field iw 6 6)
  let src := Src.ofFields (field iw 5 4) (Reg.ofNum (field iw 11 8))
  let dst := Dst.ofFields (field iw 7 7) (Reg.ofNum (field iw 3 0))
  match field iw 15 12 with
  | 4  => .mov w src dst
  | 5  => .add w src dst
  | 6  => .addc w src dst
  | 7  => .subc w src dst
  | 8  => .sub w src dst
  | 9  => .cmp w src dst
  | 10 => .dadd w src dst
  | 11 => .bit w src dst
  | 12 => .bic w src dst
  | 13 => .bis w src dst
  | 14 => .xor w src dst
  | _  => .and w src dst

/-- A word-only Format II instruction: B/W = 1 is not an instruction (R100). -/
def wordOnly (w : Width) (i : Instr) : Except DecodeError Instr :=
  match w with
  | .word => .ok i
  | .byte => .error .byteFormOfWordInstruction

/-- Format II (R85, R86): `iw[15:10] = 000100`, the instruction in `iw[9:7]`. -/
def decodeSingle (iw : Word) : Except DecodeError Instr :=
  let w := Width.ofNum (field iw 6 6)
  let opd := Src.ofFields (field iw 5 4) (Reg.ofNum (field iw 3 0))
  match field iw 11 10, field iw 9 7 with
  | 0, 0 => .ok (.rrc w opd)
  | 0, 1 => wordOnly w (.swpb opd)
  | 0, 2 => .ok (.rra w opd)
  | 0, 3 => wordOnly w (.sxt opd)
  | 0, 4 => .ok (.push w opd)
  | 0, 5 => wordOnly w (.call opd)
  | 0, 6 => if field iw 6 0 = 0 then .ok .reti else .error .retiOperandBits
  | _, _ => .error .unassigned

/-- Format III (R87): `iw[15:13] = 001`, the condition in `iw[12:10]`, the offset in `iw[9:0]`. -/
def decodeJump (iw : Word) : Instr :=
  let off := BitVec.ofNat 10 (field iw 9 0)
  match field iw 12 10 with
  | 0 => .jne off
  | 1 => .jeq off
  | 2 => .jnc off
  | 3 => .jc off
  | 4 => .jn off
  | 5 => .jge off
  | 6 => .jl off
  | _ => .jmp off

/-- The instruction of an instruction word: the format by its top bits (R82). It answers core
instructions only (R97: "a decoder must ignore" the emulated rows). -/
def decode (iw : Word) : Except DecodeError Instr :=
  match field iw 15 12 with
  | 0 => .error .unassigned
  | 1 => decodeSingle iw
  | 2 => .ok (decodeJump iw)
  | 3 => .ok (decodeJump iw)
  | _ => .ok (decodeDouble iw)

/-! ### Byte order -/

/-- The word of its two bytes, the low byte first (20_memory.md R51). -/
def wordOfBytes (lo hi : Byte) : Word := BitVec.ofNat 16 (hi.toNat * 256 + lo.toNat)

/-- `v[7:0]`. -/
def lowByte (v : Word) : Byte := BitVec.ofNat 8 (v.toNat % 256)

/-- `v[15:8]`. -/
def highByte (v : Word) : Byte := BitVec.ofNat 8 (v.toNat / 256)

/-- The decoder on a byte stream: the instruction of the first word, and the bytes after that word
(the extension words among them, which the instruction fetches as it executes). -/
def decodeBytes : List Byte → Option (Except DecodeError Instr × List Byte)
  | lo :: hi :: rest => some (decode (wordOfBytes lo hi), rest)
  | _ => none

/-- The six bytes an instruction of up to three words can take, from the number the opcode table
numbers its bits by (the first word least significant), each word's low byte first. Bits at and
above `nbits` are 0. -/
def layoutBytes (nbits w : Nat) : List Byte :=
  let v := w % 2 ^ nbits
  [ BitVec.ofNat 8 v, BitVec.ofNat 8 (v / 2 ^ 8), BitVec.ofNat 8 (v / 2 ^ 16),
    BitVec.ofNat 8 (v / 2 ^ 24), BitVec.ofNat 8 (v / 2 ^ 32), BitVec.ofNat 8 (v / 2 ^ 40) ]

/-- The instruction the decoder reads from an instruction numbered as spec/opcode_table.json
numbers its bits; `none` where it refuses. -/
def decodeTableWord (nbits w : Nat) : Option Instr :=
  match decodeBytes (layoutBytes nbits w) with
  | some (.ok i, _) => some i
  | _ => none

/-! ### The encoder -/

/-- `opcode << 12 | S-reg << 8 | Ad << 7 | B/W << 6 | As << 4 | D-reg` (R83, R109). -/
def encodeDouble (op : Nat) (w : Width) (src : Src) (dst : Dst) : Word :=
  BitVec.ofNat 16
    (op * 0x1000 + src.register.num * 0x100 + dst.mode * 0x80 + w.num * 0x40
      + src.mode * 0x10 + dst.register.num)

/-- Format II (R85, R86): the base word of the instruction, B/W, Ad and the register. -/
def encodeSingle (base : Nat) (w : Width) (opd : Src) : Word :=
  BitVec.ofNat 16 (base + w.num * 0x40 + opd.mode * 0x10 + opd.register.num)

/-- Format III (R87): the base word of the jump and its 10-bit offset. -/
def encodeJump (base : Nat) (off : BitVec 10) : Word := BitVec.ofNat 16 (base + off.toNat)

/-- RLA and RLC write their one operand in both fields (R198, R199): the source form of a
destination. -/
def Dst.asSrc : Dst → Src
  | .reg .cg   => .const .zero
  | .reg r     => .reg r
  | .indexed r => .indexed r
  | .symbolic  => .symbolic
  | .absolute  => .absolute
  | .unlisted  => .const .one

/-- The instruction word of an instruction. The extension words its operands need are not part of
it (R97); `Instr.length` counts them. An emulated instruction has the word R181 to R204 give it. -/
def encode : Instr → Word
  | .mov w s d  => encodeDouble 0x4 w s d
  | .add w s d  => encodeDouble 0x5 w s d
  | .addc w s d => encodeDouble 0x6 w s d
  | .subc w s d => encodeDouble 0x7 w s d
  | .sub w s d  => encodeDouble 0x8 w s d
  | .cmp w s d  => encodeDouble 0x9 w s d
  | .dadd w s d => encodeDouble 0xA w s d
  | .bit w s d  => encodeDouble 0xB w s d
  | .bic w s d  => encodeDouble 0xC w s d
  | .bis w s d  => encodeDouble 0xD w s d
  | .xor w s d  => encodeDouble 0xE w s d
  | .and w s d  => encodeDouble 0xF w s d
  | .rrc w s    => encodeSingle 0x1000 w s
  | .swpb s     => encodeSingle 0x1080 .word s
  | .rra w s    => encodeSingle 0x1100 w s
  | .sxt s      => encodeSingle 0x1180 .word s
  | .push w s   => encodeSingle 0x1200 w s
  | .call s     => encodeSingle 0x1280 .word s
  | .reti       => 0x1300#16
  | .jne off    => encodeJump 0x2000 off
  | .jeq off    => encodeJump 0x2400 off
  | .jnc off    => encodeJump 0x2800 off
  | .jc off     => encodeJump 0x2C00 off
  | .jn off     => encodeJump 0x3000 off
  | .jge off    => encodeJump 0x3400 off
  | .jl off     => encodeJump 0x3800 off
  | .jmp off    => encodeJump 0x3C00 off
  | .adc w d    => encodeDouble 0x6 w (.const .zero) d
  | .br s       => encodeDouble 0x4 .word s (.reg .pc)
  | .clr w d    => encodeDouble 0x4 w (.const .zero) d
  | .clrc       => 0xC312#16
  | .clrn       => 0xC222#16
  | .clrz       => 0xC322#16
  | .dadc w d   => encodeDouble 0xA w (.const .zero) d
  | .dec w d    => encodeDouble 0x8 w (.const .one) d
  | .decd w d   => encodeDouble 0x8 w (.const .two) d
  | .dint       => 0xC232#16
  | .eint       => 0xD232#16
  | .inc w d    => encodeDouble 0x5 w (.const .one) d
  | .incd w d   => encodeDouble 0x5 w (.const .two) d
  | .inv w d    => encodeDouble 0xE w (.const .minusOne) d
  | .nop        => 0x4303#16
  | .pop w d    => encodeDouble 0x4 w (.autoinc .sp) d
  | .ret        => 0x4130#16
  | .rla w d    => encodeDouble 0x5 w d.asSrc d
  | .rlc w d    => encodeDouble 0x6 w d.asSrc d
  | .sbc w d    => encodeDouble 0x7 w (.const .zero) d
  | .setc       => 0xD312#16
  | .setn       => 0xD222#16
  | .setz       => 0xD322#16
  | .tst w d    => encodeDouble 0x9 w (.const .zero) d

/-! ### Emulated instructions -/

/-- The core instruction an emulated one stands for (R181 to R204); a core instruction is its own. -/
def Instr.core : Instr → Instr
  | .adc w d  => .addc w (.const .zero) d
  | .br s     => .mov .word s (.reg .pc)
  | .clr w d  => .mov w (.const .zero) d
  | .clrc     => .bic .word (.const .one) (.reg .sr)
  | .clrn     => .bic .word (.const .four) (.reg .sr)
  | .clrz     => .bic .word (.const .two) (.reg .sr)
  | .dadc w d => .dadd w (.const .zero) d
  | .dec w d  => .sub w (.const .one) d
  | .decd w d => .sub w (.const .two) d
  | .dint     => .bic .word (.const .eight) (.reg .sr)
  | .eint     => .bis .word (.const .eight) (.reg .sr)
  | .inc w d  => .add w (.const .one) d
  | .incd w d => .add w (.const .two) d
  | .inv w d  => .xor w (.const .minusOne) d
  | .nop      => .mov .word (.const .zero) (.reg .cg)
  | .pop w d  => .mov w (.autoinc .sp) d
  | .ret      => .mov .word (.autoinc .sp) (.reg .pc)
  | .rla w d  => .add w d.asSrc d
  | .rlc w d  => .addc w d.asSrc d
  | .sbc w d  => .subc w (.const .zero) d
  | .setc     => .bis .word (.const .one) (.reg .sr)
  | .setn     => .bis .word (.const .four) (.reg .sr)
  | .setz     => .bis .word (.const .two) (.reg .sr)
  | .tst w d  => .cmp w (.const .zero) d
  | .mov w s d  => .mov w s d
  | .add w s d  => .add w s d
  | .addc w s d => .addc w s d
  | .subc w s d => .subc w s d
  | .sub w s d  => .sub w s d
  | .cmp w s d  => .cmp w s d
  | .dadd w s d => .dadd w s d
  | .bit w s d  => .bit w s d
  | .bic w s d  => .bic w s d
  | .bis w s d  => .bis w s d
  | .xor w s d  => .xor w s d
  | .and w s d  => .and w s d
  | .rrc w s    => .rrc w s
  | .swpb s     => .swpb s
  | .rra w s    => .rra w s
  | .sxt s      => .sxt s
  | .push w s   => .push w s
  | .call s     => .call s
  | .reti       => .reti
  | .jne off    => .jne off
  | .jeq off    => .jeq off
  | .jnc off    => .jnc off
  | .jc off     => .jc off
  | .jn off     => .jn off
  | .jge off    => .jge off
  | .jl off     => .jl off
  | .jmp off    => .jmp off

/-! ### Length -/

/-- `srcext` (R96): one extension word for an indexed, symbolic, absolute or immediate source. -/
def Src.ext : Src → Nat
  | .indexed _ => 1
  | .symbolic  => 1
  | .absolute  => 1
  | .immediate => 1
  | .reg _     => 0
  | .indirect _ => 0
  | .autoinc _ => 0
  | .const _   => 0

/-- The length of an instruction in words, from its first word alone (R96). -/
def lengthOfWord (iw : Word) : Nat :=
  let ext (as s : Nat) : Nat := if (as = 1 ∧ s ≠ 3) ∨ (as = 3 ∧ s = 0) then 1 else 0
  match field iw 15 12 with
  | 0 => 1
  | 1 => 1 + ext (field iw 5 4) (field iw 3 0)
  | 2 => 1
  | 3 => 1
  | _ => 1 + ext (field iw 5 4) (field iw 11 8) + field iw 7 7

/-- The length of an instruction in words (R80, R96). -/
def Instr.length (i : Instr) : Nat := lengthOfWord (encode i)

end Sys2Proof
end

