-- ==== Sys2Proof/Machine/Flags.lean ====
section
/-! DEFINITION. The status register bit by bit (10_state.md R26 to R36) and every flag computation:
the adder of R121, the logic flags of R122, decimal addition (R129), the shifts (R141, R143), and
what each instruction computes from its operands. -/

namespace Sys2Proof.Machine

/-! ### The fields of SR (R26) -/

/-- SR.C, bit 0 (R28). -/
def srC (sr : Word) : Bool := sr.getLsbD 0
/-- SR.Z, bit 1 (R29). -/
def srZ (sr : Word) : Bool := sr.getLsbD 1
/-- SR.N, bit 2 (R30). -/
def srN (sr : Word) : Bool := sr.getLsbD 2
/-- SR.GIE, bit 3 (R32). -/
def srGie (sr : Word) : Bool := sr.getLsbD 3
/-- SR.CPUOFF, bit 4 (R34). -/
def srCpuOff (sr : Word) : Bool := sr.getLsbD 4
/-- SR.OSCOFF, bit 5 (R35). -/
def srOscOff (sr : Word) : Bool := sr.getLsbD 5
/-- SR.SCG0, bit 6 (R36). -/
def srScg0 (sr : Word) : Bool := sr.getLsbD 6
/-- SR.SCG1, bit 7 (R36). -/
def srScg1 (sr : Word) : Bool := sr.getLsbD 7
/-- SR.V, bit 8 (R31). -/
def srV (sr : Word) : Bool := sr.getLsbD 8

/-- The four status bits V, N, Z, C (R12). -/
structure Flags where
  v : Bool
  n : Bool
  z : Bool
  c : Bool
  deriving DecidableEq, Repr

/-- The status bits of an SR value. -/
def flagsOf (sr : Word) : Flags := ⟨srV sr, srN sr, srZ sr, srC sr⟩

/-- An SR value with the status bits replaced and every other bit kept (R120). -/
def withFlags (sr : Word) (f : Flags) : Word :=
  (sr &&& 0xFEF8#16) ||| (bitAt f.v 8 ||| bitAt f.n 2 ||| bitAt f.z 1 ||| bitAt f.c 0)

/-- The operating modes the table of R239 names. -/
inductive PowerMode where
  | active | lpm0 | lpm1 | lpm2 | lpm3 | lpm4
  deriving DecidableEq, Repr

/-- The operating mode of an SR value, from SCG1, SCG0, OSCOFF, CPUOFF; `none` for the ten
combinations no source names (R239). -/
def powerMode (sr : Word) : Option PowerMode :=
  match srScg1 sr, srScg0 sr, srOscOff sr, srCpuOff sr with
  | false, false, false, false => some .active
  | false, false, false, true  => some .lpm0
  | false, true,  false, true  => some .lpm1
  | true,  false, false, true  => some .lpm2
  | true,  true,  false, true  => some .lpm3
  | true,  true,  true,  true  => some .lpm4
  | _, _, _, _ => none

/-! ### The adder and the logic flags -/

/-- `AddC(a, b, cin)` (R121), on n-bit values held in words. -/
def addC (w : Width) (a b : Word) (cin : Bool) : Word × Flags :=
  let s := a.toNat + b.toNat + cin.toNat
  let r : Word := BitVec.ofNat 16 (s % 2 ^ w.bits)
  (r,
    { c := decide (2 ^ w.bits ≤ s)
      z := decide (r = 0#16)
      n := w.msb r
      v := (w.msb a == w.msb b) && (w.msb r != w.msb a) })

/-- `LogicFlags(r)` with the instruction's own V (R122). -/
def logicFlags (w : Width) (r : Word) (v : Bool) : Flags :=
  { v := v, n := w.msb r, z := decide (r = 0#16), c := decide (r ≠ 0#16) }

/-! ### Decimal addition -/

/-- The digit loop of R129 over the `m` low digits of two numbers: the sum's digits and the carry. -/
def daddDigits : Nat → Nat → Nat → Nat → Nat × Nat
  | 0, _, _, c => (0, c)
  | m + 1, a, b, c =>
    let t := a % 16 + b % 16 + c
    let digit := if 10 ≤ t then t - 10 else t
    let carry := if 10 ≤ t then 1 else 0
    let rest := daddDigits m (a / 16) (b / 16) carry
    (digit + 16 * rest.1, rest.2)

/-- Whether the `m` low digits of a number are all 0 to 9 (R129). -/
def isBcd : Nat → Nat → Bool
  | 0, _ => true
  | m + 1, a => decide (a % 16 < 10) && isBcd m (a / 16)

/-- The number of BCD digits of an operand, `m = n/4` (R129). -/
def bcdDigits : Width → Nat
  | .word => 4
  | .byte => 2

/-! ### What an instruction computes -/

/-- What an instruction computes from its operands: the result it stores and the status bits it
writes, each only where the instruction has one. -/
structure Effect where
  result : Option Word
  flags  : Option Flags
  deriving DecidableEq, Repr

/-- ADD (R124). -/
def addEffect (w : Width) (src dst : Word) : Effect :=
  let r := addC w dst src false
  ⟨some r.1, some r.2⟩

/-- ADDC (R125). -/
def addcEffect (w : Width) (carry : Bool) (src dst : Word) : Effect :=
  let r := addC w dst src carry
  ⟨some r.1, some r.2⟩

/-- SUBC (R126). -/
def subcEffect (w : Width) (carry : Bool) (src dst : Word) : Effect :=
  let r := addC w dst (w.complement src) carry
  ⟨some r.1, some r.2⟩

/-- SUB (R127). -/
def subEffect (w : Width) (src dst : Word) : Effect :=
  let r := addC w dst (w.complement src) true
  ⟨some r.1, some r.2⟩

/-- CMP (R128): SUB without the store. -/
def cmpEffect (w : Width) (src dst : Word) : Effect :=
  ⟨none, some (addC w dst (w.complement src) true).2⟩

/-- DADD (R129). V is the free bit 0 of `open1`; where an operand has a digit above 9 the result is
the free word `open2` and N, Z, C are the free bits 1, 2, 3 of `open1` (93_implementation_defined.md
U2, U3). -/
def daddEffect (w : Width) (carry : Bool) (open1 open2 src dst : Word) : Effect :=
  if isBcd (bcdDigits w) src.toNat && isBcd (bcdDigits w) dst.toNat then
    let sum := daddDigits (bcdDigits w) src.toNat dst.toNat carry.toNat
    let r : Word := BitVec.ofNat 16 sum.1
    ⟨some r,
      some { v := open1.getLsbD 0, n := w.msb r, z := decide (r = 0#16), c := decide (sum.2 = 1) }⟩
  else
    ⟨some (w.trunc open2),
      some { v := open1.getLsbD 0, n := open1.getLsbD 1, z := open1.getLsbD 2, c := open1.getLsbD 3 }⟩

/-- BIT (R130): AND without the store. -/
def bitEffect (w : Width) (src dst : Word) : Effect :=
  ⟨none, some (logicFlags w (src &&& dst) false)⟩

/-- BIC (R131). -/
def bicEffect (w : Width) (src dst : Word) : Effect :=
  ⟨some (w.complement src &&& dst), none⟩

/-- BIS (R132). -/
def bisEffect (src dst : Word) : Effect :=
  ⟨some (src ||| dst), none⟩

/-- XOR (R133): V is "set if both operands are negative". -/
def xorEffect (w : Width) (src dst : Word) : Effect :=
  let r := src ^^^ dst
  ⟨some r, some (logicFlags w r (w.msb src && w.msb dst))⟩

/-- AND (R134). -/
def andEffect (w : Width) (src dst : Word) : Effect :=
  let r := src &&& dst
  ⟨some r, some (logicFlags w r false)⟩

/-- RRC (R141). V follows `P_RRC_V`. -/
def rrcEffect (w : Width) (overflow : RrcOverflow) (carry : Bool) (v : Word) : Effect :=
  let r := bitAt carry (w.bits - 1) ||| (v >>> 1)
  let vFlag := match overflow with
    | .reset  => false
    | .legacy => !w.msb v && carry
  ⟨some r, some { v := vFlag, n := w.msb r, z := decide (r = 0#16), c := v.getLsbD 0 }⟩

/-- SWPB (R142). -/
def swpbEffect (v : Word) : Effect :=
  ⟨some (((v &&& 0x00FF#16) <<< 8) ||| (v >>> 8)), none⟩

/-- RRA (R143). -/
def rraEffect (w : Width) (v : Word) : Effect :=
  let r := bitAt (w.msb v) (w.bits - 1) ||| (v >>> 1)
  ⟨some r, some { v := false, n := w.msb r, z := decide (r = 0#16), c := v.getLsbD 0 }⟩

/-- SXT (R144). -/
def sxtEffect (v : Word) : Effect :=
  let r : Word := if v.getLsbD 7 then (v &&& 0x00FF#16) ||| 0xFF00#16 else v &&& 0x00FF#16
  ⟨some r, some (logicFlags .word r false)⟩

end Sys2Proof.Machine
end

