-- ==== Sys2Proof/Machine/Devices.lean ====
section
/-! DEFINITION. The peripheral registers the sources describe, as a `device` address reads and
writes them (60_exceptions.md R241 to R248; 20_memory.md R60), and what the platform's events do to
them. What no source fixes is a free value. -/

namespace Sys2Proof.Machine

/-- A free value, and the state that has drawn it (log entry 1). -/
def State.draw (s : State) : Word × State :=
  (Config.freeWord s.freeCount, { s with freeCount := s.freeCount + 1 })

/-- The state with other device state. -/
def State.setDev (s : State) (d : Devices) : State := { s with dev := d }

/-! ### Ports (R245 to R247) -/

/-- A port by its name. -/
def Devices.port (d : Devices) : PortId → Port
  | .p1 => d.p1
  | .p2 => d.p2

/-- The devices with one port replaced. -/
def Devices.setPort (d : Devices) (i : PortId) (p : Port) : Devices :=
  match i with
  | .p1 => { d with p1 := p }
  | .p2 => { d with p2 := p }

/-- The pins whose I/O function is selected: PxSEL2, PxSEL = 0, 0 (R246, Table 8-1). -/
def Port.ioPins (p : Port) : Byte := ~~~(p.sel ||| p.sel2)

/-- Reading a port register (R246). PxIN reflects the input signal where the pin has the I/O
function; elsewhere its bit is open and comes from `free`. -/
def Port.read (p : Port) (free : Byte) : PortReg → Byte
  | .input  => if p.ioPins = 0xFF#8 then p.pins else (p.pins &&& p.ioPins) ||| (free &&& ~~~p.ioPins)
  | .output => p.output
  | .dir    => p.dir
  | .ifg    => p.ifg
  | .ies    => p.ies
  | .ie     => p.ie
  | .sel    => p.sel
  | .sel2   => p.sel2
  | .ren    => p.ren

/-- Writing a port register (R245, R246): PxIN is read-only and ignores the write. Flags the write
may set besides (R247, R274) are the platform's: `PlatformEvent.portFlags`. -/
def Port.write (p : Port) (v : Byte) : PortReg → Port
  | .input  => p
  | .output => { p with output := v }
  | .dir    => { p with dir := v }
  | .ifg    => { p with ifg := v }
  | .ies    => { p with ies := v }
  | .ie     => { p with ie := v }
  | .sel    => { p with sel := v }
  | .sel2   => { p with sel2 := v }
  | .ren    => { p with ren := v }

/-- New levels at a port's pins. The edges PxIES selects (0: low-to-high, 1: high-to-low) set their
flags (R247), but where PxSEL is set "the corresponding pin's interrupt function is disabled"
(R246). -/
def Port.setPins (p : Port) (levels : Byte) : Port :=
  let rising := ~~~p.pins &&& levels &&& ~~~p.ies
  let falling := p.pins &&& ~~~levels &&& p.ies
  { p with pins := levels, ifg := p.ifg ||| ((rising ||| falling) &&& ~~~p.sel) }

/-- Whether a port requests its interrupt: a flag whose enable bit is set, at a pin whose PxSEL is
clear (R223, R246). -/
def Port.pending (p : Port) : Bool := decide (p.ifg &&& p.ie &&& ~~~p.sel ≠ 0#8)

/-- A reset clears the registers "Reset with PUC" and leaves PxOUT and PxIES (R264, which lists port P1;
the same of port P2 is DESIGN CHOICE, log entry 37). -/
def Port.puc (p : Port) : Port :=
  { p with dir := 0#8, ifg := 0#8, ie := 0#8, sel := 0#8, sel2 := 0#8, ren := 0#8 }

/-! ### Timer_A (R241 to R244) -/

/-- TAIFG, TACTL bit 0 (R241). -/
def Timer.taifg (t : Timer) : Bool := t.ctl.getLsbD 0

/-- TAIE, TACTL bit 1 (R241; PRESUMED position, log entry 7). -/
def Timer.taie (t : Timer) : Bool := t.ctl.getLsbD 1

/-- Timer_A clock sources, TASSELx (R241). -/
inductive ClockSource where
  | taclk | aclk | smclk | inclk
  deriving DecidableEq, Repr

/-- Timer_A modes, MCx (R241). -/
inductive TimerMode where
  | stop | up | continuous | upDown
  deriving DecidableEq, Repr

/-- TASSELx, TACTL bits 9:8 (R241). -/
def Timer.clockSource (t : Timer) : ClockSource :=
  match field t.ctl 9 8 with
  | 0 => .taclk
  | 1 => .aclk
  | 2 => .smclk
  | _ => .inclk

/-- The input divider of IDx, TACTL bits 7:6 (R241). -/
def Timer.divider (t : Timer) : Nat := 2 ^ field t.ctl 7 6

/-- MCx, TACTL bits 5:4 (R241). -/
def Timer.mode (t : Timer) : TimerMode :=
  match field t.ctl 5 4 with
  | 0 => .stop
  | 1 => .up
  | 2 => .continuous
  | _ => .upDown

/-- Whether the timer counts: in stop mode "the timer is halted" (R241). -/
def Timer.running (t : Timer) : Bool := decide (t.mode ≠ .stop)

/-- What TACTL stores of a write: the unused bits 15:10 and 3 read 0 (93_implementation_defined.md
U23), TACLR (bit 2) reads as 0 (R241; PRESUMED, log entry 7). -/
def tactlStored (v : Word) : Word := v &&& 0x03F3#16

/-- What TACCTLx stores of a write: bit 9 is "Read only. Always read as 0", SCCI (bit 10) and CCI
(bit 3) are supplied by the hardware and ignore writes (R242). -/
def tacctlStored (v : Word) : Word := v &&& 0xF9F7#16

/-- The output modes of Table 12-2, OUTMODx (R243). -/
inductive OutMode where
  | output | set | toggleReset | setReset | toggle | reset | toggleSet | resetSet
  deriving DecidableEq, Repr

/-- OUTMODx, TACCTLx bits 7:5 (R242, R243). -/
def TimerBlock.outMode (b : TimerBlock) : OutMode :=
  match field b.ctl 7 5 with
  | 0 => .output
  | 1 => .set
  | 2 => .toggleReset
  | 3 => .setReset
  | 4 => .toggle
  | 5 => .reset
  | 6 => .toggleSet
  | _ => .resetSet

/-- OUTx when the timer counts to the TACCRx value (R243). -/
def OutMode.atCompare : OutMode → Bool → Bool
  | .output, o      => o
  | .set, _         => true
  | .toggleReset, o => !o
  | .setReset, _    => true
  | .toggle, o      => !o
  | .reset, _       => false
  | .toggleSet, o   => !o
  | .resetSet, _    => false

/-- OUTx when the timer counts to the TACCR0 value (R243). -/
def OutMode.atPeriod : OutMode → Bool → Bool
  | .output, o      => o
  | .set, o         => o
  | .toggleReset, _ => false
  | .setReset, _    => false
  | .toggle, o      => o
  | .reset, o       => o
  | .toggleSet, _   => true
  | .resetSet, _    => true

/-- The modes that act at both events; they "are not useful for TACCR0, because EQUx = EQU0"
(R242). -/
def OutMode.usesPeriod : OutMode → Bool
  | .toggleReset => true
  | .setReset    => true
  | .toggleSet   => true
  | .resetSet    => true
  | .output      => false
  | .set         => false
  | .toggle      => false
  | .reset       => false

/-- CCIFG, TACCTLx bit 0 (R242). -/
def TimerBlock.ccifg (b : TimerBlock) : Bool := b.ctl.getLsbD 0

/-- CCIE, TACCTLx bit 4 (R242). -/
def TimerBlock.ccie (b : TimerBlock) : Bool := b.ctl.getLsbD 4

/-- CAP, TACCTLx bit 8: capture mode, otherwise compare mode (R242). -/
def TimerBlock.captureMode (b : TimerBlock) : Bool := b.ctl.getLsbD 8

/-- Whether a block captures at all: in capture mode, and CMx (bits 15:14) is not "No capture"
(R242). -/
def TimerBlock.captures (b : TimerBlock) : Bool := b.captureMode && decide (field b.ctl 15 14 ≠ 0)

/-- Whether what sets CCIFG can happen to a block: a capture in capture mode, in compare mode the
running timer's counting to TACCRx (R241, R242; DEDUCED, log entry 36). -/
def Timer.mayFlag (t : Timer) (b : TimerBlock) : Bool :=
  if b.captureMode then b.captures else t.running

/-- CCI, the input signal CCISx selects (TACCTLx bits 13:12): CCIxA, CCIxB, GND or VCC (R242). -/
def TimerBlock.cci (b : TimerBlock) : Bool :=
  match field b.ctl 13 12 with
  | 0 => b.inputA
  | 1 => b.inputB
  | 2 => false
  | _ => true

/-- Reading TACCTLx: the stored bits with SCCI and CCI from the hardware (R242). -/
def TimerBlock.read (b : TimerBlock) : Word := b.ctl ||| bitAt b.scci 10 ||| bitAt b.cci 3

/-- Writing TACCTLx: in output mode 0 OUT (bit 2) "directly controls the state of the output"
(R242, R243). -/
def TimerBlock.write (b : TimerBlock) (v : Word) : TimerBlock :=
  let b' := { b with ctl := tacctlStored v }
  if b'.outMode = .output then { b' with out := v.getLsbD 2 } else b'

/-- A list with its element at `x` changed; a list too short is unchanged. -/
def updateAt {α : Type} (f : α → α) : Nat → List α → List α
  | _, [] => []
  | 0, a :: l => f a :: l
  | x + 1, a :: l => a :: updateAt f x l

/-- The element at `x`, if there is one. -/
def elementAt {α : Type} : Nat → List α → Option α
  | _, [] => none
  | 0, a :: _ => some a
  | x + 1, _ :: l => elementAt x l

/-- The timer with block `x` changed. -/
def Timer.updateBlock (t : Timer) (x : Nat) (f : TimerBlock → TimerBlock) : Timer :=
  { t with blocks := updateAt f x t.blocks }

/-- EQUx: SCCI latches CCI (R242) and OUTx acts by its mode (R243). Of block 0 in a mode that also
acts at TACCR0 the output is open: `free`. -/
def TimerBlock.compare (b : TimerBlock) (isBlock0 free : Bool) : TimerBlock :=
  { b with
    scci := b.cci
    out := if isBlock0 && b.outMode.usesPeriod then free else b.outMode.atCompare b.out }

/-- The timer counts to the TACCR0 value, seen from another block (R243). -/
def TimerBlock.period (b : TimerBlock) : TimerBlock :=
  { b with out := b.outMode.atPeriod b.out }

/-- The timer counts to TACCRx (R243): block `x` sees EQUx, and for `x = 0` every other block its
period event. -/
def Timer.reaches (t : Timer) (x : Nat) (free : Bool) : Timer :=
  match x, t.blocks with
  | 0, b0 :: rest => { t with blocks := b0.compare true free :: rest.map TimerBlock.period }
  | _, _ => t.updateBlock x (fun b => b.compare false free)

/-- The event of counting to TACCRx: a halted timer does not count (R241, R244). -/
def Timer.countsTo (t : Timer) (x : Nat) (free : Bool) : Timer :=
  if t.running then t.reaches x free else t

/-- TAR returns to 0 and sets TAIFG (R223, R244), unless the timer is halted (R241). -/
def Timer.returnsToZero (t : Timer) : Timer :=
  if t.running then { t with ctl := t.ctl ||| 1#16 } else t

/-- CCIFG of block `x` is set where what sets it can happen (R242, R244). -/
def Timer.setFlag (t : Timer) (x : Nat) : Timer :=
  t.updateBlock x (fun b => if t.mayFlag b then { b with ctl := b.ctl ||| 1#16 } else b)

/-- COV of block `x` is set if the block captures (R242, R244). -/
def Timer.overflowCapture (t : Timer) (x : Nat) : Timer :=
  t.updateBlock x (fun b => if b.captures then { b with ctl := b.ctl ||| 2#16 } else b)

/-- A capture/compare block after a reset: TACCTLx is 0, SCCI among its bits (R264); OUTx follows
OUT = 0 in output mode 0; the input signals are the platform's. -/
def TimerBlock.puc (b : TimerBlock) : TimerBlock :=
  { b with ctl := 0#16, scci := false, out := false }

/-- TACTL and every TACCTLx are 0 after a reset (R264). -/
def Timer.puc (t : Timer) : Timer := ⟨0#16, t.blocks.map TimerBlock.puc⟩

/-! ### Events of the platform -/

/-- A list of lines with line `k` replaced; the list grows with inert lines up to `k`. -/
def setLine (l : Line) : Nat → List Line → List Line
  | 0, [] => [l]
  | 0, _ :: ls => l :: ls
  | k + 1, [] => ⟨false, false⟩ :: setLine l k []
  | k + 1, a :: ls => a :: setLine l k ls

/-- Line `k`; one never set is inert. -/
def Devices.line (d : Devices) (k : Nat) : Line := (elementAt k d.lines).getD ⟨false, false⟩

/-- What an event does to the device state; `free` is the open output bit of R243's block 0. The
timer's events are bound by R241 to R243 (R244): one they rule out has no effect. -/
def Devices.event (d : Devices) (free : Bool) : PlatformEvent → Devices
  | .pins i levels     => d.setPort i ((d.port i).setPins levels)
  | .portFlags i mask  => d.setPort i { d.port i with ifg := (d.port i).ifg ||| mask }
  | .line k l          => { d with lines := setLine l k d.lines }
  | .timerReturnsToZero => { d with timer := d.timer.returnsToZero }
  | .timerCountsTo x   => { d with timer := d.timer.countsTo x free }
  | .captureFlag x     => { d with timer := d.timer.setFlag x }
  | .captureOverflow x => { d with timer := d.timer.overflowCapture x }
  | .captureInputA x level =>
    { d with timer := d.timer.updateBlock x (fun b => { b with inputA := level }) }
  | .captureInputB x level =>
    { d with timer := d.timer.updateBlock x (fun b => { b with inputB := level }) }

/-- One event happens. Only a compare event of the timer draws a free value. -/
def State.event (s : State) (e : PlatformEvent) : State :=
  match e with
  | .timerCountsTo x => s.draw.2.setDev (s.dev.event (s.draw.1.getLsbD 0) (.timerCountsTo x))
  | e => s.setDev (s.dev.event false e)

/-- Events happen one after the other. -/
def State.events (s : State) : List PlatformEvent → State
  | [] => s
  | e :: es => (s.event e).events es

/-! ### Accesses to a `device` address -/

/-- What the platform does before the next device access (R59, R60). -/
def State.busTick (s : State) : State :=
  match s.busTicks with
  | [] => s
  | es :: rest => ({ s with busTicks := rest }).events es

/-- A device access is recorded (R60). -/
def State.logAccess (s : State) (a : BusAccess) : State := { s with busLog := a :: s.busLog }

/-- The value a device answers to a read of width `w`, or `none` where no source gives it: the
watchdog, a register no source describes, a block that is not there, an access of the wrong width
(R58, R248; 93_implementation_defined.md U19). `free` fills the bits of PxIN that are open. -/
def Devices.value (d : Devices) (free : Word) : Device → Width → Option Word
  | .port i r, .byte => some (((d.port i).read (BitVec.ofNat 8 free.toNat) r).setWidth 16)
  | .tactl, .word => some d.timer.ctl
  | .tacctl x, .word => (elementAt x d.timer.blocks).map TimerBlock.read
  | .port _ _, .word => none
  | .tactl, .byte => none
  | .tacctl _, .byte => none
  | .watchdog, _ => none
  | .other, _ => none

/-- The devices after a write of the right width to a register the sources describe; the watchdog
and other devices hold nothing the model keeps (the write is in the log). -/
def Devices.store (d : Devices) (v : Word) : Device → Devices
  | .port i r  => d.setPort i ((d.port i).write (BitVec.ofNat 8 v.toNat) r)
  | .tactl     => { d with timer := { d.timer with ctl := tactlStored v } }
  | .tacctl x  => { d with timer := d.timer.updateBlock x (fun b => b.write v) }
  | .watchdog  => d
  | .other     => d

/-- The width of a device's register; `none` where no source gives one (R58, R63). -/
def deviceWidth : Device → Option Width
  | .port _ _ => some .byte
  | .tactl    => some .word
  | .tacctl _ => some .word
  | .watchdog => some .word
  | .other    => none

/-- A read of a device (R60): the platform acts, then the register answers or, where no source says
what it answers, a free value does; the access is recorded. -/
def deviceRead (d : Device) (w : Width) (a : Word) (s : State) : Word × State :=
  let s := s.busTick
  let (free, s) := s.draw
  let v := (s.dev.value free d w).getD (w.trunc free)
  (v, s.logAccess ⟨false, a, w, v⟩)

/-- `P_MEMMAP` at an address: the first line that holds it, `none` if there is no such line (R8). -/
def kindOf : List Region → Nat → MemKind
  | [], _ => .unmapped
  | r :: rs, a => if r.first ≤ a ∧ a ≤ r.last then r.kind else kindOf rs a

/-- What the map says of an address (R8, R52). -/
def State.kindAt (s : State) (a : Word) : MemKind := kindOf s.params.memmap a.toNat

/-- A device register takes a free value. -/
def State.openDevice (s : State) (d : Device) : State :=
  s.draw.2.setDev (s.dev.store s.draw.1 d)

/-- A write in a width that is not the register's, or to a device whose width no source gives: every
register the access covers takes a free value. DESIGN CHOICE: R55 and R58 give no rule for it (log
entry 8). -/
def State.wrongWidthWrite (s : State) (d : Device) (w : Width) (a : Word) : State :=
  match w, s.kindAt (a + 1#16) with
  | .word, .device d' => (s.openDevice d).openDevice d'
  | _, _ => s.openDevice d

/-- A write to a device (R60): the platform acts, then the register takes the value if the access has
its width; the access is recorded. -/
def deviceWrite (d : Device) (w : Width) (a v : Word) (s : State) : State :=
  let s := s.busTick
  let s :=
    if deviceWidth d = some w then s.setDev (s.dev.store v d)
    else s.wrongWidthWrite d w a
  s.logAccess ⟨true, a, w, v⟩

end Sys2Proof.Machine
end

