-- ==== Sys2Proof/Machine/Requests.lean ====
section
/-! DEFINITION. Interrupt requests: which sources of `P_IRQ_TABLE` are pending, which of them is
served, the gate of the GIE history, and the clearing of a flag (60_exceptions.md R223 to R232). -/

namespace Sys2Proof

/-- The address of a vector: "Sixteen vectors at 0xFFE0 + 2i, i = 0 to 15" (R231). -/
def vectorAddress (i : VectorSlot) : Word := BitVec.ofNat 16 (0xFFE0 + 2 * i.val)

/-- The address of a source's vector (R231). -/
def IrqSource.vector (q : IrqSource) : Word := vectorAddress q.slot

/-- Whether an interrupt source is pending: its flag and its enable bit are set (R223, R225). -/
def IrqSource.pending (q : IrqSource) (d : Machine.Devices) : Bool :=
  match q.request with
  | .port p         => (d.port p).pending
  | .timerOverflow  => d.timer.taifg && d.timer.taie
  | .capture x _    =>
    match Machine.elementAt x d.timer.blocks with
    | some b => b.ccifg && b.ccie
    | none   => false
  | .line k _       => (d.line k).flag && (d.line k).enable

/-- Whether a source is alone on its vector, so that its flag is cleared at entry: the ports and the
Timer_A overflow are not (R225, R232). -/
def IrqSource.singleSource (q : IrqSource) : Bool :=
  match q.request with
  | .port _            => false
  | .timerOverflow     => false
  | .capture _ single  => single
  | .line _ single     => single

/-- The devices after step 5 of interrupt entry: the flag of a single-source vector is cleared
(R230, R232). -/
def IrqSource.acknowledge (q : IrqSource) (d : Machine.Devices) : Machine.Devices :=
  match q.request with
  | .port _          => d
  | .timerOverflow   => d
  | .capture x true  =>
    { d with timer := d.timer.updateBlock x (fun b => { b with ctl := b.ctl &&& 0xFFFE#16 }) }
  | .capture _ false => d
  | .line k true     => { d with lines := Machine.setLine { d.line k with flag := false } k d.lines }
  | .line _ false    => d

/-- The rank of a source: its priority, or its vector address where the table gives none (R229;
log entry 16). -/
def IrqSource.rank (q : IrqSource) : Nat := q.priority.getD q.vector.toNat

/-- Whether a source goes before another: by rank, then by vector address (log entry 16). -/
def IrqSource.before (q r : IrqSource) : Bool :=
  decide (r.rank < q.rank) || (decide (q.rank = r.rank) && decide (r.vector.toNat < q.vector.toNat))

namespace Machine

/-- The source served first among those that satisfy a test; of equals the one listed first. -/
def highest (wanted : IrqSource → Bool) : List IrqSource → Option IrqSource
  | [] => none
  | q :: qs =>
    match wanted q, highest wanted qs with
    | true, some r  => some (if r.before q then r else q)
    | true, none    => some q
    | false, served => served

/-- The source to be served: a nonmaskable one before any maskable one (R229, R253), a maskable one
only where the gate lets it through. -/
def State.requesting (s : State) (maskableToo : Bool) : Option IrqSource :=
  match highest (fun q => !q.maskable && q.pending s.dev) s.params.irqTable with
  | some q => some q
  | none =>
    if maskableToo then highest (fun q => q.maskable && q.pending s.dev) s.params.irqTable else none

/-- What the interrupt logic does with a pending maskable source (R228). -/
inductive Gate where
  | must
  | may
  | never
  deriving DecidableEq, Repr

/-- `GieGate()` (R228). -/
def gieGate (gie g1 g2 : Bool) : Gate :=
  match gie, g1, g2 with
  | true, true, _       => .must
  | true, false, _      => .never
  | false, true, _      => .may
  | false, false, true  => .may
  | false, false, false => .never

/-- Whether a pending maskable source is accepted at this boundary; the platform chooses where the
gate says `may` (R226). -/
def State.maskableAccepted (s : State) (acceptMay : Bool) : Bool :=
  match gieGate (srGie s.regs.sr) s.g1 s.g2 with
  | .must  => true
  | .may   => acceptMay
  | .never => false

end Machine

end Sys2Proof
end

