-- ==== Sys2Proof/Machine/Ops.lean ====
section
/-! DEFINITION. The named operations over registers and memory, each in one place: register access
(10_state.md R23 to R33), memory access (20_memory.md R52 to R57), instruction fetch (R81), the
stack (R71), taking an interrupt (60_exceptions.md R230) and returning from one (R147). -/

namespace Sys2Proof.Machine

/-! ### Registers -/

/-- The state with another register file. -/
def State.setRegs (s : State) (r : Regs) : State := { s with regs := r }

/-- The state with another PC; bit 0 is dropped (R23). -/
def State.setPc (s : State) (v : Word) : State :=
  s.setRegs { s.regs with pc := v &&& 0xFFFE#16 }

/-- The state with another SP; bit 0 is dropped (R25, D4; log entry 12). -/
def State.setSp (s : State) (v : Word) : State :=
  s.setRegs { s.regs with sp := v &&& 0xFFFE#16 }

/-- What SR stores of a write: bits 15 to 9 by `P_SR_RESERVED` (R27). -/
def srStored (p : SrReserved) (v : Word) : Word :=
  match p with
  | .hardwired0 => v &&& 0x01FF#16
  | .storage    => v

/-- The state with another SR, all of it replaced (R27). -/
def State.setSr (s : State) (v : Word) : State :=
  s.setRegs { s.regs with sr := srStored s.params.srReserved v }

/-- The state with the status bits V, N, Z, C replaced and every other SR bit kept (R120). -/
def State.setFlags (s : State) (f : Flags) : State :=
  s.setRegs { s.regs with sr := withFlags s.regs.sr f }

/-- `R[i]` (R10): R2 is the SR contents, R3 holds no state and reads as 0 where it is read as a
register at all (R33, R102). -/
def State.reg (s : State) : Reg → Word
  | .pc  => s.regs.pc
  | .sp  => s.regs.sp
  | .sr  => s.regs.sr
  | .cg  => 0#16
  | .r4  => s.regs.r4
  | .r5  => s.regs.r5
  | .r6  => s.regs.r6
  | .r7  => s.regs.r7
  | .r8  => s.regs.r8
  | .r9  => s.regs.r9
  | .r10 => s.regs.r10
  | .r11 => s.regs.r11
  | .r12 => s.regs.r12
  | .r13 => s.regs.r13
  | .r14 => s.regs.r14
  | .r15 => s.regs.r15

/-- `R[i] <- v` (R10): PC and SP drop bit 0, SR is replaced whole, a write to R3 is discarded
(R23, R25, R27, R33). -/
def State.setReg (s : State) (r : Reg) (v : Word) : State :=
  match r with
  | .pc  => s.setPc v
  | .sp  => s.setSp v
  | .sr  => s.setSr v
  | .cg  => s
  | .r4  => s.setRegs { s.regs with r4 := v }
  | .r5  => s.setRegs { s.regs with r5 := v }
  | .r6  => s.setRegs { s.regs with r6 := v }
  | .r7  => s.setRegs { s.regs with r7 := v }
  | .r8  => s.setRegs { s.regs with r8 := v }
  | .r9  => s.setRegs { s.regs with r9 := v }
  | .r10 => s.setRegs { s.regs with r10 := v }
  | .r11 => s.setRegs { s.regs with r11 := v }
  | .r12 => s.setRegs { s.regs with r12 := v }
  | .r13 => s.setRegs { s.regs with r13 := v }
  | .r14 => s.setRegs { s.regs with r14 := v }
  | .r15 => s.setRegs { s.regs with r15 := v }

/-- The state with another GIE history (R228). -/
def State.setHistory (s : State) (g1 g2 : Bool) : State := { s with g1 := g1, g2 := g2 }

/-- The state with more MCLK cycles executed (R276). -/
def State.addCycles (s : State) (n : Nat) : State := { s with cycles := s.cycles + n }

/-! ### Memory -/

/-- The state with other memory contents. -/
def State.setMem (s : State) (m : Memory) : State := { s with mem := m }

/-- The byte RAM or ROM holds at an address. -/
def State.byteAt (s : State) (a : Word) : Byte := s.mem.read a.toNat

/-- The address of a word access: an odd one faults or loses bit 0, by `P_MISALIGNED` (R56). The
check comes before the map lookup (R222). -/
def wordAddress (s : State) (a : Word) : Except Fault Word :=
  if a.getLsbD 0 then
    match s.params.misaligned with
    | .fault      => .error (.misalignedAccess a s)
    | .ignoreBit0 => .ok (a &&& 0xFFFE#16)
  else .ok a

/-- `MemRead(addr, 1)` (R52). -/
def readByte (a : Word) (s : State) : Except Fault (Byte × State) :=
  match s.kindAt a with
  | .ram      => .ok (s.byteAt a, s)
  | .rom      => .ok (s.byteAt a, s)
  | .device d => .ok (BitVec.ofNat 8 (deviceRead d .byte a s).1.toNat, (deviceRead d .byte a s).2)
  | .unmapped => .error (.unmappedAccess a s)

/-- Whether the map admits a read of a byte: what it answers to one of an unpopulated address
(R52). -/
def admitRead (a : Word) (s : State) : Except Fault Unit :=
  match s.kindAt a with
  | .ram      => .ok ()
  | .rom      => .ok ()
  | .device _ => .ok ()
  | .unmapped => .error (.unmappedAccess a s)

/-- `MemRead(addr, 2)` at an address `wordAddress` has passed (R53). Where a device holds both bytes
it is asked once for a word; otherwise the two bytes are read, the low one first. It is "one access":
where the map admits one byte only, neither is read (DEDUCED, log entry 31). -/
def readWord (a : Word) (s : State) : Except Fault (Word × State) :=
  match s.kindAt a, s.kindAt (a + 1#16) with
  | .device d, .device _ => .ok (deviceRead d .word a s)
  | _, _ => do
    admitRead a s
    admitRead (a + 1#16) s
    let (lo, s) ← readByte a s
    let (hi, s) ← readByte (a + 1#16) s
    return (wordOfBytes lo hi, s)

/-- `MemRead(addr, k)` (R52, R53, R56). A byte comes zero-extended. -/
def memRead (w : Width) (a : Word) (s : State) : Except Fault (Word × State) :=
  match w with
  | .byte => do
    let (b, s) ← readByte a s
    return (b.setWidth 16, s)
  | .word => do
    let a ← wordAddress s a
    readWord a s

/-- Whether the map admits a write of a byte: what it answers to one of ROM or of an unpopulated
address (R54). -/
def admitWrite (a : Word) (s : State) : Except Fault Unit :=
  match s.kindAt a with
  | .ram      => .ok ()
  | .rom      => .error (.writeToReadOnly a s)
  | .device _ => .ok ()
  | .unmapped => .error (.unmappedAccess a s)

/-- `MemWrite(addr, 1, v)` (R54). -/
def writeByte (a : Word) (b : Byte) (s : State) : Except Fault State :=
  match s.kindAt a with
  | .ram      => .ok (s.setMem (s.mem.write a.toNat b))
  | .rom      => .error (.writeToReadOnly a s)
  | .device d => .ok (deviceWrite d .byte a (b.setWidth 16) s)
  | .unmapped => .error (.unmappedAccess a s)

/-- `MemWrite(addr, 2, v)` at an address `wordAddress` has passed (R55). Where a device holds both
bytes it is handed the word once; otherwise `v[7:0]` is stored at the address and `v[15:8]` at the
next, each in what the map has there. It is "one access": where the map admits one byte only, neither
is stored (DEDUCED, log entry 31). -/
def writeWord (a v : Word) (s : State) : Except Fault State :=
  match s.kindAt a, s.kindAt (a + 1#16) with
  | .device d, .device _ => .ok (deviceWrite d .word a v s)
  | _, _ => do
    admitWrite a s
    admitWrite (a + 1#16) s
    let s ← writeByte a (lowByte v) s
    writeByte (a + 1#16) (highByte v) s

/-- `MemWrite(addr, k, v)` (R54, R55, R56). A byte write stores `v[7:0]`. -/
def memWrite (w : Width) (a v : Word) (s : State) : Except Fault State :=
  match w with
  | .byte => writeByte a (lowByte v) s
  | .word => do
    let a ← wordAddress s a
    writeWord a v s

/-- `FetchWord()` (R81): the word at PC, and PC two further. -/
def fetchWord (s : State) : Except Fault (Word × State) := do
  let (iw, t) ← memRead .word s.regs.pc s
  return (iw, t.setPc (s.regs.pc + 2#16))

/-! ### The stack -/

/-- A push of a width: SP down by 2 whatever the width, then the store at the new SP (R71, R145). -/
def push (w : Width) (v : Word) (s : State) : Except Fault State :=
  let s := s.setSp (s.regs.sp - 2#16)
  memWrite w s.regs.sp v s

/-- A pop of a word: the load at SP, then SP up by 2 (R71). -/
def pop (s : State) : Except Fault (Word × State) := do
  let (v, t) ← memRead .word s.regs.sp s
  return (v, t.setSp (s.regs.sp + 2#16))

/-! ### Taking an interrupt, and returning from one -/

/-- `InterruptEntry()` (R230). `served` is the source that made the CPU accept; the source of
highest priority is selected after the two pushes (step 4), from those requesting then, and is
`served` where the pushes themselves ended every request. -/
def interruptEntry (served : IrqSource) (maskableToo : Bool) (s : State) : Except Fault State := do
  let s ← push .word s.regs.pc s
  let s ← push .word s.regs.sr s
  let q := (s.requesting maskableToo).getD served
  let s := (s.setDev (q.acknowledge s.dev)).setSr 0#16
  let (vector, s) ← memRead .word q.vector s
  return (s.setPc vector).setHistory false false

/-- The return from an interrupt (R147): SR and PC are popped, then written. -/
def returnFromInterrupt (s : State) : Except Fault State := do
  let (sr, s) ← pop s
  let (pc, s) ← pop s
  return (s.setSr sr).setPc pc

/-! ### Outcomes -/

/-- The outcome of an operation that ends in a state or a model-level fault (R222). -/
def toOutcome : Except Fault State → Host.Outcome State Fault Refusal
  | .ok s    => .next s
  | .error f => .fault f

end Sys2Proof.Machine
end

