-- ==== Sys2Proof/Machine/Operands.lean ====
section
/-! DEFINITION. Operand access, every form (30_encoding.md R88 to R103), and the three frames an
instruction with operands runs in (40_double_operand.md R120, R123; 41_single_operand.md R140). -/

namespace Sys2Proof.Machine

/-- A place an instruction writes its result to (R91). -/
inductive Loc where
  | reg (r : Reg)
  | mem (a : Word)
  deriving DecidableEq, Repr

/-- A constant of the constant generators (R33). -/
def constValue : Const → Word
  | .zero     => 0x0000#16
  | .one      => 0x0001#16
  | .two      => 0x0002#16
  | .minusOne => 0xFFFF#16
  | .four     => 0x0004#16
  | .eight    => 0x0008#16

/-- `inc(s, bw)` (R92): 1 for a byte instruction, 2 for a word instruction, always 2 for SP and PC. -/
def autoIncrement (w : Width) : Reg → Word
  | .sp => 2#16
  | .pc => 2#16
  | _   => match w with
    | .word => 2#16
    | .byte => 1#16

/-- The address of an indexed operand (R90, R91): the base, taken before the extension word is
fetched, plus that word. -/
def indexedAddress (base : Word) (s : State) : Except Fault (Word × State) := do
  let (x, s) ← fetchWord s
  return (base + x, s)

/-- The state after an autoincrement (R92). -/
def stepRegister (w : Width) (r : Reg) (s : State) : State :=
  s.setReg r (s.reg r + autoIncrement w r)

/-- `ReadSrc(As, s, bw)` (R90): the operand, truncated to the width, and the state after the side
effects. An immediate is fetched as a word by byte instructions too (R58). -/
def readSrc (w : Width) (src : Src) (s : State) : Except Fault (Word × State) :=
  match src with
  | .reg r      => .ok (w.trunc (s.reg r), s)
  | .indexed r  => do
    let (ea, s) ← indexedAddress (s.reg r) s
    memRead w ea s
  | .symbolic   => do
    let (ea, s) ← indexedAddress s.regs.pc s
    memRead w ea s
  | .absolute   => do
    let (ea, s) ← indexedAddress 0#16 s
    memRead w ea s
  | .indirect r => memRead w (s.reg r) s
  | .autoinc r  => do
    let (v, s) ← memRead w (s.reg r) s
    return (v, stepRegister w r s)
  | .immediate  => do
    let (v, s) ← fetchWord s
    return (w.trunc v, s)
  | .const c    => .ok (w.trunc (constValue c), s)

/-- `DstLoc(Ad, d)` (R91). `bad` is the fault of the form no source lists (R102). -/
def dstLoc (bad : Fault) (dst : Dst) (s : State) : Except Fault (Loc × State) :=
  match dst with
  | .reg r     => .ok (.reg r, s)
  | .indexed r => do
    let (ea, s) ← indexedAddress (s.reg r) s
    return (.mem ea, s)
  | .symbolic  => do
    let (ea, s) ← indexedAddress s.regs.pc s
    return (.mem ea, s)
  | .absolute  => do
    let (ea, s) ← indexedAddress 0#16 s
    return (.mem ea, s)
  | .unlisted  => .error bad

/-- `OperandLoc(As, g, bw)` (R140): the place of the operand of RRC, SWPB, RRA and SXT. The
autoincrement is applied before the operand is read; the place is the address before it. -/
def operandLoc (bad : Fault) (w : Width) (opd : Src) (s : State) : Except Fault (Loc × State) :=
  match opd with
  | .reg r      => .ok (.reg r, s)
  | .indexed r  => do
    let (ea, s) ← indexedAddress (s.reg r) s
    return (.mem ea, s)
  | .symbolic   => do
    let (ea, s) ← indexedAddress s.regs.pc s
    return (.mem ea, s)
  | .absolute   => do
    let (ea, s) ← indexedAddress 0#16 s
    return (.mem ea, s)
  | .indirect r => .ok (.mem (s.reg r), s)
  | .autoinc r  => .ok (.mem (s.reg r), stepRegister w r s)
  | .immediate  => .error bad
  | .const _    => .error bad

/-- `ReadDst(loc, bw)` (R91). -/
def readLoc (w : Width) (loc : Loc) (s : State) : Except Fault (Word × State) :=
  match loc with
  | .reg r => .ok (w.trunc (s.reg r), s)
  | .mem a => memRead w a s

/-- `WriteDst(loc, bw, r)` (R91): a byte result clears a register's bits 15:8 (R37). -/
def writeLoc (w : Width) (loc : Loc) (v : Word) (s : State) : Except Fault State :=
  match loc with
  | .reg r => .ok (s.setReg r (w.trunc v))
  | .mem a => memWrite w a v s

/-- The flags are written before the result is stored, so that a result stored to SR prevails
(R27, R120). -/
def applyEffect (w : Width) (loc : Loc) (e : Effect) (s : State) : Except Fault State :=
  let s := match e.flags with
    | some f => s.setFlags f
    | none   => s
  match e.result with
  | some r => writeLoc w loc r s
  | none   => .ok s

/-- The fault of an operand combination no source defines, `s` being the state in which the
instruction word has been fetched: it names the word's address and the word (R222), and holds the
state with PC back at the word, "as before the instruction" (92_eei_decisions.md D11). -/
def unpredictableAt (i : Instr) (s : State) : Fault :=
  .unpredictable (s.regs.pc - 2#16) (encode i) (s.setPc (s.regs.pc - 2#16))

/-- R102: whether a destination form is defined for an instruction that reads its destination. -/
def dstDefined (p : R3Destination) : Dst → Bool
  | .unlisted => false
  | .reg .cg  => decide (p = .readsZero)
  | _         => true

/-- The frame of the Format I instructions that read their destination (R120). `f` computes from
the source, the destination and the SR. -/
def twoOperand (bad : Fault) (w : Width) (src : Src) (dst : Dst) (f : Word → Word → Word → Effect)
    (s : State) : Except Fault State :=
  if dstDefined s.params.r3Dst dst then do
    let (a, s) ← readSrc w src s
    let (loc, s) ← dstLoc bad dst s
    let (b, s) ← readLoc w loc s
    applyEffect w loc (f s.regs.sr a b) s
  else .error bad

/-- MOV's frame: no read of the destination (R123, D26). -/
def moveOperand (bad : Fault) (w : Width) (src : Src) (dst : Dst) (s : State) :
    Except Fault State :=
  if dst = .unlisted then .error bad
  else do
    let (a, s) ← readSrc w src s
    let (loc, s) ← dstLoc bad dst s
    writeLoc w loc a s

/-- The frame of RRC, SWPB, RRA and SXT (R140). `f` computes from the operand and the SR. -/
def oneOperand (bad : Fault) (w : Width) (opd : Src) (f : Word → Word → Effect) (s : State) :
    Except Fault State := do
  let (loc, s) ← operandLoc bad w opd s
  let (v, s) ← readLoc w loc s
  applyEffect w loc (f s.regs.sr v) s

end Sys2Proof.Machine
end

