-- ==== Sys2Proof/Machine/DoubleOperand.lean ====
section
/-! DEFINITION. The twelve Format I instructions (40_double_operand.md R123 to R134): one meaning
each, over the frames of Machine/Operands.lean and the computations of Machine/Flags.lean. -/

namespace Sys2Proof.Machine

/-- MOV (R123): `src -> dst`; the destination is not read, no status bit changes. -/
def execMov (w : Width) (src : Src) (dst : Dst) (s : State) : Host.Outcome State Fault Refusal :=
  toOutcome (moveOperand (unpredictableAt (.mov w src dst) s) w src dst s)

/-- ADD (R124): `src + dst -> dst`. -/
def execAdd (w : Width) (src : Src) (dst : Dst) (s : State) : Host.Outcome State Fault Refusal :=
  toOutcome (twoOperand (unpredictableAt (.add w src dst) s) w src dst
    (fun _ a b => addEffect w a b) s)

/-- ADDC (R125): `src + dst + C -> dst`. -/
def execAddc (w : Width) (src : Src) (dst : Dst) (s : State) : Host.Outcome State Fault Refusal :=
  toOutcome (twoOperand (unpredictableAt (.addc w src dst) s) w src dst
    (fun sr a b => addcEffect w (srC sr) a b) s)

/-- SUBC (R126): `dst + .NOT.src + C -> dst`. -/
def execSubc (w : Width) (src : Src) (dst : Dst) (s : State) : Host.Outcome State Fault Refusal :=
  toOutcome (twoOperand (unpredictableAt (.subc w src dst) s) w src dst
    (fun sr a b => subcEffect w (srC sr) a b) s)

/-- SUB (R127): `dst + .NOT.src + 1 -> dst`. -/
def execSub (w : Width) (src : Src) (dst : Dst) (s : State) : Host.Outcome State Fault Refusal :=
  toOutcome (twoOperand (unpredictableAt (.sub w src dst) s) w src dst
    (fun _ a b => subEffect w a b) s)

/-- CMP (R128): `dst + .NOT.src + 1, status bits only`. -/
def execCmp (w : Width) (src : Src) (dst : Dst) (s : State) : Host.Outcome State Fault Refusal :=
  toOutcome (twoOperand (unpredictableAt (.cmp w src dst) s) w src dst
    (fun _ a b => cmpEffect w a b) s)

/-- DADD (R129): `src + dst + C -> dst (decimally)`. Two free values are drawn, for V and for what
non-BCD operands leave open (log entry 1). -/
def execDadd (w : Width) (src : Src) (dst : Dst) (s : State) : Host.Outcome State Fault Refusal :=
  let open1 := s.draw.1
  let open2 := s.draw.2.draw.1
  toOutcome (twoOperand (unpredictableAt (.dadd w src dst) s) w src dst
    (fun sr a b => daddEffect w (srC sr) open1 open2 a b) s.draw.2.draw.2)

/-- BIT (R130): `src .AND. dst, status bits only`. -/
def execBit (w : Width) (src : Src) (dst : Dst) (s : State) : Host.Outcome State Fault Refusal :=
  toOutcome (twoOperand (unpredictableAt (.bit w src dst) s) w src dst
    (fun _ a b => bitEffect w a b) s)

/-- BIC (R131): `.NOT.src .AND. dst -> dst, no status bit`. -/
def execBic (w : Width) (src : Src) (dst : Dst) (s : State) : Host.Outcome State Fault Refusal :=
  toOutcome (twoOperand (unpredictableAt (.bic w src dst) s) w src dst
    (fun _ a b => bicEffect w a b) s)

/-- BIS (R132): `src .OR. dst -> dst, no status bit`. -/
def execBis (w : Width) (src : Src) (dst : Dst) (s : State) : Host.Outcome State Fault Refusal :=
  toOutcome (twoOperand (unpredictableAt (.bis w src dst) s) w src dst
    (fun _ a b => bisEffect a b) s)

/-- XOR (R133): `src .XOR. dst -> dst`. -/
def execXor (w : Width) (src : Src) (dst : Dst) (s : State) : Host.Outcome State Fault Refusal :=
  toOutcome (twoOperand (unpredictableAt (.xor w src dst) s) w src dst
    (fun _ a b => xorEffect w a b) s)

/-- AND (R134): `src .AND. dst -> dst`. -/
def execAnd (w : Width) (src : Src) (dst : Dst) (s : State) : Host.Outcome State Fault Refusal :=
  toOutcome (twoOperand (unpredictableAt (.and w src dst) s) w src dst
    (fun _ a b => andEffect w a b) s)

end Sys2Proof.Machine
end

