-- ==== Sys2Proof/Machine/Emulated.lean ====
section
/-! DEFINITION. The 24 emulated instructions: "their behaviour *is* the core rule they expand to"
(43_emulated.md R180 to R204). -/

namespace Sys2Proof.Machine

/-- ADC (R181): `ADDC #0,dst`. -/
def execAdc (w : Width) (dst : Dst) (s : State) : Host.Outcome State Fault Refusal :=
  execAddc w (.const .zero) dst s

/-- BR (R182): `MOV dst,PC`. -/
def execBr (src : Src) (s : State) : Host.Outcome State Fault Refusal :=
  execMov .word src (.reg .pc) s

/-- CLR (R183): `MOV #0,dst`. -/
def execClr (w : Width) (dst : Dst) (s : State) : Host.Outcome State Fault Refusal :=
  execMov w (.const .zero) dst s

/-- CLRC (R184): `BIC #1,SR`. -/
def execClrc (s : State) : Host.Outcome State Fault Refusal :=
  execBic .word (.const .one) (.reg .sr) s

/-- CLRN (R185): `BIC #4,SR`. -/
def execClrn (s : State) : Host.Outcome State Fault Refusal :=
  execBic .word (.const .four) (.reg .sr) s

/-- CLRZ (R186): `BIC #2,SR`. -/
def execClrz (s : State) : Host.Outcome State Fault Refusal :=
  execBic .word (.const .two) (.reg .sr) s

/-- DADC (R187): `DADD #0,dst`. -/
def execDadc (w : Width) (dst : Dst) (s : State) : Host.Outcome State Fault Refusal :=
  execDadd w (.const .zero) dst s

/-- DEC (R188): `SUB #1,dst`. -/
def execDec (w : Width) (dst : Dst) (s : State) : Host.Outcome State Fault Refusal :=
  execSub w (.const .one) dst s

/-- DECD (R189): `SUB #2,dst`. -/
def execDecd (w : Width) (dst : Dst) (s : State) : Host.Outcome State Fault Refusal :=
  execSub w (.const .two) dst s

/-- DINT (R190): `BIC #8,SR`. -/
def execDint (s : State) : Host.Outcome State Fault Refusal :=
  execBic .word (.const .eight) (.reg .sr) s

/-- EINT (R191): `BIS #8,SR`. -/
def execEint (s : State) : Host.Outcome State Fault Refusal :=
  execBis .word (.const .eight) (.reg .sr) s

/-- INC (R192): `ADD #1,dst`. -/
def execInc (w : Width) (dst : Dst) (s : State) : Host.Outcome State Fault Refusal :=
  execAdd w (.const .one) dst s

/-- INCD (R193): `ADD #2,dst`. -/
def execIncd (w : Width) (dst : Dst) (s : State) : Host.Outcome State Fault Refusal :=
  execAdd w (.const .two) dst s

/-- INV (R194): `XOR #-1,dst`. -/
def execInv (w : Width) (dst : Dst) (s : State) : Host.Outcome State Fault Refusal :=
  execXor w (.const .minusOne) dst s

/-- NOP (R195): `MOV #0,R3`. -/
def execNop (s : State) : Host.Outcome State Fault Refusal :=
  execMov .word (.const .zero) (.reg .cg) s

/-- POP (R196): `MOV @SP+,dst`. -/
def execPop (w : Width) (dst : Dst) (s : State) : Host.Outcome State Fault Refusal :=
  execMov w (.autoinc .sp) dst s

/-- RET (R197): `MOV @SP+,PC`. -/
def execRet (s : State) : Host.Outcome State Fault Refusal :=
  execMov .word (.autoinc .sp) (.reg .pc) s

/-- RLA (R198): `ADD dst,dst`. -/
def execRla (w : Width) (dst : Dst) (s : State) : Host.Outcome State Fault Refusal :=
  execAdd w dst.asSrc dst s

/-- RLC (R199): `ADDC dst,dst`. -/
def execRlc (w : Width) (dst : Dst) (s : State) : Host.Outcome State Fault Refusal :=
  execAddc w dst.asSrc dst s

/-- SBC (R200): `SUBC #0,dst`. -/
def execSbc (w : Width) (dst : Dst) (s : State) : Host.Outcome State Fault Refusal :=
  execSubc w (.const .zero) dst s

/-- SETC (R201): `BIS #1,SR`. -/
def execSetc (s : State) : Host.Outcome State Fault Refusal :=
  execBis .word (.const .one) (.reg .sr) s

/-- SETN (R202): `BIS #4,SR`. -/
def execSetn (s : State) : Host.Outcome State Fault Refusal :=
  execBis .word (.const .four) (.reg .sr) s

/-- SETZ (R203): `BIS #2,SR`. -/
def execSetz (s : State) : Host.Outcome State Fault Refusal :=
  execBis .word (.const .two) (.reg .sr) s

/-- TST (R204): `CMP #0,dst`. -/
def execTst (w : Width) (dst : Dst) (s : State) : Host.Outcome State Fault Refusal :=
  execCmp w (.const .zero) dst s

end Sys2Proof.Machine
end

