-- ==== Sys2Proof/Machine/Jumps.lean ====
section
/-! DEFINITION. The eight jumps (42_jumps.md R160 to R168). -/

namespace Sys2Proof.Machine

/-- The frame of R160: PC already points past the jump; a taken jump adds twice the sign-extended
offset (R95). -/
def jumpIf (taken : Bool) (off : BitVec 10) (s : State) : State :=
  if taken then s.setPc (s.regs.pc + 2#16 * off.signExtend 16) else s

/-- JNE (R161): taken if Z = 0. -/
def execJne (off : BitVec 10) (s : State) : Host.Outcome State Fault Refusal :=
  .next (jumpIf (!srZ s.regs.sr) off s)

/-- JEQ (R162): taken if Z = 1. -/
def execJeq (off : BitVec 10) (s : State) : Host.Outcome State Fault Refusal :=
  .next (jumpIf (srZ s.regs.sr) off s)

/-- JNC (R163): taken if C = 0. -/
def execJnc (off : BitVec 10) (s : State) : Host.Outcome State Fault Refusal :=
  .next (jumpIf (!srC s.regs.sr) off s)

/-- JC (R164): taken if C = 1. -/
def execJc (off : BitVec 10) (s : State) : Host.Outcome State Fault Refusal :=
  .next (jumpIf (srC s.regs.sr) off s)

/-- JN (R165): taken if N = 1. -/
def execJn (off : BitVec 10) (s : State) : Host.Outcome State Fault Refusal :=
  .next (jumpIf (srN s.regs.sr) off s)

/-- JGE (R166): taken if N = V. -/
def execJge (off : BitVec 10) (s : State) : Host.Outcome State Fault Refusal :=
  .next (jumpIf (srN s.regs.sr == srV s.regs.sr) off s)

/-- JL (R167): taken if N is not V. -/
def execJl (off : BitVec 10) (s : State) : Host.Outcome State Fault Refusal :=
  .next (jumpIf (srN s.regs.sr != srV s.regs.sr) off s)

/-- JMP (R168): always taken. -/
def execJmp (off : BitVec 10) (s : State) : Host.Outcome State Fault Refusal :=
  .next (jumpIf true off s)

end Sys2Proof.Machine
end

