-- ==== Sys2Proof/Machine/SingleOperand.lean ====
section
/-! DEFINITION. The seven Format II instructions (41_single_operand.md R141 to R147). -/

namespace Sys2Proof.Machine

/-- RRC (R141): right through the carry. -/
def execRrc (w : Width) (opd : Src) (s : State) : Host.Outcome State Fault Refusal :=
  toOutcome (oneOperand (unpredictableAt (.rrc w opd) s) w opd
    (fun sr v => rrcEffect w s.params.rrcV (srC sr) v) s)

/-- SWPB (R142): the bytes of a word exchanged, no status bit. -/
def execSwpb (opd : Src) (s : State) : Host.Outcome State Fault Refusal :=
  toOutcome (oneOperand (unpredictableAt (.swpb opd) s) .word opd (fun _ v => swpbEffect v) s)

/-- RRA (R143): right, the sign kept. -/
def execRra (w : Width) (opd : Src) (s : State) : Host.Outcome State Fault Refusal :=
  toOutcome (oneOperand (unpredictableAt (.rra w opd) s) w opd (fun _ v => rraEffect w v) s)

/-- SXT (R144): the low byte's sign extended into the high byte. -/
def execSxt (opd : Src) (s : State) : Host.Outcome State Fault Refusal :=
  toOutcome (oneOperand (unpredictableAt (.sxt opd) s) .word opd (fun _ v => sxtEffect v) s)

/-- PUSH (R145): the operand is evaluated, then pushed; `PUSH SP` is unpredictable. -/
def execPush (w : Width) (opd : Src) (s : State) : Host.Outcome State Fault Refusal :=
  toOutcome
    (if opd = .reg .sp then .error (unpredictableAt (.push w opd) s)
    else do
      let (v, s) ← readSrc w opd s
      push w v s)

/-- CALL (R146): the operand is evaluated, the address of the following instruction pushed, and the
operand becomes the PC. -/
def execCall (opd : Src) (s : State) : Host.Outcome State Fault Refusal :=
  toOutcome (do
    let (target, s) ← readSrc .word opd s
    let s ← push .word s.regs.pc s
    return s.setPc target)

/-- RETI (R147). -/
def execReti (s : State) : Host.Outcome State Fault Refusal :=
  toOutcome (returnFromInterrupt s)

end Sys2Proof.Machine
end

