-- ==== Sys2Proof/Machine/Timing.lean ====
section
/-! DEFINITION. MCLK cycles (70_reset_and_hazards.md R276 to R281). Nothing but the cycle counter of
the state depends on them (R283). -/

namespace Sys2Proof

/-- The rows of Tables 3-15 and 3-16: a constant of the constant generators counts as a register
(R276). -/
inductive CycleRow where
  /-- `Rn` -/
  | register
  /-- `@Rn` -/
  | indirect
  /-- `@Rn+` -/
  | autoinc
  /-- `#N` -/
  | immediate
  /-- `X(Rn)`, `EDE`, `&EDE` -/
  | indexed
  deriving DecidableEq, Repr

/-- The row of a source form. -/
def Src.cycleRow : Src → CycleRow
  | .reg _      => .register
  | .const _    => .register
  | .indirect _ => .indirect
  | .autoinc _  => .autoinc
  | .immediate  => .immediate
  | .indexed _  => .indexed
  | .symbolic   => .indexed
  | .absolute   => .indexed

/-- The columns of Table 3-16. -/
inductive CycleColumn where
  /-- `Rm` -/
  | register
  /-- PC as a register-mode destination -/
  | pc
  /-- `x(Rm)`, `EDE`, `&EDE` -/
  | memory
  deriving DecidableEq, Repr

/-- The column of a destination form. -/
def Dst.cycleColumn : Dst → CycleColumn
  | .reg .pc   => .pc
  | .reg _     => .register
  | .indexed _ => .memory
  | .symbolic  => .memory
  | .absolute  => .memory
  | .unlisted  => .memory

/-- Table 3-16 (R280). -/
def formatICycles (src : Src) (dst : Dst) : Nat :=
  match src.cycleRow, dst.cycleColumn with
  | .register,  .register => 1
  | .register,  .pc       => 2
  | .register,  .memory   => 4
  | .indirect,  .register => 2
  | .indirect,  .pc       => 2
  | .indirect,  .memory   => 5
  | .autoinc,   .register => 2
  | .autoinc,   .pc       => 3
  | .autoinc,   .memory   => 5
  | .immediate, .register => 2
  | .immediate, .pc       => 3
  | .immediate, .memory   => 5
  | .indexed,   .register => 3
  | .indexed,   .pc       => 3
  | .indexed,   .memory   => 6

/-- Table 3-15, column "RRA, RRC, SWPB, SXT" (R278). An immediate is not allowed and never
completes. -/
def shiftCycles (opd : Src) : Nat :=
  match opd.cycleRow with
  | .register  => 1
  | .indirect  => 3
  | .autoinc   => 3
  | .immediate => 0
  | .indexed   => 4

/-- Table 3-15, column "PUSH" (R278). -/
def pushCycles (opd : Src) : Nat :=
  match opd.cycleRow with
  | .register  => 3
  | .indirect  => 4
  | .autoinc   => 5
  | .immediate => 4
  | .indexed   => 5

/-- Table 3-15, column "CALL" (R278). -/
def callCycles (opd : Src) : Nat :=
  match opd.cycleRow with
  | .register  => 4
  | .indirect  => 4
  | .autoinc   => 5
  | .immediate => 5
  | .indexed   => 5

/-- The cycles of a jump (R279). -/
def jumpCycles : Nat := 2

/-- "Return from interrupt (RETI)" (R277). -/
def retiCycles : Nat := 5

/-- "Interrupt accepted" (R277). -/
def interruptCycles : Nat := 6

/-- "WDT reset", "Reset (RST/NMI)" (R277). -/
def resetCycles : Nat := 4

/-- The cycles of an instruction; an emulated one costs what its core form costs (R281),
so that the rows of the emulated ones are never reached. -/
def Instr.cycles (i : Instr) : Nat :=
  match i.core with
  | .mov _ s d  => formatICycles s d
  | .add _ s d  => formatICycles s d
  | .addc _ s d => formatICycles s d
  | .subc _ s d => formatICycles s d
  | .sub _ s d  => formatICycles s d
  | .cmp _ s d  => formatICycles s d
  | .dadd _ s d => formatICycles s d
  | .bit _ s d  => formatICycles s d
  | .bic _ s d  => formatICycles s d
  | .bis _ s d  => formatICycles s d
  | .xor _ s d  => formatICycles s d
  | .and _ s d  => formatICycles s d
  | .rrc _ o    => shiftCycles o
  | .swpb o     => shiftCycles o
  | .rra _ o    => shiftCycles o
  | .sxt o      => shiftCycles o
  | .push _ o   => pushCycles o
  | .call o     => callCycles o
  | .reti       => retiCycles
  | .jne _ | .jeq _ | .jnc _ | .jc _ | .jn _ | .jge _ | .jl _ | .jmp _ => jumpCycles
  | .adc _ _ | .br _ | .clr _ _ | .clrc | .clrn | .clrz | .dadc _ _ | .dec _ _ | .decd _ _ => 0
  | .dint | .eint | .inc _ _ | .incd _ _ | .inv _ _ | .nop | .pop _ _ | .ret => 0
  | .rla _ _ | .rlc _ _ | .sbc _ _ | .setc | .setn | .setz | .tst _ _ => 0

end Sys2Proof
end

