-- ==== Sys2Proof/Machine/Cycle.lean ====
section
/-! DEFINITION. One step of the machine: the platform's turn at the instruction boundary, then a
reset, an interrupt entry, an idle step or one instruction (60_exceptions.md R226 to R240;
70_reset_and_hazards.md R260 to R264). -/

namespace Sys2Proof.Machine

/-! ### Reset -/

/-- A free value for a register a reset leaves unspecified (R263). -/
def State.freeReg (r : Reg) (s : State) : State := s.draw.2.setReg r s.draw.1

/-- The registers a reset leaves unspecified: SP and R4 to R15 (R263). -/
def unspecifiedRegs : List Reg :=
  [.sp, .r4, .r5, .r6, .r7, .r8, .r9, .r10, .r11, .r12, .r13, .r14, .r15]

/-- Every register of a list takes a free value. -/
def State.freeRegs : List Reg → State → State
  | [], s => s
  | r :: rs, s => State.freeRegs rs (s.freeReg r)

/-- The peripheral registers that a reset clears (R264); port P2 like port P1 is DESIGN CHOICE (log
entry 37). -/
def Devices.puc (d : Devices) : Devices :=
  { d with p1 := d.p1.puc, p2 := d.p2.puc, timer := d.timer.puc }

/-- `Reset()` (R260 to R264): PC from the reset vector, SR cleared, the GIE history cleared, SP and
R4 to R15 unspecified, the peripheral registers as R264 lists them, memory kept. R260 to R264 give
these effects no order. DESIGN CHOICE (log entry 27): the vector is read first, from the peripherals as
they stand; a read that faults leaves the rest undone, and the fault holds the state not cleared. -/
def resetOp (s : State) : Except Fault State := do
  let (start, s) ← memRead .word (vectorAddress s.params.resetVector) s
  let s := ((s.setPc start).setSr 0#16).setHistory false false
  let s := State.freeRegs unspecifiedRegs s
  return (s.setDev s.dev.puc).addCycles resetCycles

/-! ### Idling -/

/-- `IdleStep()` (R240): the GIE history moves on, nothing else does. -/
def idleStep (s : State) : State := s.setHistory (srGie s.regs.sr) s.g1

/-! ### One instruction -/

/-- The GIE history after an instruction (R228); `old` is GIE before it, `s` the state after. -/
def historyAfter (i : Instr) (old : Bool) (s : State) : State :=
  match i with
  | .reti => s.setHistory (srGie s.regs.sr) (srGie s.regs.sr)
  | _     => s.setHistory old s.g1

/-- What the step adds after an instruction has executed: the history and the cycles. -/
def finish (i : Instr) (old : Bool) (s : State) : State :=
  (historyAfter i old s).addCycles i.cycles

/-- The outcome with its next state changed. -/
def mapNext (f : State → State) :
    Host.Outcome State Fault Refusal → Host.Outcome State Fault Refusal
  | .next s    => .next (f s)
  | .fault e   => .fault e
  | .refused r => .refused r

/-- The outcome of an instruction that began in `s`: where its operand combination stops it, "PC and
all state are as before the instruction" (92_eei_decisions.md D11), the fetch of its word undone. An
access fault keeps what the instruction had done (R222). -/
def decodeFaultHolds (s : State) :
    Host.Outcome State Fault Refusal → Host.Outcome State Fault Refusal
  | .fault (.unpredictable a iw _) => .fault (.unpredictable a iw s)
  | o => o

/-- One instruction (R81, R82): fetch at PC, decode, execute. The fault of a word with no assigned
instruction holds the state before the fetch (92_eei_decisions.md D11). -/
def executeOne (s : State) : Host.Outcome State Fault Refusal :=
  match fetchWord s with
  | .error e => .fault e
  | .ok (iw, t) =>
    match decode iw with
    | .error _ => .fault (.illegalInstruction s.regs.pc iw s)
    | .ok i => decodeFaultHolds s (mapNext (finish i (srGie s.regs.sr)) (exec i t))

/-! ### The step -/

/-- Interrupt entry as a step (R230, R277). -/
def enterStep (q : IrqSource) (maskableToo : Bool) (s : State) : Host.Outcome State Fault Refusal :=
  mapNext (fun t => t.addCycles interruptCycles) (toOutcome (interruptEntry q maskableToo s))

/-- `Step()` at a boundary where the platform has had its turn (R226). -/
def boundary (resetRequested acceptMay : Bool) (s : State) : Host.Outcome State Fault Refusal :=
  if resetRequested then toOutcome (resetOp s)
  else
    match s.requesting (s.maskableAccepted acceptMay) with
    | some q => enterStep q (s.maskableAccepted acceptMay) s
    | none => if srCpuOff s.regs.sr then .next (idleStep s) else executeOne s

/-- A step: the platform's next answer is taken off the script and its events happen, then the
boundary. With the script used up the platform is quiet (log entry 4). -/
def cycle (s : State) : Host.Outcome State Fault Refusal :=
  match s.ticks with
  | [] => boundary false false s
  | t :: rest => boundary t.reset t.acceptMay (({ s with ticks := rest }).events t.events)

/-- An instruction of the opcode table stored where the next step fetches: at PC, its bytes in
memory order, nothing else changed (log entry 10). -/
def storeInstruction (nbits w : Nat) (s : State) : State :=
  s.setMem (s.mem.writeBytes s.regs.pc (layoutBytes nbits w))

end Sys2Proof.Machine
end

