-- ==== Sys2Proof/Machine/Step.lean ====
section
/-! DEFINITION. The step of the machine and the placing of an instruction for it, under the names
the host uses. -/

namespace Sys2Proof.Machine

/-- One step of the machine (60_exceptions.md R226). -/
def step (s : State) : Host.Outcome State Fault Refusal := cycle s

/-- The state with an instruction stored where the next step fetches. -/
def State.withFetchWord (s : State) (nbits w : Nat) : State := storeInstruction nbits w s

end Sys2Proof.Machine
end

