-- ==== Sys2Proof/Safety.lean ====
section
/-! DEFINITION. The terms claims are stated in: where an instruction's operands are and what they
hold when memory is plain RAM and ROM, the state a result leaves, what an instruction may write, the
invariants of the machine, and how a run ends (20_memory.md R51 to R56; 30_encoding.md R88 to R93;
92_eei_decisions.md D19, D20). Nothing of the machine depends on this file. -/

namespace Sys2Proof.Machine

/-! ### Plain memory -/

/-- Whether the map marks an address RAM or ROM: a read of it has no effect (R60). -/
def State.isPlain (s : State) (a : Word) : Bool :=
  match s.kindAt a with
  | .ram      => true
  | .rom      => true
  | .device _ => false
  | .unmapped => false

/-- Whether the map marks an address RAM. -/
def State.isRam (s : State) (a : Word) : Bool := decide (s.kindAt a = .ram)

/-- Whether an access of a width at an address passes the alignment rule (R56). -/
def State.aligned (s : State) (w : Width) (a : Word) : Bool :=
  match w with
  | .byte => true
  | .word => !a.getLsbD 0 || decide (s.params.misaligned = .ignoreBit0)

/-- The address an access that passes the alignment rule is made at (R56). -/
def accessAt (w : Width) (a : Word) : Word :=
  match w with
  | .byte => a
  | .word => a &&& 0xFFFE#16

/-- The bytes of an access: one, or the two of a word. -/
def accessBytes (w : Width) (a : Word) : List Word :=
  match w with
  | .byte => [a]
  | .word => [accessAt .word a, accessAt .word a + 1#16]

/-- Whether a read meets RAM or ROM only. -/
def State.canRead (s : State) (w : Width) (a : Word) : Bool :=
  s.aligned w a && (accessBytes w a).all s.isPlain

/-- Whether a write meets RAM only. -/
def State.canWrite (s : State) (w : Width) (a : Word) : Bool :=
  s.aligned w a && (accessBytes w a).all s.isRam

/-- What RAM and ROM hold at an address: the byte, or the word with the low byte first (R51). -/
def State.valueAt (s : State) (w : Width) (a : Word) : Word :=
  match w with
  | .byte => (s.byteAt a).setWidth 16
  | .word => wordOfBytes (s.byteAt (accessAt .word a)) (s.byteAt (accessAt .word a + 1#16))

/-- The state with a value stored in RAM: the low byte, or both bytes with the low one first
(R51, R54, R55). -/
def State.storeAt (s : State) (w : Width) (a v : Word) : State :=
  match w with
  | .byte => s.setMem (s.mem.write a.toNat (lowByte v))
  | .word =>
    s.setMem ((s.mem.write (accessAt .word a).toNat (lowByte v)).write
      (accessAt .word a + 1#16).toNat (highByte v))

/-! ### The source operand -/

/-- The address of a source operand in memory, read off the state before the instruction fetches its
extension word; 0 for the forms that have none (R88, R90, R93). -/
def srcAddress (src : Src) (s : State) : Word :=
  match src with
  | .indexed r  => s.reg r + s.valueAt .word s.regs.pc
  | .symbolic   => s.regs.pc + s.valueAt .word s.regs.pc
  | .absolute   => s.valueAt .word s.regs.pc
  | .indirect r => s.reg r
  | .autoinc r  => s.reg r
  | .immediate  => s.regs.pc
  | .reg _      => 0#16
  | .const _    => 0#16

/-- Whether a source operand is readable: its extension word and its memory operand are plain. -/
def srcReady (w : Width) (src : Src) (s : State) : Bool :=
  match src with
  | .indexed _  => s.canRead .word s.regs.pc && s.canRead w (srcAddress src s)
  | .symbolic   => s.canRead .word s.regs.pc && s.canRead w (srcAddress src s)
  | .absolute   => s.canRead .word s.regs.pc && s.canRead w (srcAddress src s)
  | .indirect _ => s.canRead w (srcAddress src s)
  | .autoinc _  => s.canRead w (srcAddress src s)
  | .immediate  => s.canRead .word s.regs.pc
  | .reg _      => true
  | .const _    => true

/-- The source operand of a state in which it is readable (R88). -/
def srcValue (w : Width) (src : Src) (s : State) : Word :=
  match src with
  | .reg r      => w.trunc (s.reg r)
  | .indexed _  => s.valueAt w (srcAddress src s)
  | .symbolic   => s.valueAt w (srcAddress src s)
  | .absolute   => s.valueAt w (srcAddress src s)
  | .indirect _ => s.valueAt w (srcAddress src s)
  | .autoinc _  => s.valueAt w (srcAddress src s)
  | .immediate  => w.trunc (s.valueAt .word s.regs.pc)
  | .const c    => w.trunc (constValue c)

/-- The state after the source operand has been read: PC past its extension word, its register
incremented (R81, R92). -/
def srcAfter (w : Width) (src : Src) (s : State) : State :=
  match src with
  | .reg _      => s
  | .indexed _  => s.setPc (s.regs.pc + 2#16)
  | .symbolic   => s.setPc (s.regs.pc + 2#16)
  | .absolute   => s.setPc (s.regs.pc + 2#16)
  | .indirect _ => s
  | .autoinc r  => stepRegister w r s
  | .immediate  => s.setPc (s.regs.pc + 2#16)
  | .const _    => s

/-! ### The destination operand -/

/-- The place of a destination, read off the state after the source operand (R89, R91, R93). -/
def dstPlace (dst : Dst) (s : State) : Loc :=
  match dst with
  | .reg r     => .reg r
  | .indexed r => .mem (s.reg r + s.valueAt .word s.regs.pc)
  | .symbolic  => .mem (s.regs.pc + s.valueAt .word s.regs.pc)
  | .absolute  => .mem (s.valueAt .word s.regs.pc)
  | .unlisted  => .reg .cg

/-- The state after the destination's extension word has been fetched (R81). -/
def dstAfter (dst : Dst) (s : State) : State :=
  match dst with
  | .reg _     => s
  | .indexed _ => s.setPc (s.regs.pc + 2#16)
  | .symbolic  => s.setPc (s.regs.pc + 2#16)
  | .absolute  => s.setPc (s.regs.pc + 2#16)
  | .unlisted  => s

/-- Whether the destination's extension word, if it has one, is plain memory. -/
def dstFetchable (dst : Dst) (s : State) : Bool :=
  match dst with
  | .reg _     => true
  | .indexed _ => s.canRead .word s.regs.pc
  | .symbolic  => s.canRead .word s.regs.pc
  | .absolute  => s.canRead .word s.regs.pc
  | .unlisted  => false

/-- Whether a place is readable: a register, or plain memory. -/
def Loc.readable (loc : Loc) (w : Width) (s : State) : Bool :=
  match loc with
  | .reg _ => true
  | .mem a => s.canRead w a

/-- Whether a place is writable: a register, or RAM. -/
def Loc.writable (loc : Loc) (w : Width) (s : State) : Bool :=
  match loc with
  | .reg _ => true
  | .mem a => s.canWrite w a

/-- What a readable place holds. -/
def Loc.value (loc : Loc) (w : Width) (s : State) : Word :=
  match loc with
  | .reg r => w.trunc (s.reg r)
  | .mem a => s.valueAt w a

/-- The state with a result in a writable place. -/
def Loc.store (loc : Loc) (w : Width) (v : Word) (s : State) : State :=
  match loc with
  | .reg r => s.setReg r (w.trunc v)
  | .mem a => s.storeAt w a v

/-- Whether an instruction's two operands are usable in a state: the source readable, the
destination's extension word fetchable, its place readable and writable as the instruction needs. -/
def operandsReady (reads writes : Bool) (w : Width) (src : Src) (dst : Dst) (s : State) : Bool :=
  let s1 := srcAfter w src s
  let s2 := dstAfter dst s1
  srcReady w src s && dstFetchable dst s1
    && (!reads || (dstPlace dst s1).readable w s2) && (!writes || (dstPlace dst s1).writable w s2)

/-- Whether an instruction with two operands can complete in a state: forms the tables have, a
destination R102 defines for an instruction that reads it, and operands that are usable. -/
def formReady (reads writes : Bool) (w : Width) (src : Src) (dst : Dst) (s : State) : Bool :=
  src.wf && dst.wf && (!reads || dstDefined s.params.r3Dst dst)
    && operandsReady reads writes w src dst s

/-- The destination operand as an instruction reads it, after the source (R120). -/
def dstValue (w : Width) (src : Src) (dst : Dst) (s : State) : Word :=
  let s1 := srcAfter w src s
  (dstPlace dst s1).value w (dstAfter dst s1)

/-- The state an instruction with two operands leaves: the source's side effects, PC past the
extension words, the status bits if it writes them, then the result if it stores one (R120). -/
def delivered (w : Width) (src : Src) (dst : Dst) (f : Option Flags) (r : Option Word) (s : State) :
    State :=
  let s1 := srcAfter w src s
  let s2 := dstAfter dst s1
  let s3 := match f with
    | some f => s2.setFlags f
    | none   => s2
  match r with
  | some v => (dstPlace dst s1).store w v s3
  | none   => s3

/-! ### An instruction whose only operand is a destination -/

/-- What an instruction's sole destination operand holds: the source of the emulated instructions
of R181 to R204 is a constant, which has no side effect. -/
def soleValue (w : Width) (dst : Dst) (s : State) : Word := dstValue w (.const .zero) dst s

/-- Whether a sole destination operand is usable. -/
def soleReady (reads writes : Bool) (w : Width) (dst : Dst) (s : State) : Bool :=
  formReady reads writes w (.const .zero) dst s

/-- The state an instruction with a sole destination operand leaves. -/
def soleDelivered (w : Width) (dst : Dst) (f : Option Flags) (r : Option Word) (s : State) : State :=
  delivered w (.const .zero) dst f r s

/-! ### The operand of RRC, SWPB, RRA and SXT -/

/-- The place of a single operand (R140). -/
def opdPlace (opd : Src) (s : State) : Loc :=
  match opd with
  | .reg r => .reg r
  | _      => .mem (srcAddress opd s)

/-- Whether a single operand has a place at all: not an immediate and not a constant (R99). -/
def opdHasPlace (opd : Src) : Bool :=
  match opd with
  | .immediate => false
  | .const _   => false
  | _          => true

/-- Whether a single operand can be read and written back in a state. -/
def opdReady (w : Width) (opd : Src) (s : State) : Bool :=
  opdHasPlace opd && srcReady w opd s && (opdPlace opd s).writable w s

/-- The state an instruction with a single operand leaves: the side effects, the status bits, then
the result in the operand's place (R140). -/
def opdDelivered (w : Width) (opd : Src) (f : Option Flags) (r : Word) (s : State) : State :=
  let s1 := srcAfter w opd s
  let s2 := match f with
    | some f => s1.setFlags f
    | none   => s1
  (opdPlace opd s).store w r s2

/-! ### Jumps -/

/-- The target of a jump, PC being past the jump word: `PC + 2 x offset` modulo 2^16 (R95, R160). -/
def jumpTarget (off : BitVec 10) (s : State) : Word :=
  BitVec.ofInt 16 ((s.regs.pc.toNat : Int) + 2 * off.toInt)

/-- The state a jump leaves: another PC if it is taken, nothing else. -/
def jumped (taken : Bool) (off : BitVec 10) (s : State) : State :=
  if taken then s.setRegs { s.regs with pc := jumpTarget off s } else s

/-! ### Numbers -/

/-- An n-bit value as a signed number (R9). -/
def signedValue (w : Width) (v : Word) : Int :=
  if w.msb v then (v.toNat : Int) - 2 ^ w.bits else v.toNat

/-- Whether a signed number is outside `-2^(n-1) .. 2^(n-1)-1`: an arithmetic overflow (R121). -/
def signedOverflow (w : Width) (x : Int) : Bool :=
  decide (x < -2 ^ (w.bits - 1)) || decide (2 ^ (w.bits - 1) ≤ x)

/-- The number the `m` low decimal digits of a BCD operand stand for (R129). -/
def bcdValue : Nat → Nat → Nat
  | 0, _ => 0
  | m + 1, v => v % 16 + 10 * bcdValue m (v / 16)

/-! ### What an instruction may write -/

/-- The register an operand's autoincrement writes (R92). -/
def srcSteps : Src → List Reg
  | .autoinc r  => [r]
  | .reg _      => []
  | .indexed _  => []
  | .symbolic   => []
  | .absolute   => []
  | .indirect _ => []
  | .immediate  => []
  | .const _    => []

/-- The register a register-mode operand names. -/
def srcNamed : Src → List Reg
  | .reg r      => [r]
  | .indexed _  => []
  | .symbolic   => []
  | .absolute   => []
  | .indirect _ => []
  | .autoinc _  => []
  | .immediate  => []
  | .const _    => []

/-- The register a register-mode destination names. -/
def dstNamed : Dst → List Reg
  | .reg r     => [r]
  | .indexed _ => []
  | .symbolic  => []
  | .absolute  => []
  | .unlisted  => []

/-- The registers a core instruction may write beside PC and the status bits: its register-mode
destination, the register its source increments, and SP where it pushes or pops. -/
def coreWrites : Instr → List Reg
  | .mov _ s d  => srcSteps s ++ dstNamed d
  | .add _ s d  => srcSteps s ++ dstNamed d
  | .addc _ s d => srcSteps s ++ dstNamed d
  | .subc _ s d => srcSteps s ++ dstNamed d
  | .sub _ s d  => srcSteps s ++ dstNamed d
  | .cmp _ s _  => srcSteps s
  | .dadd _ s d => srcSteps s ++ dstNamed d
  | .bit _ s _  => srcSteps s
  | .bic _ s d  => srcSteps s ++ dstNamed d
  | .bis _ s d  => srcSteps s ++ dstNamed d
  | .xor _ s d  => srcSteps s ++ dstNamed d
  | .and _ s d  => srcSteps s ++ dstNamed d
  | .rrc _ o    => srcSteps o ++ srcNamed o
  | .swpb o     => srcSteps o ++ srcNamed o
  | .rra _ o    => srcSteps o ++ srcNamed o
  | .sxt o      => srcSteps o ++ srcNamed o
  | .push _ o   => .sp :: srcSteps o
  | .call o     => .sp :: srcSteps o
  | .reti       => [.sp, .sr]
  | .jne _ | .jeq _ | .jnc _ | .jc _ | .jn _ | .jge _ | .jl _ | .jmp _ => []
  | .adc _ _ | .br _ | .clr _ _ | .clrc | .clrn | .clrz | .dadc _ _ | .dec _ _ | .decd _ _ => []
  | .dint | .eint | .inc _ _ | .incd _ _ | .inv _ _ | .nop | .pop _ _ | .ret => []
  | .rla _ _ | .rlc _ _ | .sbc _ _ | .setc | .setn | .setz | .tst _ _ => []

/-- The registers an instruction may write beside PC and the status bits. -/
def writes (i : Instr) : List Reg := coreWrites i.core

/-- Whether a core instruction writes the status bits V, N, Z, C by its own rule (R42). -/
def coreWritesFlags : Instr → Bool
  | .add _ _ _  => true
  | .addc _ _ _ => true
  | .subc _ _ _ => true
  | .sub _ _ _  => true
  | .cmp _ _ _  => true
  | .dadd _ _ _ => true
  | .bit _ _ _  => true
  | .xor _ _ _  => true
  | .and _ _ _  => true
  | .rrc _ _    => true
  | .rra _ _    => true
  | .sxt _      => true
  | .mov _ _ _ | .bic _ _ _ | .bis _ _ _ => false
  | .swpb _ | .push _ _ | .call _ | .reti => false
  | .jne _ | .jeq _ | .jnc _ | .jc _ | .jn _ | .jge _ | .jl _ | .jmp _ => false
  | .adc _ _ | .br _ | .clr _ _ | .clrc | .clrn | .clrz | .dadc _ _ | .dec _ _ | .decd _ _ => false
  | .dint | .eint | .inc _ _ | .incd _ _ | .inv _ _ | .nop | .pop _ _ | .ret => false
  | .rla _ _ | .rlc _ _ | .sbc _ _ | .setc | .setn | .setz | .tst _ _ => false

/-- Whether an instruction writes the status bits by its own rule. -/
def writesFlags (i : Instr) : Bool := coreWritesFlags i.core

/-- Whether a core instruction leaves PC at the following instruction unless it names PC as its
destination: all but the jumps, CALL and RETI (R24). -/
def coreSequential : Instr → Bool
  | .mov _ _ _  => true
  | .add _ _ _  => true
  | .addc _ _ _ => true
  | .subc _ _ _ => true
  | .sub _ _ _  => true
  | .cmp _ _ _  => true
  | .dadd _ _ _ => true
  | .bit _ _ _  => true
  | .bic _ _ _  => true
  | .bis _ _ _  => true
  | .xor _ _ _  => true
  | .and _ _ _  => true
  | .rrc _ _    => true
  | .swpb _     => true
  | .rra _ _    => true
  | .sxt _      => true
  | .push _ _   => true
  | .call _ | .reti => false
  | .jne _ | .jeq _ | .jnc _ | .jc _ | .jn _ | .jge _ | .jl _ | .jmp _ => false
  | .adc _ _ | .br _ | .clr _ _ | .clrc | .clrn | .clrz | .dadc _ _ | .dec _ _ | .decd _ _ => false
  | .dint | .eint | .inc _ _ | .incd _ _ | .inv _ _ | .nop | .pop _ _ | .ret => false
  | .rla _ _ | .rlc _ _ | .sbc _ _ | .setc | .setn | .setz | .tst _ _ => false

/-- Whether an instruction leaves PC at the following instruction: `coreSequential`, and PC is not
among the registers it writes. -/
def sequential (i : Instr) : Bool := coreSequential i.core && decide (Reg.pc ∉ writes i)

/-- The bits of SR that are not status bits: GIE, CPUOFF, OSCOFF, SCG0, SCG1 and the reserved bits
(R12, R26). -/
def modeBits (sr : Word) : Word := sr &&& 0xFEF8#16

/-! ### Invariants -/

/-- What every step keeps of the CPU and its memory: the memory's canonical form, PC and SP even
(R23, R25), the reserved bits of SR 0 where they are hardwired (R27). -/
def Inv (s : State) : Prop :=
  s.mem.wf = true ∧ s.regs.pc.getLsbD 0 = false ∧ s.regs.sp.getLsbD 0 = false ∧
    (s.params.srReserved = .hardwired0 → s.regs.sr &&& 0xFE00#16 = 0#16)

/-- What every step keeps of Timer_A: the unused bits and TACLR of TACTL are 0 (R241), and so are
bit 9 and the bits the hardware supplies of each stored TACCTLx (R242). -/
def TimerInv (s : State) : Prop :=
  s.dev.timer.ctl &&& 0xFC0C#16 = 0#16 ∧
    ∀ b ∈ s.dev.timer.blocks, b.ctl &&& 0x0608#16 = 0#16

/-! ### What a step of an instruction leaves alone -/

/-- `t` is `s` but for what accesses to devices change: the peripherals, the record of accesses, the
script of bus events and the count of free values (R60). -/
structure DeviceOnly (s t : State) : Prop where
  regs   : t.regs = s.regs
  g1     : t.g1 = s.g1
  g2     : t.g2 = s.g2
  mem    : t.mem = s.mem
  params : t.params = s.params
  ticks  : t.ticks = s.ticks
  cycles : t.cycles = s.cycles

/-- What no instruction's own effect touches: the GIE history, the parameters, the platform's script
and the cycle count, which only the step moves. -/
structure StepOwned (s t : State) : Prop where
  g1     : t.g1 = s.g1
  g2     : t.g2 = s.g2
  params : t.params = s.params
  ticks  : t.ticks = s.ticks
  cycles : t.cycles = s.cycles

/-! ### Boundaries -/

/-- At a boundary where no reset is requested: `u` is `s` after the platform's turn, its events done
and its answer off the script, and `acceptMay` the platform's choice; with the script used up the
platform is quiet and `u` is `s` (R226; log entry 4). -/
def atBoundary (s u : State) (acceptMay : Bool) : Prop :=
  (s.ticks = [] ∧ acceptMay = false ∧ u = s) ∨
    (∃ tk rest, s.ticks = tk :: rest ∧ tk.reset = false ∧ tk.acceptMay = acceptMay ∧
      u = ({ s with ticks := rest }).events tk.events)

/-- The instruction `i` stands decoded at PC: its word can be fetched and decodes to it. -/
def instructionAt (i : Instr) (s : State) : Prop :=
  ∃ iw t, fetchWord s = .ok (iw, t) ∧ decode iw = .ok i

/-- The state a fault holds (R222; of a decode fault the one before the instruction, D11). -/
def Fault.state : Fault → State
  | .illegalInstruction _ _ s => s
  | .unpredictable _ _ s      => s
  | .unmappedAccess _ s       => s
  | .writeToReadOnly _ s      => s
  | .misalignedAccess _ s     => s

/-! ### Runs -/

/-- A state in which the CPU is stopped for ever: CPUOFF set, GIE clear with no window left, no
nonmaskable source requesting, and a quiet platform (R240, D19). -/
def halted (s : State) : Bool :=
  srCpuOff s.regs.sr && !srGie s.regs.sr && !s.g1 && !s.g2 && s.ticks.isEmpty
    && (s.requesting false).isNone

/-- The two forms of `P_END_OF_RUN` that D20 suggests. The parameter is OPEN (R8): `runUntil` takes any
condition on the state, and that the model spells out these two is DESIGN CHOICE (log entry 40). -/
inductive EndOfRun where
  /-- PC reaches a named address. -/
  | pcAt (a : Word)
  /-- The instruction at PC is `JMP $`, the word 0x3FFF. -/
  | jmpSelf
  deriving DecidableEq, Repr

/-- Whether a run has ended in a state. DESIGN CHOICE (log entry 40): the word `JMP $` is looked for in
RAM and ROM only, for a look at a device would be an access of it. -/
def EndOfRun.reached (e : EndOfRun) (s : State) : Bool :=
  match e with
  | .pcAt a  => decide (s.regs.pc = a)
  | .jmpSelf => s.canRead .word s.regs.pc && decide (s.valueAt .word s.regs.pc = 0x3FFF#16)

/-- How a run ends (R222, R240, D19); a fault holds the state it left. -/
inductive RunOutcome where
  | ended (s : State)
  | halted (s : State)
  | fault (e : Fault)
  | refused (r : Refusal)
  | outOfFuel (s : State)
  deriving DecidableEq, Repr

/-- A run of at most so many steps, with the condition at which it ends (`P_END_OF_RUN`, R8), such as
`EndOfRun.reached e`. DESIGN CHOICE (log entry 40): the condition is asked at every instruction
boundary, before the platform's turn there, and before `halted`. -/
def runUntil (ends : State → Bool) : Nat → State → RunOutcome
  | 0, s => if ends s then .ended s else if Machine.halted s then .halted s else .outOfFuel s
  | n + 1, s =>
    if ends s then .ended s
    else if Machine.halted s then .halted s
    else
      match step s with
      | .next t    => runUntil ends n t
      | .fault f   => .fault f
      | .refused r => .refused r

end Sys2Proof.Machine
end

