-- ==== Sys2Proof/Certificates/Slice0/Obligations.lean ====
section
/-! DEFINITION. The statements for the provers, each over every state and operand that meets its
hypotheses. The terms are those of Safety.lean: `srcValue` and `dstValue` are the operands of a state
in which `formReady` says they are usable, `delivered` the state that holds the status bits and the
result and differs in nothing else. -/

open Sys2Proof Sys2Proof.Machine

/-! ### Format I -/

/-- R123: MOV stores the source in the destination and changes no status bit; R3 as the destination
drops it. -/
def Obligations.MovResult : Prop :=
  ∀ (w : Width) (src : Src) (dst : Dst) (s : State), formReady false true w src dst s = true →
    exec (.mov w src dst) s = .next (delivered w src dst none (some (srcValue w src s)) s)

/-- R124, R125: ADD and ADDC store the sum modulo 2^n; C is the carry out of the n bits, V the
overflow of the signed sum. -/
def Obligations.AddResult : Prop :=
  ∀ (w : Width) (src : Src) (dst : Dst) (s : State) (a b r : Word) (c : Bool),
    formReady true true w src dst s = true →
    a = srcValue w src s → b = dstValue w src dst s →
    r = BitVec.ofNat 16 ((a.toNat + b.toNat + c.toNat) % 2 ^ w.bits) →
    (c = false →
      exec (.add w src dst) s = .next (delivered w src dst
        (some { v := signedOverflow w (signedValue w a + signedValue w b)
                n := w.msb r, z := decide (r = 0#16)
                c := decide (2 ^ w.bits ≤ a.toNat + b.toNat) }) (some r) s)) ∧
    (c = srC s.regs.sr →
      exec (.addc w src dst) s = .next (delivered w src dst
        (some { v := signedOverflow w (signedValue w a + signedValue w b + c.toNat)
                n := w.msb r, z := decide (r = 0#16)
                c := decide (2 ^ w.bits ≤ a.toNat + b.toNat + c.toNat) }) (some r) s))

/-- R126, R127: SUB stores the difference modulo 2^n and SUBC one less where a borrow is pending
(C = 0); C = 1 says that no borrow was needed, V is the overflow of the signed difference. -/
def Obligations.SubResult : Prop :=
  ∀ (w : Width) (src : Src) (dst : Dst) (s : State) (a b r : Word) (borrow : Bool),
    formReady true true w src dst s = true →
    a = srcValue w src s → b = dstValue w src dst s →
    r = BitVec.ofInt 16 (((b.toNat : Int) - a.toNat - borrow.toNat) % 2 ^ w.bits) →
    (borrow = false →
      exec (.sub w src dst) s = .next (delivered w src dst
        (some { v := signedOverflow w (signedValue w b - signedValue w a)
                n := w.msb r, z := decide (a = b)
                c := decide (a.toNat ≤ b.toNat) }) (some r) s)) ∧
    (borrow = !srC s.regs.sr →
      exec (.subc w src dst) s = .next (delivered w src dst
        (some { v := signedOverflow w (signedValue w b - signedValue w a - borrow.toNat)
                n := w.msb r, z := decide (r = 0#16)
                c := decide (a.toNat + borrow.toNat ≤ b.toNat) }) (some r) s))

/-- R128: CMP sets the status bits of the subtraction and stores nothing. -/
def Obligations.CmpResult : Prop :=
  ∀ (w : Width) (src : Src) (dst : Dst) (s : State) (a b r : Word),
    formReady true false w src dst s = true →
    a = srcValue w src s → b = dstValue w src dst s →
    r = BitVec.ofInt 16 (((b.toNat : Int) - a.toNat) % 2 ^ w.bits) →
    exec (.cmp w src dst) s = .next (delivered w src dst
      (some { v := signedOverflow w (signedValue w b - signedValue w a)
              n := w.msb r, z := decide (a = b)
              c := decide (a.toNat ≤ b.toNat) }) none s)

/-- R129: on BCD operands DADD stores the BCD sum of the operands and the carry; C says that the sum
does not fit in the digits; V is some value.
The open value of V and the counter `freeCount` are the model's form of it, log entry 1. -/
def Obligations.DaddResult : Prop :=
  ∀ (w : Width) (src : Src) (dst : Dst) (s : State) (a b : Word) (m : Nat),
    formReady true true w src dst s = true → m = bcdDigits w →
    a = srcValue w src s → b = dstValue w src dst s →
    isBcd m a.toNat = true → isBcd m b.toNat = true →
    ∃ (r : Word) (v : Bool),
      isBcd m r.toNat = true ∧ r.toNat < 2 ^ w.bits ∧
      bcdValue m r.toNat =
        (bcdValue m a.toNat + bcdValue m b.toNat + (srC s.regs.sr).toNat) % 10 ^ m ∧
      exec (.dadd w src dst) s = .next (delivered w src dst
        (some { v := v, n := w.msb r, z := decide (r = 0#16)
                c := decide (10 ^ m ≤
                  bcdValue m a.toNat + bcdValue m b.toNat + (srC s.regs.sr).toNat) })
        (some r) { s with freeCount := s.freeCount + 2 })

/-- R129: on operands that are not BCD, DADD completes with some result of the operand's width and
some status bits, and does nothing else.
Open results as free values, and the counter `freeCount`, are the model's choice, log entry 1. -/
def Obligations.DaddOpenResult : Prop :=
  ∀ (w : Width) (src : Src) (dst : Dst) (s : State),
    formReady true true w src dst s = true →
    (isBcd (bcdDigits w) (srcValue w src s).toNat &&
      isBcd (bcdDigits w) (dstValue w src dst s).toNat) = false →
    ∃ (r : Word) (f : Flags), r.toNat < 2 ^ w.bits ∧
      exec (.dadd w src dst) s = .next (delivered w src dst (some f) (some r)
        { s with freeCount := s.freeCount + 2 })

/-- R130, R133, R134: AND and XOR store their result, BIT stores nothing; N and Z are of the result,
C is not Z; V is 0, for XOR "both operands are negative". -/
def Obligations.LogicResult : Prop :=
  ∀ (w : Width) (src : Src) (dst : Dst) (s : State) (a b r x : Word),
    a = srcValue w src s → b = dstValue w src dst s → r = a &&& b → x = a ^^^ b →
    (formReady true false w src dst s = true →
      exec (.bit w src dst) s = .next (delivered w src dst
        (some { v := false, n := w.msb r, z := decide (r = 0#16), c := decide (r ≠ 0#16) })
        none s)) ∧
    (formReady true true w src dst s = true →
      exec (.and w src dst) s = .next (delivered w src dst
        (some { v := false, n := w.msb r, z := decide (r = 0#16), c := decide (r ≠ 0#16) })
        (some r) s) ∧
      exec (.xor w src dst) s = .next (delivered w src dst
        (some { v := w.msb a && w.msb b, n := w.msb x, z := decide (a = b), c := decide (a ≠ b) })
        (some x) s))

/-- R131, R132: BIC clears and BIS sets the destination's bits that are 1 in the source; no status
bit changes. -/
def Obligations.BitSetClearResult : Prop :=
  ∀ (w : Width) (src : Src) (dst : Dst) (s : State) (a b : Word),
    formReady true true w src dst s = true →
    a = srcValue w src s → b = dstValue w src dst s →
    (∃ r : Word, (∀ k, r.getLsbD k = (b.getLsbD k && !a.getLsbD k)) ∧
      exec (.bic w src dst) s = .next (delivered w src dst none (some r) s)) ∧
    (∃ r : Word, (∀ k, r.getLsbD k = (b.getLsbD k || a.getLsbD k)) ∧
      exec (.bis w src dst) s = .next (delivered w src dst none (some r) s))

/-! ### Format II -/

/-- R141: RRC shifts the carry into the MSB and the LSB into the carry; V is 0, or by `P_RRC_V` set
when a positive operand meets a set carry. -/
def Obligations.RrcResult : Prop :=
  ∀ (w : Width) (opd : Src) (s : State) (a r : Word) (c : Bool),
    opd.wf = true → opdReady w opd s = true →
    a = srcValue w opd s → c = srC s.regs.sr →
    r = BitVec.ofNat 16 (c.toNat * 2 ^ (w.bits - 1) + a.toNat / 2) →
    exec (.rrc w opd) s = .next (opdDelivered w opd
      (some { v := decide (s.params.rrcV = .legacy) && !w.msb a && c
              n := c, z := decide (r = 0#16), c := decide (a.toNat % 2 = 1) }) r s)

/-- R143: RRA is the division by 2 of the signed operand, rounding toward minus infinity; the LSB
goes to the carry, V is 0. -/
def Obligations.RraResult : Prop :=
  ∀ (w : Width) (opd : Src) (s : State) (a : Word),
    opd.wf = true → opdReady w opd s = true → a = srcValue w opd s →
    ∃ r : Word, r.toNat < 2 ^ w.bits ∧ signedValue w r = signedValue w a / 2 ∧
      exec (.rra w opd) s = .next (opdDelivered w opd
        (some { v := false, n := w.msb a, z := decide (r = 0#16)
                c := decide (a.toNat % 2 = 1) }) r s)

/-- R142, R144: SWPB exchanges the bytes and changes no status bit; SXT stores the low byte as a
signed word and sets the status bits as a logic instruction does. -/
def Obligations.SwapExtendResult : Prop :=
  ∀ (opd : Src) (s : State) (a : Word),
    opd.wf = true → opdReady .word opd s = true → a = srcValue .word opd s →
    (∃ r : Word, r.toNat = (a.toNat % 256) * 256 + a.toNat / 256 ∧
      exec (.swpb opd) s = .next (opdDelivered .word opd none r s)) ∧
    (∃ r : Word, r.toInt = signedValue .byte (Width.byte.trunc a) ∧
      exec (.sxt opd) s = .next (opdDelivered .word opd
        (some { v := false, n := a.getLsbD 7, z := decide (a.toNat % 256 = 0)
                c := decide (a.toNat % 256 ≠ 0) }) r s))

/-- R145: PUSH evaluates its operand with the old SP, moves SP down by 2 whatever the width, and
stores the operand at the new SP.
The operand before SP, and PUSH.B's one byte, are the model's choices, log entry 22. -/
def Obligations.PushResult : Prop :=
  ∀ (w : Width) (opd : Src) (s s1 : State),
    opd.wf = true → opd ≠ .reg .sp → srcReady w opd s = true → s.regs.sp.getLsbD 0 = false →
    s1 = srcAfter w opd s → s1.canWrite w (s1.regs.sp - 2#16) = true →
    exec (.push w opd) s =
      .next ((s1.setSp (s1.regs.sp - 2#16)).storeAt w (s1.regs.sp - 2#16) (srcValue w opd s))

/-- R146: CALL evaluates its operand, pushes the address of the following instruction, and goes to
the operand with bit 0 dropped. -/
def Obligations.CallResult : Prop :=
  ∀ (opd : Src) (s s1 : State),
    opd.wf = true → srcReady .word opd s = true → s.regs.sp.getLsbD 0 = false →
    s1 = srcAfter .word opd s → s1.canWrite .word (s1.regs.sp - 2#16) = true →
    exec (.call opd) s =
      .next (((s1.setSp (s1.regs.sp - 2#16)).storeAt .word (s1.regs.sp - 2#16) s1.regs.pc).setPc
        (srcValue .word opd s))

/-- R147: RETI pops SR, then PC. -/
def Obligations.RetiResult : Prop :=
  ∀ s : State, s.regs.sp.getLsbD 0 = false →
    s.canRead .word s.regs.sp = true → s.canRead .word (s.regs.sp + 2#16) = true →
    exec .reti s =
      .next (((s.setSp (s.regs.sp + 4#16)).setSr (s.valueAt .word s.regs.sp)).setPc
        (s.valueAt .word (s.regs.sp + 2#16)))

/-! ### Jumps -/

/-- R160 to R168: a jump whose condition holds adds twice its signed offset to PC; one whose
condition does not hold changes nothing. -/
def Obligations.JumpResult : Prop :=
  ∀ (off : BitVec 10) (s : State), s.regs.pc.getLsbD 0 = false →
    exec (.jne off) s = .next (jumped (!srZ s.regs.sr) off s) ∧
    exec (.jeq off) s = .next (jumped (srZ s.regs.sr) off s) ∧
    exec (.jnc off) s = .next (jumped (!srC s.regs.sr) off s) ∧
    exec (.jc off) s = .next (jumped (srC s.regs.sr) off s) ∧
    exec (.jn off) s = .next (jumped (srN s.regs.sr) off s) ∧
    exec (.jge off) s = .next (jumped (!(xor (srN s.regs.sr) (srV s.regs.sr))) off s) ∧
    exec (.jl off) s = .next (jumped (xor (srN s.regs.sr) (srV s.regs.sr)) off s) ∧
    exec (.jmp off) s = .next (jumped true off s)

/-- R170: after `CMP src,dst` the jumps compare: JEQ equality, JC unsigned, JGE signed, JN the sign of
the difference.
The spec derives the comparisons from R121 and R128 (R170). -/
def Obligations.JumpAfterCmp : Prop :=
  ∀ (w : Width) (src : Src) (dst : Dst) (s t : State) (a b : Word) (off : BitVec 10),
    formReady true false w src dst s = true → s.regs.pc.getLsbD 0 = false →
    a = srcValue w src s → b = dstValue w src dst s → exec (.cmp w src dst) s = .next t →
    exec (.jeq off) t = .next (jumped (decide (b = a)) off t) ∧
    exec (.jne off) t = .next (jumped (decide (b ≠ a)) off t) ∧
    exec (.jc off) t = .next (jumped (decide (a.toNat ≤ b.toNat)) off t) ∧
    exec (.jnc off) t = .next (jumped (decide (b.toNat < a.toNat)) off t) ∧
    exec (.jge off) t = .next (jumped (decide (signedValue w a ≤ signedValue w b)) off t) ∧
    exec (.jl off) t = .next (jumped (decide (signedValue w b < signedValue w a)) off t) ∧
    exec (.jn off) t = .next (jumped (w.msb (w.trunc (b - a))) off t)

/-! ### Emulated instructions -/

/-- R180 to R204: an emulated instruction does what its core instruction does, from every state. -/
def Obligations.EmulatedIsCore : Prop :=
  ∀ (i : Instr) (s : State), exec i s = exec i.core s

/-- R181, R200: ADC adds the carry and SBC takes the borrow from the destination, with the status bits
as their pages spell them.
The status bits on every operand are derived from the core rules R125 and R126. -/
def Obligations.AdcSbcResult : Prop :=
  ∀ (w : Width) (dst : Dst) (s : State) (d : Word) (c : Bool),
    soleReady true true w dst s = true → d = soleValue w dst s → c = srC s.regs.sr →
    (∃ r : Word, r.toNat = (d.toNat + c.toNat) % 2 ^ w.bits ∧
      exec (.adc w dst) s = .next (soleDelivered w dst
        (some { v := decide (d.toNat = 2 ^ (w.bits - 1) - 1) && c
                n := w.msb r, z := decide (r = 0#16)
                c := decide (d.toNat = 2 ^ w.bits - 1) && c }) (some r) s)) ∧
    (∃ r : Word, r.toNat = (d.toNat + (2 ^ w.bits - 1) + c.toNat) % 2 ^ w.bits ∧
      exec (.sbc w dst) s = .next (soleDelivered w dst
        (some { v := decide (d.toNat = 2 ^ (w.bits - 1)) && !c
                n := w.msb r, z := decide (r = 0#16)
                c := !(decide (d.toNat = 0) && !c) }) (some r) s))

/-- R192, R193: INC adds 1 and INCD adds 2, with the status bits as their pages spell them. -/
def Obligations.IncrementResult : Prop :=
  ∀ (w : Width) (dst : Dst) (s : State) (d : Word),
    soleReady true true w dst s = true → d = soleValue w dst s →
    (∃ r : Word, r.toNat = (d.toNat + 1) % 2 ^ w.bits ∧
      exec (.inc w dst) s = .next (soleDelivered w dst
        (some { v := decide (d.toNat = 2 ^ (w.bits - 1) - 1), n := w.msb r
                z := decide (d.toNat = 2 ^ w.bits - 1)
                c := decide (d.toNat = 2 ^ w.bits - 1) }) (some r) s)) ∧
    (∃ r : Word, r.toNat = (d.toNat + 2) % 2 ^ w.bits ∧
      exec (.incd w dst) s = .next (soleDelivered w dst
        (some { v := decide (d.toNat = 2 ^ (w.bits - 1) - 2 ∨ d.toNat = 2 ^ (w.bits - 1) - 1)
                n := w.msb r
                z := decide (d.toNat = 2 ^ w.bits - 2)
                c := decide (d.toNat = 2 ^ w.bits - 2 ∨ d.toNat = 2 ^ w.bits - 1) })
        (some r) s))

/-- R188, R189: DEC subtracts 1 and DECD subtracts 2, with the status bits as their pages spell
them. -/
def Obligations.DecrementResult : Prop :=
  ∀ (w : Width) (dst : Dst) (s : State) (d : Word),
    soleReady true true w dst s = true → d = soleValue w dst s →
    (∃ r : Word, r.toNat = (d.toNat + (2 ^ w.bits - 1)) % 2 ^ w.bits ∧
      exec (.dec w dst) s = .next (soleDelivered w dst
        (some { v := decide (d.toNat = 2 ^ (w.bits - 1)), n := w.msb r
                z := decide (d.toNat = 1), c := decide (d.toNat ≠ 0) }) (some r) s)) ∧
    (∃ r : Word, r.toNat = (d.toNat + (2 ^ w.bits - 2)) % 2 ^ w.bits ∧
      exec (.decd w dst) s = .next (soleDelivered w dst
        (some { v := decide (d.toNat = 2 ^ (w.bits - 1) ∨ d.toNat = 2 ^ (w.bits - 1) + 1)
                n := w.msb r, z := decide (d.toNat = 2)
                c := decide (d.toNat ≠ 0 ∧ d.toNat ≠ 1) }) (some r) s))

/-- R183, R194, R204: INV complements, CLR stores 0 without a status bit, TST sets the status bits of
the destination with C = 1 and V = 0 and stores nothing. -/
def Obligations.InvClrTstResult : Prop :=
  ∀ (w : Width) (dst : Dst) (s : State) (d : Word), d = soleValue w dst s →
    (soleReady true true w dst s = true →
      ∃ r : Word, r.toNat = 2 ^ w.bits - 1 - d.toNat ∧
        exec (.inv w dst) s = .next (soleDelivered w dst
          (some { v := w.msb d, n := w.msb r
                  z := decide (d.toNat = 2 ^ w.bits - 1)
                  c := decide (d.toNat ≠ 2 ^ w.bits - 1) }) (some r) s)) ∧
    (soleReady false true w dst s = true →
      exec (.clr w dst) s = .next (soleDelivered w dst none (some 0#16) s)) ∧
    (soleReady true false w dst s = true →
      exec (.tst w dst) s = .next (soleDelivered w dst
        (some { v := false, n := w.msb d, z := decide (d = 0#16), c := true }) none s))

/-- R198, R199: RLA doubles its operand and RLC doubles it and adds the carry, where both operand
fields name the same value; the MSB goes to the carry, V is set on `2^(n-2) <= dst < 3 * 2^(n-2)`. -/
def Obligations.RotateLeftResult : Prop :=
  ∀ (w : Width) (dst : Dst) (s : State) (d : Word) (c : Bool),
    dst.wfBoth = true → formReady true true w dst.asSrc dst s = true →
    d = srcValue w dst.asSrc s → d = dstValue w dst.asSrc dst s → c = srC s.regs.sr →
    (∃ r : Word, r.toNat = 2 * d.toNat % 2 ^ w.bits ∧
      exec (.rla w dst) s = .next (delivered w dst.asSrc dst
        (some { v := decide (2 ^ (w.bits - 2) ≤ d.toNat ∧ d.toNat < 3 * 2 ^ (w.bits - 2))
                n := w.msb r, z := decide (r = 0#16), c := w.msb d }) (some r) s)) ∧
    (∃ r : Word, r.toNat = (2 * d.toNat + c.toNat) % 2 ^ w.bits ∧
      exec (.rlc w dst) s = .next (delivered w dst.asSrc dst
        (some { v := decide (2 ^ (w.bits - 2) ≤ d.toNat ∧ d.toNat < 3 * 2 ^ (w.bits - 2))
                n := w.msb r, z := decide (r = 0#16), c := w.msb d }) (some r) s))

/-- R187: on a BCD operand DADC adds the carry decimally; C says that all nines met a set carry.
The open value of V and the counter `freeCount` are the model's form of it, log entry 1. -/
def Obligations.DadcResult : Prop :=
  ∀ (w : Width) (dst : Dst) (s : State) (d : Word) (m : Nat) (c : Bool),
    soleReady true true w dst s = true → m = bcdDigits w → d = soleValue w dst s →
    isBcd m d.toNat = true → c = srC s.regs.sr →
    ∃ (r : Word) (v : Bool),
      isBcd m r.toNat = true ∧ r.toNat < 2 ^ w.bits ∧
      bcdValue m r.toNat = (bcdValue m d.toNat + c.toNat) % 10 ^ m ∧
      exec (.dadc w dst) s = .next (soleDelivered w dst
        (some { v := v, n := w.msb r, z := decide (r = 0#16)
                c := decide (bcdValue m d.toNat = 10 ^ m - 1) && c })
        (some r) { s with freeCount := s.freeCount + 2 })

/-- R196: POP moves the value at SP to its destination, whose place is formed after SP has moved up by
2, whatever the width.
The spec marks the destination formed with the moved SP as its own inference (R196). -/
def Obligations.PopResult : Prop :=
  ∀ (w : Width) (dst : Dst) (s s1 : State),
    formReady false true w (.autoinc .sp) dst s = true → s1 = s.setSp (s.regs.sp + 2#16) →
    exec (.pop w dst) s =
      .next ((dstPlace dst s1).store w (s.valueAt w s.regs.sp) (dstAfter dst s1))

/-- R182, R195, R197: BR loads PC from its source, RET from the stack, NOP does nothing. -/
def Obligations.BranchReturnNop : Prop :=
  ∀ s : State,
    (∀ src : Src, src.wf = true → srcReady .word src s = true →
      exec (.br src) s = .next ((srcAfter .word src s).setPc (srcValue .word src s))) ∧
    (s.canRead .word s.regs.sp = true →
      exec .ret s =
        .next ((s.setSp (s.regs.sp + 2#16)).setPc (s.valueAt .word s.regs.sp))) ∧
    exec .nop s = .next s

/-- R184 to R186, R190, R191, R201 to R203: the instructions on one bit of SR change that bit and
leave every other bit of SR and of the machine. -/
def Obligations.StatusBitResult : Prop :=
  ∀ s : State, (s.params.srReserved = .hardwired0 → s.regs.sr &&& 0xFE00#16 = 0#16) →
    exec .clrc s = .next (s.setRegs { s.regs with sr := s.regs.sr &&& ~~~0x0001#16 }) ∧
    exec .clrz s = .next (s.setRegs { s.regs with sr := s.regs.sr &&& ~~~0x0002#16 }) ∧
    exec .clrn s = .next (s.setRegs { s.regs with sr := s.regs.sr &&& ~~~0x0004#16 }) ∧
    exec .dint s = .next (s.setRegs { s.regs with sr := s.regs.sr &&& ~~~0x0008#16 }) ∧
    exec .setc s = .next (s.setRegs { s.regs with sr := s.regs.sr ||| 0x0001#16 }) ∧
    exec .setz s = .next (s.setRegs { s.regs with sr := s.regs.sr ||| 0x0002#16 }) ∧
    exec .setn s = .next (s.setRegs { s.regs with sr := s.regs.sr ||| 0x0004#16 }) ∧
    exec .eint s = .next (s.setRegs { s.regs with sr := s.regs.sr ||| 0x0008#16 })

/-! ### Forms no source defines -/

/-- R99, R102, R145: the operand combinations the spec calls unpredictable stop, naming the address
of the instruction word and the word, before anything is done: the fault holds the state with PC back
at the word, all of it as before the instruction (92_eei_decisions.md D11).
The stops are the model's choices, log entries 18, 22 and 30. -/
def Obligations.UndefinedFormsStop : Prop :=
  ∀ (w : Width) (src : Src) (dst : Dst) (s : State) (i : Instr),
    (opdHasPlace src = false ∧ (i = .rrc w src ∨ i = .swpb src ∨ i = .rra w src ∨ i = .sxt src)) ∨
    (dst = .unlisted ∧ i = .mov w src dst) ∨
    ((dst = .unlisted ∨ dst = .reg .cg ∧ s.params.r3Dst = .fault) ∧
      (i = .add w src dst ∨ i = .addc w src dst ∨ i = .subc w src dst ∨ i = .sub w src dst ∨
        i = .cmp w src dst ∨ i = .dadd w src dst ∨ i = .bit w src dst ∨ i = .bic w src dst ∨
        i = .bis w src dst ∨ i = .xor w src dst ∨ i = .and w src dst)) ∨
    i = .push w (.reg .sp) →
    exec i s =
      .fault (.unpredictable (s.regs.pc - 2#16) (encode i) (s.setPc (s.regs.pc - 2#16)))

/-! ### Frames -/

/-- R24, R228, R276: no instruction's own effect touches the GIE history, the parameters, the
platform's script or the cycle count: those are the step's.
Script, parameters and cycle count are the model's own fields, log entries 4, 38 and 40. -/
def Obligations.StepOwnedFrame : Prop :=
  ∀ (i : Instr) (s t : State), exec i s = .next t → StepOwned s t

/-- R20, R22, R120, R140: a register other than PC and SR keeps its value unless the instruction names
it as its register-mode destination, steps it by autoincrement, or pushes or pops (SP). -/
def Obligations.RegisterFrame : Prop :=
  ∀ (i : Instr) (s t : State) (r : Reg), exec i s = .next t →
    r ≠ .pc → r ≠ .sr → r ∉ writes i → t.reg r = s.reg r

/-- R27, R32, R120, R140: GIE, CPUOFF, OSCOFF, SCG0, SCG1 and the reserved bits change only by a write
to SR as a register or by RETI. -/
def Obligations.ModeBitsFrame : Prop :=
  ∀ (i : Instr) (s t : State), exec i s = .next t → .sr ∉ writes i →
    modeBits t.regs.sr = modeBits s.regs.sr

/-- R42: an instruction whose row gives it no status bit, and whose destination is not SR, leaves SR
as it is. -/
def Obligations.StatusFrame : Prop :=
  ∀ (i : Instr) (s t : State), exec i s = .next t → .sr ∉ writes i → writesFlags i = false →
    t.regs.sr = s.regs.sr

/-- R24, R96: an instruction that does not write PC leaves it at the following instruction: the words
it fetches are those its length counts.
PC as the running PC is presumed, log entry 19. -/
def Obligations.PcAdvance : Prop :=
  ∀ (i : Instr) (s t : State), i.wf = true → sequential i = true → s.regs.pc.getLsbD 0 = false →
    exec i s = .next t → t.regs.pc = s.regs.pc + BitVec.ofNat 16 (2 * (i.length - 1))

/-- R54, R55, R120: a Format I instruction that stores its result changes no byte of memory outside
the place its destination evaluates to, after its source has been read; with a register destination
it changes none.
The order of evaluation is presumed, log entry 20. -/
def Obligations.MemoryFrameStoring : Prop :=
  ∀ (w : Width) (src : Src) (dst : Dst) (s s0 t s1 s2 : State) (a : Word) (loc : Loc) (bad : Fault)
    (i : Instr) (x : Word),
    (s0 = s ∧ (i = .mov w src dst ∨ i = .add w src dst ∨ i = .addc w src dst ∨
      i = .subc w src dst ∨ i = .sub w src dst ∨ i = .bic w src dst ∨ i = .bis w src dst ∨
      i = .xor w src dst ∨ i = .and w src dst)) ∨
      (s0 = { s with freeCount := s.freeCount + 2 } ∧ i = .dadd w src dst) →
    exec i s = .next t → readSrc w src s0 = .ok (a, s1) → dstLoc bad dst s1 = .ok (loc, s2) →
    (∀ ea, loc = .mem ea → x ∉ accessBytes w ea) → t.byteAt x = s.byteAt x

/-- R54, R140: RRC, SWPB, RRA and SXT change no byte of memory outside their operand's place. -/
def Obligations.MemoryFrameSingle : Prop :=
  ∀ (w : Width) (opd : Src) (s t s1 : State) (loc : Loc) (bad : Fault) (i : Instr) (x : Word),
    i = .rrc w opd ∨ i = .rra w opd ∨ (w = .word ∧ (i = .swpb opd ∨ i = .sxt opd)) →
    exec i s = .next t → operandLoc bad w opd s = .ok (loc, s1) →
    (∀ ea, loc = .mem ea → x ∉ accessBytes w ea) → t.byteAt x = s.byteAt x

/-- R71, R145, R146: PUSH and CALL change no byte of memory outside the slot two below SP, SP taken
after the operand has been evaluated.
The operand before SP is the model's choice, log entry 22. -/
def Obligations.MemoryFrameStack : Prop :=
  ∀ (w : Width) (opd : Src) (s t s1 : State) (a : Word) (i : Instr) (x : Word),
    i = .push w opd ∨ (w = .word ∧ i = .call opd) →
    exec i s = .next t → readSrc w opd s = .ok (a, s1) →
    x ∉ accessBytes w ((s1.regs.sp - 2#16) &&& 0xFFFE#16) → t.byteAt x = s.byteAt x

/-- R128, R130, R147, R160: CMP, BIT, RETI and the jumps change no byte of memory. -/
def Obligations.MemoryFrameNone : Prop :=
  ∀ (i : Instr) (s t : State) (x : Word),
    (∃ w src dst, i = .cmp w src dst ∨ i = .bit w src dst) ∨ i = .reti ∨
      (∃ off, i = .jne off ∨ i = .jeq off ∨ i = .jnc off ∨ i = .jc off ∨ i = .jn off ∨
        i = .jge off ∨ i = .jl off ∨ i = .jmp off) →
    exec i s = .next t → t.byteAt x = s.byteAt x

/-! ### The step -/

/-- R81, R226: at a boundary where no reset is requested, no interrupt is accepted and the CPU is on,
the step runs the instruction the word at PC decodes to, with PC past that word, and then moves the
GIE history and the cycle count on (`finish`); where the instruction's operand combination stops it,
the fault holds the state before it (`decodeFaultHolds`). The word at PC lies in RAM or ROM; a fetch
from a device address (R57) is left out.
That fault's state is the choice of log entry 30 (92_eei_decisions.md D11), the GIE history that of log
entry 25 (D14), the cycle count that of log entry 38.
The platform's turn as a script is the model's choice, log entry 4. -/
def Obligations.StepRunsDecoded : Prop :=
  ∀ (s u : State) (i : Instr) (acceptMay : Bool), atBoundary s u acceptMay →
    u.requesting (u.maskableAccepted acceptMay) = none → srCpuOff u.regs.sr = false →
    u.canRead .word u.regs.pc = true → decode (u.valueAt .word u.regs.pc) = .ok i →
    step s =
      decodeFaultHolds u (mapNext (finish i (srGie u.regs.sr)) (exec i (u.setPc (u.regs.pc + 2#16))))

/-- R98, R100, R101, R222: at a boundary where no reset is requested, no interrupt is accepted and the
CPU is on, the words without an assigned instruction stop the step as illegal instructions, and the
fault holds PC and all state as before the instruction (92_eei_decisions.md D11); every other word
decodes. The word lies in RAM or ROM; a fetch from a device address (R57) is left out.
The platform's turn as a script is the model's choice, log entry 4.
The stop and the state it holds are the model's choices, log entry 30. -/
def Obligations.IllegalWordsStop : Prop :=
  ∀ (s u : State) (iw : Word) (acceptMay : Bool), atBoundary s u acceptMay →
    u.requesting (u.maskableAccepted acceptMay) = none → srCpuOff u.regs.sr = false →
    u.canRead .word u.regs.pc = true → iw = u.valueAt .word u.regs.pc →
    (iw.toNat < 0x1000 ∨ (0x1380 ≤ iw.toNat ∧ iw.toNat < 0x2000) ∨
      (0x10C0 ≤ iw.toNat ∧ iw.toNat ≤ 0x10FF) ∨ (0x11C0 ≤ iw.toNat ∧ iw.toNat ≤ 0x11FF) ∨
      (0x12C0 ≤ iw.toNat ∧ iw.toNat ≤ 0x12FF) ∨ (0x1301 ≤ iw.toNat ∧ iw.toNat ≤ 0x137F) →
      step s = .fault (.illegalInstruction u.regs.pc iw u)) ∧
    (¬ (iw.toNat < 0x1000 ∨ (0x1380 ≤ iw.toNat ∧ iw.toNat < 0x2000) ∨
      (0x10C0 ≤ iw.toNat ∧ iw.toNat ≤ 0x10FF) ∨ (0x11C0 ≤ iw.toNat ∧ iw.toNat ≤ 0x11FF) ∨
      (0x12C0 ≤ iw.toNat ∧ iw.toNat ≤ 0x12FF) ∨ (0x1301 ≤ iw.toNat ∧ iw.toNat ≤ 0x137F)) →
      ∃ i, decode iw = .ok i)

/-- R226, R260 to R264: a requested reset is taken at the boundary before anything else: PC from the
reset vector, SR and the GIE history cleared, memory kept, the peripheral registers as R264 lists them.
The reset at a boundary and before anything else is the spec's decision D13, log entry 27.
R264 lists port P1; the same of port P2, and the lines kept, are the model's choice, log entry 37.
The platform's turn as a script is the model's choice, log entry 4.
SR and the history 0, and the memory kept, are choices, log entries 13 and 37; the vector, 11. -/
def Obligations.ResetStep : Prop :=
  ∀ (s u : State) (tk : Tick) (rest : List Tick),
    s.ticks = tk :: rest → tk.reset = true → u = ({ s with ticks := rest }).events tk.events →
    u.canRead .word (vectorAddress u.params.resetVector) = true →
    ∃ t, step s = .next t ∧
      t.regs.pc = u.valueAt .word (vectorAddress u.params.resetVector) &&& 0xFFFE#16 ∧ t.regs.sr = 0#16 ∧
      t.regs.sp.getLsbD 0 = false ∧ t.g1 = false ∧ t.g2 = false ∧
      t.mem = u.mem ∧ t.params = u.params ∧ t.ticks = rest ∧
      (∀ p, (t.dev.port p).dir = 0#8 ∧ (t.dev.port p).ifg = 0#8 ∧ (t.dev.port p).ie = 0#8 ∧
        (t.dev.port p).sel = 0#8 ∧ (t.dev.port p).sel2 = 0#8 ∧ (t.dev.port p).ren = 0#8 ∧
        (t.dev.port p).output = (u.dev.port p).output ∧ (t.dev.port p).ies = (u.dev.port p).ies ∧
        (t.dev.port p).pins = (u.dev.port p).pins) ∧
      t.dev.timer.ctl = 0#16 ∧ (∀ b ∈ t.dev.timer.blocks, b.ctl = 0#16) ∧
      t.dev.timer.blocks.length = u.dev.timer.blocks.length ∧ t.dev.lines = u.dev.lines

/-- R223, R225, R246: a port is pending when a pin has its PxIFG and PxIE bits set and its PxSEL bit
clear, the Timer_A overflow when TAIFG and TAIE are set, a block when CCIFG and CCIE are, a line when
its flag and its enable bit are. R224, R229, R253: the source served is pending; a nonmaskable one
goes before every maskable one, a maskable one is served only where the gate admits it, and among its
kind no pending source has a higher rank; where none is served, none is both pending and admitted.
The ranks and the nonmaskable entries are choices, log entries 16 and 26; TAIE's place is presumed,
log entry 7, the part of PxSEL deduced, log entry 35. -/
def Obligations.PriorityRule : Prop :=
  (∀ (q : IrqSource) (d : Devices),
    (∀ p, q.request = .port p →
      (q.pending d = true ↔ ∃ k < 8, (d.port p).ifg.getLsbD k = true ∧
        (d.port p).ie.getLsbD k = true ∧ (d.port p).sel.getLsbD k = false)) ∧
    (q.request = .timerOverflow →
      (q.pending d = true ↔ d.timer.ctl.getLsbD 0 = true ∧ d.timer.ctl.getLsbD 1 = true)) ∧
    (∀ x single, q.request = .capture x single →
      (q.pending d = true ↔ ∃ b, elementAt x d.timer.blocks = some b ∧
        b.ctl.getLsbD 0 = true ∧ b.ctl.getLsbD 4 = true)) ∧
    (∀ k single, q.request = .line k single →
      (q.pending d = true ↔ (d.line k).flag = true ∧ (d.line k).enable = true))) ∧
  ∀ (s : State) (admitted : Bool),
    (∀ q, s.requesting admitted = some q →
      q ∈ s.params.irqTable ∧ q.pending s.dev = true ∧
      (q.maskable = true → admitted = true ∧
        ∀ r ∈ s.params.irqTable, r.pending s.dev = true → r.maskable = true) ∧
      (∀ r ∈ s.params.irqTable, r.pending s.dev = true → r.maskable = q.maskable →
        r.rank ≤ q.rank)) ∧
    (s.requesting admitted = none →
      ∀ r ∈ s.params.irqTable, r.pending s.dev = true → r.maskable = true ∧ admitted = false)

/-- R227, R228: after an instruction other than RETI that has set GIE, no maskable interrupt is
accepted at the next boundary; where no reset and no nonmaskable source is requested there and the CPU
is on, the step executes the instruction that follows. RETI has no delay: with GIE restored to 1 a
pending maskable interrupt is accepted at the boundary right after it, with GIE restored to 0 none is.
The platform's turn as a script is the model's choice, log entry 4.
The gate is the spec's decision D14 and the model's, log entry 25. -/
def Obligations.GieDelay : Prop :=
  ∀ (s t : State) (i : Instr) (acceptMay : Bool), executeOne s = .next t → instructionAt i s →
    (i ≠ .reti → srGie s.regs.sr = false → srGie t.regs.sr = true →
      t.maskableAccepted acceptMay = false ∧
      ∀ u, atBoundary t u acceptMay → u.requesting false = none → srCpuOff u.regs.sr = false →
        step t = executeOne u) ∧
    (i = .reti → t.maskableAccepted acceptMay = srGie t.regs.sr)

/-- R228, R266: at the boundary after an instruction that has cleared GIE, and at the one after the
instruction that follows it, a maskable interrupt may still be accepted; after two instructions that
began and ended with GIE clear it is not. At the boundary between the two the platform has its turn.
The platform's turn as a script is the model's choice, log entry 4.
The gate is the spec's decision D14 and the model's, log entry 25. -/
def Obligations.DintWindow : Prop :=
  (∀ (s t : State) (i : Instr) (acceptMay : Bool),
    executeOne s = .next t → instructionAt i s → i ≠ .reti →
    srGie s.regs.sr = true → srGie t.regs.sr = false →
    t.maskableAccepted acceptMay = acceptMay) ∧
  (∀ (s t t1 u : State) (i j : Instr) (between acceptMay : Bool),
    executeOne s = .next t → instructionAt i s → i ≠ .reti → atBoundary t t1 between →
    executeOne t1 = .next u → instructionAt j t1 → j ≠ .reti →
    srGie t.regs.sr = false → srGie u.regs.sr = false →
    u.maskableAccepted acceptMay = (srGie s.regs.sr && acceptMay))

/-- R230, R231: interrupt entry pushes PC, then SR, clears SR and the GIE history, goes to the word at
the source's vector, one of the sixteen at 0xFFE0 + 2i, with bit 0 dropped, and acknowledges the source
(`FlagClearing` says what that does); every other register, every byte outside the two stack words and
the rest of the state stay as they are.
The platform's turn as a script is the model's choice, log entry 4; the same entry for a nonmaskable
source is the spec's decision D27, log entry 26; the cycle count is the choice of log entry 38. -/
def Obligations.InterruptEntryResult : Prop :=
  ∀ (s u s2 : State) (q : IrqSource) (acceptMay : Bool), atBoundary s u acceptMay → Inv u →
    u.requesting (u.maskableAccepted acceptMay) = some q →
    u.canWrite .word (u.regs.sp - 2#16) = true → u.canWrite .word (u.regs.sp - 4#16) = true →
    s2 = ((u.setSp (u.regs.sp - 4#16)).storeAt .word (u.regs.sp - 2#16) u.regs.pc).storeAt .word
      (u.regs.sp - 4#16) u.regs.sr →
    s2.canRead .word q.vector = true →
    (∃ k < 16, q.vector.toNat = 0xFFE0 + 2 * k) ∧
    ∃ t, step s = .next t ∧
      t.regs = { u.regs with
        pc := s2.valueAt .word q.vector &&& 0xFFFE#16, sp := u.regs.sp - 4#16, sr := 0#16 } ∧
      t.g1 = false ∧ t.g2 = false ∧
      t.valueAt .word (u.regs.sp - 4#16) = u.regs.sr ∧
      t.valueAt .word (u.regs.sp - 2#16) = u.regs.pc ∧
      (∀ x, x ∉ accessBytes .word (u.regs.sp - 2#16) → x ∉ accessBytes .word (u.regs.sp - 4#16) →
        t.byteAt x = u.byteAt x) ∧
      t.dev = q.acknowledge u.dev ∧ t.params = u.params ∧ t.ticks = u.ticks ∧
      t.busTicks = u.busTicks ∧ t.busLog = u.busLog ∧ t.freeCount = u.freeCount ∧
      t.cycles = u.cycles + interruptCycles

/-- R147, R230, R234: RETI after an interrupt entry, SP and the two stack words being as the entry left
them and everything else being whatever the routine has made of it, restores PC, SR and SP to what they
were before the entry and changes no memory.
A derived property: the spec states the entry and the return apart. -/
def Obligations.RetiUndoesEntry : Prop :=
  ∀ (s t r : State) (q : IrqSource) (admitted : Bool), Inv s →
    s.canWrite .word (s.regs.sp - 2#16) = true → s.canWrite .word (s.regs.sp - 4#16) = true →
    interruptEntry q admitted s = .ok t →
    r.regs.sp = t.regs.sp → r.params = t.params →
    r.valueAt .word t.regs.sp = t.valueAt .word t.regs.sp →
    r.valueAt .word (t.regs.sp + 2#16) = t.valueAt .word (t.regs.sp + 2#16) →
    ∃ u, exec .reti r = .next u ∧ u.regs.pc = s.regs.pc ∧ u.regs.sr = s.regs.sr ∧
      u.regs.sp = s.regs.sp ∧ u.mem = r.mem

/-- R232: the entry clears the flag of a single-source vector, a line's or the CCIFG of a block, and
nothing else of the peripherals: not the enable bit, not another bit of TACCTLx, not another line,
block, port or register. So the source is no longer pending. It leaves the flags of a multi-source
vector, which those of the ports and of the Timer_A overflow are. -/
def Obligations.FlagClearing : Prop :=
  ∀ (q : IrqSource) (d e : Devices), e = q.acknowledge d →
    (∀ k, q.request = .line k true →
      (e.line k).flag = false ∧ (e.line k).enable = (d.line k).enable ∧
      (∀ j, j ≠ k → e.line j = d.line j) ∧ e.p1 = d.p1 ∧ e.p2 = d.p2 ∧ e.timer = d.timer) ∧
    (∀ x, q.request = .capture x true →
      (∀ b, elementAt x d.timer.blocks = some b → ∃ c : Word,
        elementAt x e.timer.blocks = some { b with ctl := c } ∧ c.getLsbD 0 = false ∧
        ∀ k, k ≠ 0 → c.getLsbD k = b.ctl.getLsbD k) ∧
      (∀ y, y ≠ x → elementAt y e.timer.blocks = elementAt y d.timer.blocks) ∧
      e.timer.blocks.length = d.timer.blocks.length ∧ e.timer.ctl = d.timer.ctl ∧
      e.p1 = d.p1 ∧ e.p2 = d.p2 ∧ e.lines = d.lines) ∧
    (q.singleSource = true → q.pending e = false) ∧
    (q.singleSource = false → e = d) ∧
    (q.singleSource = true ↔
      (∃ k, q.request = .line k true) ∨ ∃ x, q.request = .capture x true)

/-- R240: with CPUOFF set and no interrupt accepted the step executes no instruction: it moves the GIE
history on and leaves everything else.
The platform's turn as a script is the model's choice, log entry 4.
Idling step by step is the spec's decision D19 and the model's choice, log entry 28. -/
def Obligations.IdleStep : Prop :=
  ∀ (s u : State) (acceptMay : Bool), atBoundary s u acceptMay →
    u.requesting (u.maskableAccepted acceptMay) = none → srCpuOff u.regs.sr = true →
    step s = .next { u with g1 := srGie u.regs.sr, g2 := u.g1 }

/-- R240: a CPU stopped with GIE clear, no window left, no nonmaskable request and a quiet platform
stays as it is for ever.
Idling step by step is the spec's decision D19 and the model's choice, log entry 28. -/
def Obligations.HaltedForever : Prop :=
  ∀ (s : State) (n : Nat), halted s = true → Host.Core.run Sys2Proof.core n s = .next s

/-! ### Invariants -/

/-- R23, R25, R27: every step keeps the memory's canonical form, PC and SP even, and the reserved bits
of SR 0 where they are hardwired.
SP kept even and the reserved bits of SR are choices, log entries 12 and 17. -/
def Obligations.InvStep : Prop :=
  ∀ s t : State, Inv s → step s = .next t → Inv t

/-- R241, R242: every step keeps the unused bits of Timer_A's registers 0.
Which bits of TACTL are unused or read 0 is presumed, log entry 7. -/
def Obligations.TimerInvStep : Prop :=
  ∀ s t : State, TimerInv s → step s = .next t → TimerInv t

/-- Both invariants hold after reset.
The values of SP, SR and Timer_A rest on log entries 5, 6, 7 and 13. -/
def Obligations.ResetMeetsInvariants : Prop := Inv State.reset ∧ TimerInv State.reset

/-- R261, R262, R264: what reset leaves where the spec gives a value: PC from the reset vector, SR and
the GIE history 0, the registers of port P1 "Reset with PUC" and the timer registers 0. The same
registers of port P2 are 0 too: the spec gives P2 no reset value (R264 lists P1 only), and this is the
model's choice, log entries 5 and 37.
SR and the history 0 and the reset vector are presumed, log entries 11 and 13. -/
def Obligations.ResetState : Prop :=
  State.reset.regs.pc =
      State.reset.valueAt .word (vectorAddress State.reset.params.resetVector) &&& 0xFFFE#16 ∧
    State.reset.regs.sr = 0#16 ∧ State.reset.g1 = false ∧ State.reset.g2 = false ∧
    (∀ p, (State.reset.dev.port p).dir = 0#8 ∧ (State.reset.dev.port p).ifg = 0#8 ∧
      (State.reset.dev.port p).ie = 0#8 ∧ (State.reset.dev.port p).sel = 0#8 ∧
      (State.reset.dev.port p).sel2 = 0#8 ∧ (State.reset.dev.port p).ren = 0#8) ∧
    State.reset.dev.timer.ctl = 0#16 ∧
    ∀ b ∈ State.reset.dev.timer.blocks, b.ctl = 0#16

/-! ### Memory and devices -/

/-- R51, R53 to R55, R66: a read of RAM after a write of the same width and address gives the value
written; of a word the low byte is at the even address and the high byte after it.
The byte order is recovered from examples, log entry 24. -/
def Obligations.ReadAfterWrite : Prop :=
  ∀ (w : Width) (a v : Word) (s : State), s.mem.wf = true → s.canWrite w a = true →
    ∃ t, memWrite w a v s = .ok t ∧ memRead w a t = .ok (w.trunc v, t) ∧
      (∀ x, x ∉ accessBytes w a → t.byteAt x = s.byteAt x) ∧
      (w = .word → (t.byteAt (a &&& 0xFFFE#16)).toNat = v.toNat % 256 ∧
        (t.byteAt ((a &&& 0xFFFE#16) + 1#16)).toNat = v.toNat / 256)

/-- R52 to R56, R222: what an access answers that memory does not admit: a word at an odd address is
misaligned before the map is asked, an unpopulated address is unmapped, a write to ROM is refused. A
word whose lower byte the map admits and whose upper byte it does not reports the upper byte's address.
The state a fault holds is the state of the access: one that faults has read and stored nothing.
The stops, and that no half of a word is stored, are the model's choices, log entries 14 and 31. -/
def Obligations.AccessFaults : Prop :=
  ∀ (w : Width) (a v : Word) (s : State),
    (w = .word → a.getLsbD 0 = true → s.params.misaligned = .fault →
      memRead w a s = .error (.misalignedAccess a s) ∧
      memWrite w a v s = .error (.misalignedAccess a s)) ∧
    (s.aligned w a = true → s.kindAt (accessAt w a) = .unmapped →
      memRead w a s = .error (.unmappedAccess (accessAt w a) s) ∧
      memWrite w a v s = .error (.unmappedAccess (accessAt w a) s)) ∧
    (s.aligned w a = true → s.kindAt (accessAt w a) = .rom →
      memWrite w a v s = .error (.writeToReadOnly (accessAt w a) s)) ∧
    (w = .word → s.aligned w a = true → s.kindAt (accessAt w a + 1#16) = .unmapped →
      (s.kindAt (accessAt w a) ≠ .unmapped →
        memRead w a s = .error (.unmappedAccess (accessAt w a + 1#16) s)) ∧
      (s.kindAt (accessAt w a) = .ram ∨ (∃ d, s.kindAt (accessAt w a) = .device d) →
        memWrite w a v s = .error (.unmappedAccess (accessAt w a + 1#16) s))) ∧
    (w = .word → s.aligned w a = true → s.kindAt (accessAt w a + 1#16) = .rom →
      s.kindAt (accessAt w a) = .ram ∨ (∃ d, s.kindAt (accessAt w a) = .device d) →
      memWrite w a v s = .error (.writeToReadOnly (accessAt w a + 1#16) s)) ∧
    (∀ f, memRead w a s = .error f ∨ memWrite w a v s = .error f → f.state = s)

/-- R245, R246: a port register reads back what a byte write stored; PxIN ignores writes and reads, of
each pin whose I/O function is selected, the level at the pin. The platform does nothing meanwhile.
PxIN of a pin without the I/O function is left out as open, log entry 35. -/
def Obligations.PortRegisters : Prop :=
  ∀ (s t : State) (a v : Word) (p : PortId) (r : PortReg),
    s.kindAt a = .device (.port p r) → s.busTicks = [] → memWrite .byte a v s = .ok t →
    (r ≠ .input → ∃ u, memRead .byte a t = .ok (v &&& 0x00FF#16, u) ∧ u.dev = t.dev) ∧
    (r = .input → t.dev = s.dev ∧
      ∃ x u, memRead .byte a t = .ok (x, u) ∧ u.dev = s.dev ∧ x.toNat < 256 ∧
        ∀ k < 8, (s.dev.port p).sel.getLsbD k = false → (s.dev.port p).sel2.getLsbD k = false →
          x.getLsbD k = (s.dev.port p).pins.getLsbD k)

/-- R60, R61: an operand at a device address is an access of the device. MOV makes one write or one
read of it; an instruction that stores back what it has read, here BIS, makes the read, then the
write. R53, R55: of a word that falls on a device and on RAM each has its byte, the low one at the
even address.
MOV's one access is a choice, log entry 23; the order is presumed, 20; a split word deduced, 31. -/
def Obligations.DeviceOperand : Prop :=
  (∀ (w : Width) (rn : Reg) (a : Word) (d : Device) (s s1 : State),
    rn ≠ .pc → rn ≠ .cg → s.canRead .word s.regs.pc = true → a = s.valueAt .word s.regs.pc →
    s.kindAt a = .device d →
    (w = .word → a.getLsbD 0 = false ∧ ∃ d', s.kindAt (a + 1#16) = .device d') →
    s1 = s.setPc (s.regs.pc + 2#16) →
    exec (.mov w (.reg rn) .absolute) s = .next (deviceWrite d w a (w.trunc (s.reg rn)) s1) ∧
    exec (.mov w .absolute (.reg rn)) s =
      .next ((deviceRead d w a s1).2.setReg rn (w.trunc (deviceRead d w a s1).1)) ∧
    exec (.bis w (.reg rn) .absolute) s =
      .next (deviceWrite d w a (w.trunc (s.reg rn ||| (deviceRead d w a s1).1))
        (deviceRead d w a s1).2)) ∧
  (∀ (a v : Word) (d : Device) (s : State), a.getLsbD 0 = false →
    (s.kindAt a = .device d → s.kindAt (a + 1#16) = .ram →
      memWrite .word a v s =
        .ok ((deviceWrite d .byte a (v &&& 0x00FF#16) s).storeAt .byte (a + 1#16) (v >>> 8)) ∧
      ∃ r, memRead .word a s = .ok (r, (deviceRead d .byte a s).2) ∧
        r.toNat = (deviceRead d .byte a s).1.toNat % 256 + 256 * (s.byteAt (a + 1#16)).toNat) ∧
    (s.kindAt a = .ram → s.kindAt (a + 1#16) = .device d →
      memWrite .word a v s =
        .ok (deviceWrite d .byte (a + 1#16) (v >>> 8) (s.storeAt .byte a v)) ∧
      ∃ r, memRead .word a s = .ok (r, (deviceRead d .byte (a + 1#16) s).2) ∧
        r.toNat =
          (s.byteAt a).toNat + 256 * ((deviceRead d .byte (a + 1#16) s).1.toNat % 256)))

/-- R241, R242: TACTL, at both bytes of a word, reads back a word write but for its unused bits and
TACLR; so does TACCTLx, all but bit 9, SCCI and CCI: SCCI is as it was, CCI the input CCISx selects.
The platform does nothing meanwhile. R241, R244: of the platform's events, a halted timer (MCx = 00) neither returns to 0 nor
counts, a running one sets TAIFG as it returns to 0; COV is set in a block that captures (CAP = 1,
CMx not 00), and CCIFG in one that captures or, in compare mode, whose timer runs.
Which bits of TACTL are unused or read 0 is presumed, log entry 7; that a write leaves SCCI and CCI,
and what rules an event out, are the model's reading, log entry 36. -/
def Obligations.TimerRegisters : Prop :=
  (∀ (s t : State) (a v : Word) (d : Device), a.getLsbD 0 = false → s.busTicks = [] →
    s.kindAt (a + 1#16) = .device d → memWrite .word a v s = .ok t →
    (s.kindAt a = .device .tactl → ∃ u, memRead .word a t = .ok (v &&& 0x03F3#16, u)) ∧
    (∀ (x : Nat) (b : TimerBlock), s.kindAt a = .device (.tacctl x) →
      elementAt x s.dev.timer.blocks = some b →
      ∃ r u, memRead .word a t = .ok (r, u) ∧ r &&& 0xF9F7#16 = v &&& 0xF9F7#16 ∧
        r.getLsbD 9 = false ∧ r.getLsbD 10 = b.scci ∧
        r.getLsbD 3 = (if v.getLsbD 13 then v.getLsbD 12
          else if v.getLsbD 12 then b.inputB else b.inputA))) ∧
  (∀ (s : State) (x : Nat) (halts : Bool),
    halts = (!s.dev.timer.ctl.getLsbD 5 && !s.dev.timer.ctl.getLsbD 4) →
    (halts = true → (s.event .timerReturnsToZero).dev = s.dev ∧
      (s.event (.timerCountsTo x)).dev = s.dev) ∧
    (halts = false → (s.event .timerReturnsToZero).dev =
      { s.dev with timer := { s.dev.timer with ctl := s.dev.timer.ctl ||| 1#16 } }) ∧
    (∀ (b : TimerBlock) (taken : Bool), elementAt x s.dev.timer.blocks = some b →
      taken = (b.ctl.getLsbD 8 && (b.ctl.getLsbD 15 || b.ctl.getLsbD 14)) →
      elementAt x (s.event (.captureOverflow x)).dev.timer.blocks =
        some (if taken then { b with ctl := b.ctl ||| 2#16 } else b) ∧
      elementAt x (s.event (.captureFlag x)).dev.timer.blocks =
        some (if taken || (!b.ctl.getLsbD 8 && !halts)
          then { b with ctl := b.ctl ||| 1#16 } else b)))

/-- R223, R246, R247: an edge sets the flag of its pin exactly when it is the edge PxIES selects and
the pin's PxSEL is clear; a flag once set stays set.
A pin whose PxSEL is set setting no flag is deduced, log entry 35. -/
def Obligations.PortEdge : Prop :=
  ∀ (s : State) (p : PortId) (levels : Byte) (k : Nat), k < 8 →
    (((s.event (.pins p levels)).dev.port p).ifg.getLsbD k =
      ((s.dev.port p).ifg.getLsbD k ||
        (!(s.dev.port p).sel.getLsbD k &&
          (if (s.dev.port p).ies.getLsbD k
            then (s.dev.port p).pins.getLsbD k && !levels.getLsbD k
            else !(s.dev.port p).pins.getLsbD k && levels.getLsbD k)))) ∧
    ((s.event (.pins p levels)).dev.port p).pins = levels

/-! ### Encoding -/

/-- R109 and the examples of the instruction pages: words written out from the encoding tables decode
to the instructions they stand for. -/
def Obligations.DecodeWords : Prop :=
  decode 0x4506#16 = .ok (.mov .word (.reg .r5) (.reg .r6)) ∧
    decode 0x5448#16 = .ok (.add .byte (.reg .r4) (.reg .r8)) ∧
    decode 0xB72C#16 = .ok (.bit .word (.indirect .r7) (.reg .r12)) ∧
    decode 0xB76F#16 = .ok (.bit .byte (.indirect .r7) (.reg .r15)) ∧
    decode 0x12B0#16 = .ok (.call .immediate) ∧
    decode 0x1300#16 = .ok .reti ∧
    decode 0x23FD#16 = .ok (.jne (-3#10)) ∧
    decode 0xD232#16 = .ok (.bis .word (.const .eight) (.reg .sr))

/-- R83 to R89, R97, R180: decoding the word of a well-formed instruction gives its core form, with
every operand at every value.
That the emulated words decode to core instructions is deduced, log entry 29. -/
def Obligations.DecodeEncode : Prop :=
  ∀ i : Instr, i.wf = true → decode (encode i) = .ok i.core

/-- R83 to R89: a word that decodes is the encoding of what it decodes to, which is a well-formed core
instruction: no bit of an instruction word is dropped.
That the decoder answers core instructions only is deduced, log entry 29. -/
def Obligations.EncodeDecode : Prop :=
  ∀ (iw : Word) (i : Instr), decode iw = .ok i →
    encode i = iw ∧ i.wf = true ∧ i.core = i
end

