-- ==== Sys2Proof/Laws/State.lean ====
section
/-! SUPPORT. What each update of the state does to each field, so that no proof unfolds an update. -/

namespace Sys2Proof.Machine

@[simp] theorem State.setRegs_regs (s : State) (r : Regs) : (s.setRegs r).regs = r := rfl
@[simp] theorem State.setRegs_g1 (s : State) (r : Regs) : (s.setRegs r).g1 = s.g1 := rfl
@[simp] theorem State.setRegs_g2 (s : State) (r : Regs) : (s.setRegs r).g2 = s.g2 := rfl
@[simp] theorem State.setRegs_mem (s : State) (r : Regs) : (s.setRegs r).mem = s.mem := rfl
@[simp] theorem State.setRegs_dev (s : State) (r : Regs) : (s.setRegs r).dev = s.dev := rfl
@[simp] theorem State.setRegs_params (s : State) (r : Regs) : (s.setRegs r).params = s.params := rfl
@[simp] theorem State.setRegs_ticks (s : State) (r : Regs) : (s.setRegs r).ticks = s.ticks := rfl
@[simp] theorem State.setRegs_busTicks (s : State) (r : Regs) : (s.setRegs r).busTicks = s.busTicks := rfl
@[simp] theorem State.setRegs_busLog (s : State) (r : Regs) : (s.setRegs r).busLog = s.busLog := rfl
@[simp] theorem State.setRegs_freeCount (s : State) (r : Regs) : (s.setRegs r).freeCount = s.freeCount := rfl
@[simp] theorem State.setRegs_cycles (s : State) (r : Regs) : (s.setRegs r).cycles = s.cycles := rfl

@[simp] theorem State.setPc_regs (s : State) (v : Word) : (s.setPc v).regs = { s.regs with pc := v &&& 0xFFFE#16 } := rfl
@[simp] theorem State.setPc_g1 (s : State) (v : Word) : (s.setPc v).g1 = s.g1 := rfl
@[simp] theorem State.setPc_g2 (s : State) (v : Word) : (s.setPc v).g2 = s.g2 := rfl
@[simp] theorem State.setPc_mem (s : State) (v : Word) : (s.setPc v).mem = s.mem := rfl
@[simp] theorem State.setPc_dev (s : State) (v : Word) : (s.setPc v).dev = s.dev := rfl
@[simp] theorem State.setPc_params (s : State) (v : Word) : (s.setPc v).params = s.params := rfl
@[simp] theorem State.setPc_ticks (s : State) (v : Word) : (s.setPc v).ticks = s.ticks := rfl
@[simp] theorem State.setPc_busTicks (s : State) (v : Word) : (s.setPc v).busTicks = s.busTicks := rfl
@[simp] theorem State.setPc_busLog (s : State) (v : Word) : (s.setPc v).busLog = s.busLog := rfl
@[simp] theorem State.setPc_freeCount (s : State) (v : Word) : (s.setPc v).freeCount = s.freeCount := rfl
@[simp] theorem State.setPc_cycles (s : State) (v : Word) : (s.setPc v).cycles = s.cycles := rfl

@[simp] theorem State.setSp_regs (s : State) (v : Word) : (s.setSp v).regs = { s.regs with sp := v &&& 0xFFFE#16 } := rfl
@[simp] theorem State.setSp_g1 (s : State) (v : Word) : (s.setSp v).g1 = s.g1 := rfl
@[simp] theorem State.setSp_g2 (s : State) (v : Word) : (s.setSp v).g2 = s.g2 := rfl
@[simp] theorem State.setSp_mem (s : State) (v : Word) : (s.setSp v).mem = s.mem := rfl
@[simp] theorem State.setSp_dev (s : State) (v : Word) : (s.setSp v).dev = s.dev := rfl
@[simp] theorem State.setSp_params (s : State) (v : Word) : (s.setSp v).params = s.params := rfl
@[simp] theorem State.setSp_ticks (s : State) (v : Word) : (s.setSp v).ticks = s.ticks := rfl
@[simp] theorem State.setSp_busTicks (s : State) (v : Word) : (s.setSp v).busTicks = s.busTicks := rfl
@[simp] theorem State.setSp_busLog (s : State) (v : Word) : (s.setSp v).busLog = s.busLog := rfl
@[simp] theorem State.setSp_freeCount (s : State) (v : Word) : (s.setSp v).freeCount = s.freeCount := rfl
@[simp] theorem State.setSp_cycles (s : State) (v : Word) : (s.setSp v).cycles = s.cycles := rfl

@[simp] theorem State.setSr_regs (s : State) (v : Word) : (s.setSr v).regs = { s.regs with sr := srStored s.params.srReserved v } := rfl
@[simp] theorem State.setSr_g1 (s : State) (v : Word) : (s.setSr v).g1 = s.g1 := rfl
@[simp] theorem State.setSr_g2 (s : State) (v : Word) : (s.setSr v).g2 = s.g2 := rfl
@[simp] theorem State.setSr_mem (s : State) (v : Word) : (s.setSr v).mem = s.mem := rfl
@[simp] theorem State.setSr_dev (s : State) (v : Word) : (s.setSr v).dev = s.dev := rfl
@[simp] theorem State.setSr_params (s : State) (v : Word) : (s.setSr v).params = s.params := rfl
@[simp] theorem State.setSr_ticks (s : State) (v : Word) : (s.setSr v).ticks = s.ticks := rfl
@[simp] theorem State.setSr_busTicks (s : State) (v : Word) : (s.setSr v).busTicks = s.busTicks := rfl
@[simp] theorem State.setSr_busLog (s : State) (v : Word) : (s.setSr v).busLog = s.busLog := rfl
@[simp] theorem State.setSr_freeCount (s : State) (v : Word) : (s.setSr v).freeCount = s.freeCount := rfl
@[simp] theorem State.setSr_cycles (s : State) (v : Word) : (s.setSr v).cycles = s.cycles := rfl

@[simp] theorem State.setFlags_regs (s : State) (f : Flags) : (s.setFlags f).regs = { s.regs with sr := withFlags s.regs.sr f } := rfl
@[simp] theorem State.setFlags_g1 (s : State) (f : Flags) : (s.setFlags f).g1 = s.g1 := rfl
@[simp] theorem State.setFlags_g2 (s : State) (f : Flags) : (s.setFlags f).g2 = s.g2 := rfl
@[simp] theorem State.setFlags_mem (s : State) (f : Flags) : (s.setFlags f).mem = s.mem := rfl
@[simp] theorem State.setFlags_dev (s : State) (f : Flags) : (s.setFlags f).dev = s.dev := rfl
@[simp] theorem State.setFlags_params (s : State) (f : Flags) : (s.setFlags f).params = s.params := rfl
@[simp] theorem State.setFlags_ticks (s : State) (f : Flags) : (s.setFlags f).ticks = s.ticks := rfl
@[simp] theorem State.setFlags_busTicks (s : State) (f : Flags) : (s.setFlags f).busTicks = s.busTicks := rfl
@[simp] theorem State.setFlags_busLog (s : State) (f : Flags) : (s.setFlags f).busLog = s.busLog := rfl
@[simp] theorem State.setFlags_freeCount (s : State) (f : Flags) : (s.setFlags f).freeCount = s.freeCount := rfl
@[simp] theorem State.setFlags_cycles (s : State) (f : Flags) : (s.setFlags f).cycles = s.cycles := rfl

@[simp] theorem State.setHistory_regs (s : State) (a b : Bool) : (s.setHistory a b).regs = s.regs := rfl
@[simp] theorem State.setHistory_g1 (s : State) (a b : Bool) : (s.setHistory a b).g1 = a := rfl
@[simp] theorem State.setHistory_g2 (s : State) (a b : Bool) : (s.setHistory a b).g2 = b := rfl
@[simp] theorem State.setHistory_mem (s : State) (a b : Bool) : (s.setHistory a b).mem = s.mem := rfl
@[simp] theorem State.setHistory_dev (s : State) (a b : Bool) : (s.setHistory a b).dev = s.dev := rfl
@[simp] theorem State.setHistory_params (s : State) (a b : Bool) : (s.setHistory a b).params = s.params := rfl
@[simp] theorem State.setHistory_ticks (s : State) (a b : Bool) : (s.setHistory a b).ticks = s.ticks := rfl
@[simp] theorem State.setHistory_busTicks (s : State) (a b : Bool) : (s.setHistory a b).busTicks = s.busTicks := rfl
@[simp] theorem State.setHistory_busLog (s : State) (a b : Bool) : (s.setHistory a b).busLog = s.busLog := rfl
@[simp] theorem State.setHistory_freeCount (s : State) (a b : Bool) : (s.setHistory a b).freeCount = s.freeCount := rfl
@[simp] theorem State.setHistory_cycles (s : State) (a b : Bool) : (s.setHistory a b).cycles = s.cycles := rfl

@[simp] theorem State.addCycles_regs (s : State) (n : Nat) : (s.addCycles n).regs = s.regs := rfl
@[simp] theorem State.addCycles_g1 (s : State) (n : Nat) : (s.addCycles n).g1 = s.g1 := rfl
@[simp] theorem State.addCycles_g2 (s : State) (n : Nat) : (s.addCycles n).g2 = s.g2 := rfl
@[simp] theorem State.addCycles_mem (s : State) (n : Nat) : (s.addCycles n).mem = s.mem := rfl
@[simp] theorem State.addCycles_dev (s : State) (n : Nat) : (s.addCycles n).dev = s.dev := rfl
@[simp] theorem State.addCycles_params (s : State) (n : Nat) : (s.addCycles n).params = s.params := rfl
@[simp] theorem State.addCycles_ticks (s : State) (n : Nat) : (s.addCycles n).ticks = s.ticks := rfl
@[simp] theorem State.addCycles_busTicks (s : State) (n : Nat) : (s.addCycles n).busTicks = s.busTicks := rfl
@[simp] theorem State.addCycles_busLog (s : State) (n : Nat) : (s.addCycles n).busLog = s.busLog := rfl
@[simp] theorem State.addCycles_freeCount (s : State) (n : Nat) : (s.addCycles n).freeCount = s.freeCount := rfl
@[simp] theorem State.addCycles_cycles (s : State) (n : Nat) : (s.addCycles n).cycles = s.cycles + n := rfl

@[simp] theorem State.setMem_regs (s : State) (m : Memory) : (s.setMem m).regs = s.regs := rfl
@[simp] theorem State.setMem_g1 (s : State) (m : Memory) : (s.setMem m).g1 = s.g1 := rfl
@[simp] theorem State.setMem_g2 (s : State) (m : Memory) : (s.setMem m).g2 = s.g2 := rfl
@[simp] theorem State.setMem_mem (s : State) (m : Memory) : (s.setMem m).mem = m := rfl
@[simp] theorem State.setMem_dev (s : State) (m : Memory) : (s.setMem m).dev = s.dev := rfl
@[simp] theorem State.setMem_params (s : State) (m : Memory) : (s.setMem m).params = s.params := rfl
@[simp] theorem State.setMem_ticks (s : State) (m : Memory) : (s.setMem m).ticks = s.ticks := rfl
@[simp] theorem State.setMem_busTicks (s : State) (m : Memory) : (s.setMem m).busTicks = s.busTicks := rfl
@[simp] theorem State.setMem_busLog (s : State) (m : Memory) : (s.setMem m).busLog = s.busLog := rfl
@[simp] theorem State.setMem_freeCount (s : State) (m : Memory) : (s.setMem m).freeCount = s.freeCount := rfl
@[simp] theorem State.setMem_cycles (s : State) (m : Memory) : (s.setMem m).cycles = s.cycles := rfl

@[simp] theorem State.setDev_regs (s : State) (d : Devices) : (s.setDev d).regs = s.regs := rfl
@[simp] theorem State.setDev_g1 (s : State) (d : Devices) : (s.setDev d).g1 = s.g1 := rfl
@[simp] theorem State.setDev_g2 (s : State) (d : Devices) : (s.setDev d).g2 = s.g2 := rfl
@[simp] theorem State.setDev_mem (s : State) (d : Devices) : (s.setDev d).mem = s.mem := rfl
@[simp] theorem State.setDev_dev (s : State) (d : Devices) : (s.setDev d).dev = d := rfl
@[simp] theorem State.setDev_params (s : State) (d : Devices) : (s.setDev d).params = s.params := rfl
@[simp] theorem State.setDev_ticks (s : State) (d : Devices) : (s.setDev d).ticks = s.ticks := rfl
@[simp] theorem State.setDev_busTicks (s : State) (d : Devices) : (s.setDev d).busTicks = s.busTicks := rfl
@[simp] theorem State.setDev_busLog (s : State) (d : Devices) : (s.setDev d).busLog = s.busLog := rfl
@[simp] theorem State.setDev_freeCount (s : State) (d : Devices) : (s.setDev d).freeCount = s.freeCount := rfl
@[simp] theorem State.setDev_cycles (s : State) (d : Devices) : (s.setDev d).cycles = s.cycles := rfl

@[simp] theorem State.logAccess_regs (s : State) (a : BusAccess) : (s.logAccess a).regs = s.regs := rfl
@[simp] theorem State.logAccess_g1 (s : State) (a : BusAccess) : (s.logAccess a).g1 = s.g1 := rfl
@[simp] theorem State.logAccess_g2 (s : State) (a : BusAccess) : (s.logAccess a).g2 = s.g2 := rfl
@[simp] theorem State.logAccess_mem (s : State) (a : BusAccess) : (s.logAccess a).mem = s.mem := rfl
@[simp] theorem State.logAccess_dev (s : State) (a : BusAccess) : (s.logAccess a).dev = s.dev := rfl
@[simp] theorem State.logAccess_params (s : State) (a : BusAccess) : (s.logAccess a).params = s.params := rfl
@[simp] theorem State.logAccess_ticks (s : State) (a : BusAccess) : (s.logAccess a).ticks = s.ticks := rfl
@[simp] theorem State.logAccess_busTicks (s : State) (a : BusAccess) : (s.logAccess a).busTicks = s.busTicks := rfl
@[simp] theorem State.logAccess_busLog (s : State) (a : BusAccess) : (s.logAccess a).busLog = a :: s.busLog := rfl
@[simp] theorem State.logAccess_freeCount (s : State) (a : BusAccess) : (s.logAccess a).freeCount = s.freeCount := rfl
@[simp] theorem State.logAccess_cycles (s : State) (a : BusAccess) : (s.logAccess a).cycles = s.cycles := rfl

@[simp] theorem State.draw_regs (s : State) : (s.draw.2).regs = s.regs := rfl
@[simp] theorem State.draw_g1 (s : State) : (s.draw.2).g1 = s.g1 := rfl
@[simp] theorem State.draw_g2 (s : State) : (s.draw.2).g2 = s.g2 := rfl
@[simp] theorem State.draw_mem (s : State) : (s.draw.2).mem = s.mem := rfl
@[simp] theorem State.draw_dev (s : State) : (s.draw.2).dev = s.dev := rfl
@[simp] theorem State.draw_params (s : State) : (s.draw.2).params = s.params := rfl
@[simp] theorem State.draw_ticks (s : State) : (s.draw.2).ticks = s.ticks := rfl
@[simp] theorem State.draw_busTicks (s : State) : (s.draw.2).busTicks = s.busTicks := rfl
@[simp] theorem State.draw_busLog (s : State) : (s.draw.2).busLog = s.busLog := rfl
@[simp] theorem State.draw_freeCount (s : State) : (s.draw.2).freeCount = s.freeCount + 1 := rfl
@[simp] theorem State.draw_cycles (s : State) : (s.draw.2).cycles = s.cycles := rfl

/-! ### Registers -/

@[simp] theorem State.setReg_g1 (s : State) (r : Reg) (v : Word) : (s.setReg r v).g1 = s.g1 := by cases r <;> rfl
@[simp] theorem State.setReg_g2 (s : State) (r : Reg) (v : Word) : (s.setReg r v).g2 = s.g2 := by cases r <;> rfl
@[simp] theorem State.setReg_mem (s : State) (r : Reg) (v : Word) : (s.setReg r v).mem = s.mem := by cases r <;> rfl
@[simp] theorem State.setReg_dev (s : State) (r : Reg) (v : Word) : (s.setReg r v).dev = s.dev := by cases r <;> rfl
@[simp] theorem State.setReg_params (s : State) (r : Reg) (v : Word) : (s.setReg r v).params = s.params := by cases r <;> rfl
@[simp] theorem State.setReg_ticks (s : State) (r : Reg) (v : Word) : (s.setReg r v).ticks = s.ticks := by cases r <;> rfl
@[simp] theorem State.setReg_busTicks (s : State) (r : Reg) (v : Word) : (s.setReg r v).busTicks = s.busTicks := by cases r <;> rfl
@[simp] theorem State.setReg_busLog (s : State) (r : Reg) (v : Word) : (s.setReg r v).busLog = s.busLog := by cases r <;> rfl
@[simp] theorem State.setReg_freeCount (s : State) (r : Reg) (v : Word) : (s.setReg r v).freeCount = s.freeCount := by cases r <;> rfl
@[simp] theorem State.setReg_cycles (s : State) (r : Reg) (v : Word) : (s.setReg r v).cycles = s.cycles := by cases r <;> rfl

/-- A write to R3 is discarded (R33). -/
@[simp] theorem State.setReg_cg (s : State) (v : Word) : s.setReg .cg v = s := rfl

@[simp] theorem State.setReg_pc (s : State) (v : Word) : s.setReg .pc v = s.setPc v := rfl

@[simp] theorem State.setReg_sp (s : State) (v : Word) : s.setReg .sp v = s.setSp v := rfl

@[simp] theorem State.setReg_sr (s : State) (v : Word) : s.setReg .sr v = s.setSr v := rfl

/-- A register write leaves every other register. -/
theorem State.reg_setReg_other (s : State) (r q : Reg) (v : Word) (h : q ≠ r) :
    (s.setReg r v).reg q = s.reg q := by
  cases r <;> cases q <;> first | rfl | exact absurd rfl h

/-- What a register reads after a write to it. -/
theorem State.reg_setReg_same (s : State) (r : Reg) (v : Word) :
    (s.setReg r v).reg r =
      match r with
      | .pc => v &&& 0xFFFE#16
      | .sp => v &&& 0xFFFE#16
      | .sr => srStored s.params.srReserved v
      | .cg => 0#16
      | _   => v := by
  cases r <;> rfl

/-- Registers are read from the register file alone. -/
theorem State.reg_congr {s t : State} (h : t.regs = s.regs) (r : Reg) : t.reg r = s.reg r := by
  cases r <;> simp [State.reg, h]

/-- The map is read from the parameters alone. -/
theorem State.kindAt_congr {s t : State} (h : t.params = s.params) (a : Word) :
    t.kindAt a = s.kindAt a := by
  simp [State.kindAt, h]

/-- Bit 0 of a value with bit 0 dropped. -/
theorem even_and (v : Word) : (v &&& 0xFFFE#16).getLsbD 0 = false := by
  simp

end Sys2Proof.Machine
end

