-- ==== Sys2Proof/Laws/Devices.lean ====
section
/-! SUPPORT. What platform events and device accesses can do: they touch nothing of the CPU and no
byte of memory, and they keep the unused bits of Timer_A's registers 0. -/

namespace Sys2Proof.Machine

theorem DeviceOnly.refl (s : State) : DeviceOnly s s := ⟨rfl, rfl, rfl, rfl, rfl, rfl, rfl⟩

theorem DeviceOnly.trans {s t u : State} (h : DeviceOnly s t) (k : DeviceOnly t u) :
    DeviceOnly s u :=
  ⟨k.regs.trans h.regs, k.g1.trans h.g1, k.g2.trans h.g2, k.mem.trans h.mem,
    k.params.trans h.params, k.ticks.trans h.ticks, k.cycles.trans h.cycles⟩

theorem DeviceOnly.draw (s : State) : DeviceOnly s s.draw.2 := ⟨rfl, rfl, rfl, rfl, rfl, rfl, rfl⟩

theorem DeviceOnly.setDev (s : State) (d : Devices) : DeviceOnly s (s.setDev d) :=
  ⟨rfl, rfl, rfl, rfl, rfl, rfl, rfl⟩

theorem DeviceOnly.logAccess (s : State) (a : BusAccess) : DeviceOnly s (s.logAccess a) :=
  ⟨rfl, rfl, rfl, rfl, rfl, rfl, rfl⟩

/-- An event changes devices only. -/
theorem DeviceOnly.event (s : State) (e : PlatformEvent) : DeviceOnly s (s.event e) := by
  cases e <;> exact ⟨rfl, rfl, rfl, rfl, rfl, rfl, rfl⟩

/-- Events change devices only. -/
theorem DeviceOnly.events (es : List PlatformEvent) (s : State) : DeviceOnly s (s.events es) := by
  induction es generalizing s with
  | nil => exact .refl s
  | cons e es ih => exact (DeviceOnly.event s e).trans (ih _)

/-- What the platform does before a device access changes devices only. -/
theorem DeviceOnly.busTick (s : State) : DeviceOnly s s.busTick := by
  unfold State.busTick
  split
  · exact .refl s
  · rename_i es rest _
    exact DeviceOnly.trans (t := { s with busTicks := rest }) ⟨rfl, rfl, rfl, rfl, rfl, rfl, rfl⟩
      (.events es _)

/-- A read of a device changes devices only. -/
theorem DeviceOnly.deviceRead (d : Device) (w : Width) (a : Word) (s : State) :
    DeviceOnly s (deviceRead d w a s).2 :=
  (DeviceOnly.busTick s).trans ((DeviceOnly.draw _).trans (.logAccess _ _))

theorem DeviceOnly.openDevice (s : State) (d : Device) : DeviceOnly s (s.openDevice d) :=
  (DeviceOnly.draw s).trans (.setDev _ _)

theorem DeviceOnly.wrongWidthWrite (s : State) (d : Device) (w : Width) (a : Word) :
    DeviceOnly s (s.wrongWidthWrite d w a) := by
  unfold State.wrongWidthWrite
  split
  · exact (DeviceOnly.openDevice s d).trans (.openDevice _ _)
  · exact .openDevice s d

/-- A write to a device changes devices only. -/
theorem DeviceOnly.deviceWrite (d : Device) (w : Width) (a v : Word) (s : State) :
    DeviceOnly s (deviceWrite d w a v s) := by
  unfold Machine.deviceWrite
  refine (DeviceOnly.busTick s).trans (DeviceOnly.trans ?_ (.logAccess _ _))
  split
  · exact .setDev _ _
  · exact .wrongWidthWrite _ _ _ _

/-! ### The unused bits of Timer_A's registers -/

/-- The unused bits of the timer's registers are 0: `TimerInv` of the timer alone. -/
def TimerClean (t : Timer) : Prop :=
  t.ctl &&& 0xFC0C#16 = 0#16 ∧ ∀ b ∈ t.blocks, b.ctl &&& 0x0608#16 = 0#16

theorem timerInv_iff (s : State) : TimerInv s ↔ TimerClean s.dev.timer := Iff.rfl

theorem mem_updateAt {α : Type} (f : α → α) (x : Nat) (l : List α) (b : α)
    (h : b ∈ updateAt f x l) : b ∈ l ∨ ∃ c ∈ l, b = f c := by
  induction l generalizing x with
  | nil => cases x <;> cases h
  | cons a l ih =>
    cases x with
    | zero =>
      rcases List.mem_cons.mp h with h | h
      · exact .inr ⟨a, List.mem_cons_self, h⟩
      · exact .inl (List.mem_cons_of_mem _ h)
    | succ x =>
      rcases List.mem_cons.mp h with h | h
      · exact .inl (h ▸ List.mem_cons_self)
      · rcases ih x h with h | ⟨c, hc, h⟩
        · exact .inl (List.mem_cons_of_mem _ h)
        · exact .inr ⟨c, List.mem_cons_of_mem _ hc, h⟩

/-- An update of one block that keeps its unused bits keeps the timer's. -/
theorem TimerClean.updateBlock {t : Timer} (x : Nat) (f : TimerBlock → TimerBlock)
    (hf : ∀ b : TimerBlock, b.ctl &&& 0x0608#16 = 0#16 → (f b).ctl &&& 0x0608#16 = 0#16)
    (h : TimerClean t) : TimerClean (t.updateBlock x f) := by
  refine ⟨h.1, fun b hb => ?_⟩
  rcases mem_updateAt f x t.blocks b hb with hb | ⟨c, hc, rfl⟩
  · exact h.2 b hb
  · exact hf c (h.2 c hc)

theorem or_clean (v m k : Word) (hm : m &&& k = 0#16) (h : v &&& k = 0#16) :
    (v ||| m) &&& k = 0#16 := by
  rw [BitVec.and_comm, BitVec.and_or_distrib_left, BitVec.and_comm k v, BitVec.and_comm k m, h, hm]
  rfl

theorem and_clean (v m k : Word) (h : v &&& k = 0#16) : (v &&& m) &&& k = 0#16 := by
  rw [BitVec.and_assoc, BitVec.and_comm m k, ← BitVec.and_assoc, h, BitVec.zero_and]

theorem stored_clean (v m k : Word) (h : m &&& k = 0#16) : (v &&& m) &&& k = 0#16 := by
  rw [BitVec.and_assoc, h, BitVec.and_zero]

theorem TimerBlock.write_ctl (b : TimerBlock) (v : Word) : (b.write v).ctl = tacctlStored v := by
  unfold TimerBlock.write
  simp only
  split <;> rfl

/-- Reaching a compare value keeps the unused bits. -/
theorem TimerClean.reaches {t : Timer} (x : Nat) (free : Bool) (h : TimerClean t) :
    TimerClean (t.reaches x free) := by
  unfold Timer.reaches
  split
  · rename_i b0 rest hb
    refine ⟨h.1, fun b hm => ?_⟩
    rcases List.mem_cons.mp hm with rfl | hm
    · exact h.2 b0 (hb ▸ List.mem_cons_self)
    · obtain ⟨c, hc, rfl⟩ := List.mem_map.mp hm
      exact h.2 c (hb ▸ List.mem_cons_of_mem _ hc)
  · exact h.updateBlock _ _ (fun b hb => hb)

/-- The timer's counting keeps the unused bits. -/
theorem TimerClean.countsTo {t : Timer} (x : Nat) (free : Bool) (h : TimerClean t) :
    TimerClean (t.countsTo x free) := by
  unfold Timer.countsTo
  split
  · exact h.reaches x free
  · exact h

theorem TimerClean.returnsToZero {t : Timer} (h : TimerClean t) : TimerClean t.returnsToZero := by
  unfold Timer.returnsToZero
  split
  · exact ⟨or_clean _ _ _ (by decide) h.1, h.2⟩
  · exact h

theorem TimerClean.setFlag {t : Timer} (x : Nat) (h : TimerClean t) : TimerClean (t.setFlag x) := by
  refine h.updateBlock x _ (fun b hb => ?_)
  split
  · exact or_clean _ _ _ (by decide) hb
  · exact hb

theorem TimerClean.overflowCapture {t : Timer} (x : Nat) (h : TimerClean t) :
    TimerClean (t.overflowCapture x) := by
  refine h.updateBlock x _ (fun b hb => ?_)
  split
  · exact or_clean _ _ _ (by decide) hb
  · exact hb

/-- A halted timer does not count (R241). -/
theorem Timer.halted_inert {t : Timer} (h : t.running = false) (x : Nat) (free : Bool) :
    t.countsTo x free = t ∧ t.returnsToZero = t := by
  simp [Timer.countsTo, Timer.returnsToZero, h]

/-- The element at a place after an update: the updated one there, the old one elsewhere. -/
theorem elementAt_updateAt {α : Type} (f : α → α) (x y : Nat) (l : List α) :
    elementAt y (updateAt f x l) = if y = x then (elementAt x l).map f else elementAt y l := by
  induction l generalizing x y with
  | nil => cases x <;> cases y <;> simp [updateAt, elementAt]
  | cons a l ih =>
    cases x <;> cases y <;> simp [updateAt, elementAt, ih]

theorem length_updateAt {α : Type} (f : α → α) (x : Nat) (l : List α) :
    (updateAt f x l).length = l.length := by
  induction l generalizing x with
  | nil => cases x <;> rfl
  | cons a l ih => cases x <;> simp [updateAt, ih]

/-- The line at a place after a line has been set: the new one there, the old one elsewhere. -/
theorem line_setLine (l : Line) (k j : Nat) (ls : List Line) :
    (elementAt j (setLine l k ls)).getD ⟨false, false⟩ =
      if j = k then l else (elementAt j ls).getD ⟨false, false⟩ := by
  induction k generalizing j ls with
  | zero => cases ls <;> cases j <;> simp [setLine, elementAt]
  | succ k ih => cases ls <;> cases j <;> simp [setLine, elementAt, ih]

/-- An event keeps the unused bits. -/
theorem TimerClean.deviceEvent {d : Devices} (free : Bool) (e : PlatformEvent)
    (h : TimerClean d.timer) : TimerClean (d.event free e).timer := by
  cases e with
  | pins p levels => cases p <;> exact h
  | portFlags p mask => cases p <;> exact h
  | line k l => exact h
  | timerReturnsToZero => exact h.returnsToZero
  | timerCountsTo x => exact h.countsTo x free
  | captureFlag x => exact h.setFlag x
  | captureOverflow x => exact h.overflowCapture x
  | captureInputA x level => exact h.updateBlock x _ (fun b hb => hb)
  | captureInputB x level => exact h.updateBlock x _ (fun b hb => hb)

theorem TimerInv.event {s : State} (e : PlatformEvent) (h : TimerInv s) : TimerInv (s.event e) := by
  cases e <;> exact TimerClean.deviceEvent (d := s.dev) _ _ h

theorem TimerInv.events (es : List PlatformEvent) (s : State) (h : TimerInv s) :
    TimerInv (s.events es) := by
  induction es generalizing s with
  | nil => exact h
  | cons e es ih => exact ih _ (h.event e)

theorem TimerInv.busTick {s : State} (h : TimerInv s) : TimerInv s.busTick := by
  unfold State.busTick
  split
  · exact h
  · exact TimerInv.events _ _ h

theorem TimerInv.deviceRead (d : Device) (w : Width) (a : Word) {s : State} (h : TimerInv s) :
    TimerInv (deviceRead d w a s).2 :=
  TimerInv.busTick h

/-- A register write keeps the unused bits, whatever is written. -/
theorem TimerClean.store {d : Devices} (v : Word) (r : Device) (h : TimerClean d.timer) :
    TimerClean (d.store v r).timer := by
  cases r with
  | port p r => cases p <;> exact h
  | tactl => exact ⟨stored_clean _ _ _ (by decide), h.2⟩
  | tacctl x =>
    exact h.updateBlock x _ (fun b _ => by
      rw [TimerBlock.write_ctl]; exact stored_clean _ _ _ (by decide))
  | watchdog => exact h
  | other => exact h

theorem TimerInv.openDevice {s : State} (d : Device) (h : TimerInv s) : TimerInv (s.openDevice d) :=
  TimerClean.store (d := s.dev) _ d h

theorem TimerInv.deviceWrite (d : Device) (w : Width) (a v : Word) {s : State} (h : TimerInv s) :
    TimerInv (deviceWrite d w a v s) := by
  have hb := TimerInv.busTick h
  unfold Machine.deviceWrite
  simp only
  split
  · exact TimerClean.store (d := s.busTick.dev) v d hb
  · unfold State.wrongWidthWrite
    split
    · exact TimerInv.openDevice _ (TimerInv.openDevice _ hb)
    · exact TimerInv.openDevice _ hb

/-- A reset keeps the unused bits. -/
theorem TimerClean.puc (d : Devices) : TimerClean d.puc.timer := by
  refine ⟨by simp [Devices.puc, Timer.puc], fun b hb => ?_⟩
  obtain ⟨c, _, rfl⟩ := List.mem_map.mp hb
  simp [TimerBlock.puc]

/-- The acknowledgement of an interrupt keeps the unused bits. -/
theorem TimerClean.acknowledge {d : Devices} (q : IrqSource) (h : TimerClean d.timer) :
    TimerClean (q.acknowledge d).timer := by
  unfold IrqSource.acknowledge
  split
  · exact h
  · exact h
  · exact h.updateBlock _ _ (fun b hb => and_clean _ _ _ hb)
  · exact h
  · exact h
  · exact h

end Sys2Proof.Machine
end

