-- ==== Sys2Proof/Laws/Flags.lean ====
section
/-! SUPPORT. What the operand widths and the adder compute, as statements about numbers. -/

namespace Sys2Proof.Machine

/-! ### Widths -/

theorem trunc_toNat (w : Width) (v : Word) : (w.trunc v).toNat = v.toNat % 2 ^ w.bits := by
  cases w with
  | word => exact (Nat.mod_eq_of_lt v.isLt).symm
  | byte =>
    show (v &&& 0x00FF#16).toNat = v.toNat % 2 ^ 8
    rw [BitVec.toNat_and]
    exact Nat.and_two_pow_sub_one_eq_mod v.toNat 8

/-- A truncated value is an n-bit value. -/
theorem trunc_lt (w : Width) (v : Word) : (w.trunc v).toNat < 2 ^ w.bits := by
  rw [trunc_toNat]
  exact Nat.mod_lt _ (by positivity)

theorem bits_le (w : Width) : 2 ^ w.bits ≤ 65536 := by cases w <;> decide

/-- Truncating an n-bit value changes nothing. -/
theorem trunc_of_lt (w : Width) (v : Word) (h : v.toNat < 2 ^ w.bits) : w.trunc v = v := by
  apply BitVec.eq_of_toNat_eq
  rw [trunc_toNat, Nat.mod_eq_of_lt h]

/-- The MSB of an n-bit value says whether it is at least 2^(n-1). -/
theorem msb_eq (w : Width) (v : Word) (h : v.toNat < 2 ^ w.bits) :
    w.msb v = decide (2 ^ (w.bits - 1) ≤ v.toNat) := by
  have bit : ∀ k, v.getLsbD k = decide (v.toNat / 2 ^ k % 2 = 1) := fun k => by
    rw [BitVec.getLsbD, Nat.testBit_eq_decide_div_mod_eq]
  cases w with
  | word =>
    have : v.toNat < 65536 := h
    show v.getLsbD 15 = decide (32768 ≤ v.toNat)
    rw [bit, decide_eq_decide]
    omega
  | byte =>
    have : v.toNat < 256 := h
    show v.getLsbD 7 = decide (128 ≤ v.toNat)
    rw [bit, decide_eq_decide]
    omega

/-- The complement of an n-bit value. -/
theorem complement_toNat (w : Width) (v : Word) (h : v.toNat < 2 ^ w.bits) :
    (w.complement v).toNat = 2 ^ w.bits - 1 - v.toNat := by
  unfold Width.complement
  rw [trunc_toNat, BitVec.toNat_not]
  cases w with
  | word => have : v.toNat < 65536 := h; simp only [Width.bits]; omega
  | byte => have : v.toNat < 256 := h; simp only [Width.bits]; omega

/-- A signed n-bit value as a number. -/
theorem signedValue_eq (w : Width) (v : Word) (h : v.toNat < 2 ^ w.bits) :
    signedValue w v =
      if 2 ^ (w.bits - 1) ≤ v.toNat then (v.toNat : Int) - 2 ^ w.bits else v.toNat := by
  unfold signedValue
  rw [msb_eq w v h]
  simp only [decide_eq_true_eq]

/-! ### The adder (R121) -/

/-- The result of the adder, modulo 2^n. -/
theorem addC_toNat (w : Width) (a b : Word) (c : Bool) :
    (addC w a b c).1.toNat = (a.toNat + b.toNat + c.toNat) % 2 ^ w.bits := by
  show (BitVec.ofNat 16 _).toNat = _
  rw [BitVec.toNat_ofNat]
  exact Nat.mod_eq_of_lt
    (Nat.lt_of_lt_of_le (Nat.mod_lt _ (by positivity)) (bits_le w))

/-- The overflow flag of the adder says that the signed sum does not fit. -/
theorem addC_overflow (w : Width) (a b : Word) (c : Bool) (ha : a.toNat < 2 ^ w.bits)
    (hb : b.toNat < 2 ^ w.bits) :
    (addC w a b c).2.v =
      signedOverflow w (signedValue w a + signedValue w b + (c.toNat : Int)) := by
  have hr := addC_toNat w a b c
  have hlt : (addC w a b c).1.toNat < 2 ^ w.bits := by rw [hr]; exact Nat.mod_lt _ (by positivity)
  have hv : (addC w a b c).2.v =
      ((w.msb a == w.msb b) && (w.msb (addC w a b c).1 != w.msb a)) := rfl
  rw [hv, msb_eq w a ha, msb_eq w b hb, msb_eq w _ hlt, hr, signedOverflow, signedValue_eq w a ha,
    signedValue_eq w b hb]
  have hc : c.toNat ≤ 1 := by cases c <;> decide
  generalize c.toNat = k at hc
  cases w with
  | word =>
    have ha' : a.toNat < 65536 := ha
    have hb' : b.toNat < 65536 := hb
    simp only [Width.bits, Nat.reduceSub, Nat.reducePow, Int.reducePow, Int.reduceNeg]
    by_cases h1 : 32768 ≤ a.toNat <;> by_cases h2 : 32768 ≤ b.toNat <;>
      by_cases h3 : 32768 ≤ (a.toNat + b.toNat + k) % 65536 <;>
      simp [h1, h2, h3] <;> omega
  | byte =>
    have ha' : a.toNat < 256 := ha
    have hb' : b.toNat < 256 := hb
    simp only [Width.bits, Nat.reduceSub, Nat.reducePow, Int.reducePow, Int.reduceNeg]
    by_cases h1 : 128 ≤ a.toNat <;> by_cases h2 : 128 ≤ b.toNat <;>
      by_cases h3 : 128 ≤ (a.toNat + b.toNat + k) % 256 <;>
      simp [h1, h2, h3] <;> omega

/-- The signed value of a complement is one less than the negation. -/
theorem signedValue_complement (w : Width) (a : Word) (h : a.toNat < 2 ^ w.bits) :
    signedValue w (w.complement a) = -signedValue w a - 1 := by
  have hc := complement_toNat w a h
  have hlt : (w.complement a).toNat < 2 ^ w.bits := by rw [hc]; omega
  rw [signedValue_eq w _ hlt, signedValue_eq w a h, hc]
  cases w with
  | word =>
    have h' : a.toNat < 65536 := h
    simp only [Width.bits, Nat.reduceSub, Nat.reducePow, Int.reducePow]
    split_ifs <;> omega
  | byte =>
    have h' : a.toNat < 256 := h
    simp only [Width.bits, Nat.reduceSub, Nat.reducePow, Int.reducePow]
    split_ifs <;> omega

/-! ### Operands are n-bit values -/

theorem valueAt_lt (w : Width) (a : Word) (s : State) : (s.valueAt w a).toNat < 2 ^ w.bits := by
  cases w with
  | word => exact (s.valueAt .word a).isLt
  | byte =>
    show ((s.byteAt a).setWidth 16).toNat < 256
    rw [BitVec.toNat_setWidth]
    have := (s.byteAt a).isLt
    omega

theorem srcValue_lt (w : Width) (src : Src) (s : State) :
    (srcValue w src s).toNat < 2 ^ w.bits := by
  cases src <;> first | exact trunc_lt _ _ | exact valueAt_lt _ _ _

theorem placeValue_lt (w : Width) (loc : Loc) (s : State) :
    (loc.value w s).toNat < 2 ^ w.bits := by
  cases loc with
  | reg r => exact trunc_lt _ _
  | mem a => exact valueAt_lt _ _ _

theorem dstValue_lt (w : Width) (src : Src) (dst : Dst) (s : State) :
    (dstValue w src dst s).toNat < 2 ^ w.bits := placeValue_lt _ _ _

end Sys2Proof.Machine
end

