-- ==== Sys2Proof/Laws/Memory.lean ====
section
/-! SUPPORT. The laws of the byte list: a read after a write, and the canonical form, which every
operation keeps. -/

namespace Sys2Proof.Machine

/-- Reading the address just written gives the byte written (R60). -/
theorem Memory.read_write_same (m : Memory) (a : Nat) (b : Byte) (lo : Nat)
    (h : Memory.wfFrom lo m = true) : (m.write a b).read a = b := by
  induction m generalizing lo with
  | nil => by_cases hb : b = unwrittenByte <;> simp [Memory.write, Memory.read, hb]
  | cons c m ih =>
    simp only [Memory.wfFrom, Bool.and_eq_true, decide_eq_true_eq] at h
    have beyond : ∀ (m : Memory) (k : Nat), Memory.wfFrom k m = true → a < k →
        Memory.read m a = unwrittenByte := by
      intro m
      induction m with
      | nil => intros; rfl
      | cons d m ihm =>
        intro k hk ha
        simp only [Memory.wfFrom, Bool.and_eq_true, decide_eq_true_eq] at hk
        have : d.1 ≠ a := by omega
        simp only [Memory.read, this, if_false]
        exact ihm (d.1 + 1) hk.2 (by omega)
    simp only [Memory.write]
    split
    · have : c.1 ≠ a := by omega
      simp [Memory.read, this, ih (c.1 + 1) h.2]
    · split
      · rename_i heq
        split
        · rename_i hb
          rw [hb]
          exact beyond m (c.1 + 1) h.2 (by omega)
        · simp [Memory.read]
      · rename_i hlt hne
        split
        · rename_i hb
          have hc : c.1 ≠ a := hne
          simp only [Memory.read, hc, if_false, hb]
          exact beyond m (c.1 + 1) h.2 (by omega)
        · simp [Memory.read]

/-- Reading any other address gives what it gave before. -/
theorem Memory.read_write_other (m : Memory) (a x : Nat) (b : Byte) (h : x ≠ a) :
    (m.write a b).read x = m.read x := by
  induction m with
  | nil =>
    by_cases hb : b = unwrittenByte <;> simp [Memory.write, Memory.read, hb, Ne.symm h]
  | cons c m ih =>
    simp only [Memory.write]
    split
    · simp only [Memory.read, ih]
    · split
      · rename_i heq
        have hc : c.1 ≠ x := by omega
        have ha : a ≠ x := Ne.symm h
        split <;> simp [Memory.read, hc, ha]
      · have ha : a ≠ x := Ne.symm h
        split <;> simp [Memory.read, ha]

/-- The form above a bound holds above any lower one. -/
theorem Memory.wfFrom_mono (m : Memory) (lo lo' : Nat) (h : lo' ≤ lo)
    (hm : Memory.wfFrom lo m = true) : Memory.wfFrom lo' m = true := by
  cases m with
  | nil => rfl
  | cons c m =>
    simp only [Memory.wfFrom, Bool.and_eq_true, decide_eq_true_eq] at hm ⊢
    exact ⟨⟨⟨by omega, hm.1.1.2⟩, hm.1.2⟩, hm.2⟩

/-- A write inside the address space keeps the form. -/
theorem Memory.wfFrom_write (m : Memory) (lo a : Nat) (b : Byte) (hlo : lo ≤ a) (ha : a < 0x10000)
    (hm : Memory.wfFrom lo m = true) : Memory.wfFrom lo (m.write a b) = true := by
  induction m generalizing lo with
  | nil =>
    by_cases hb : b = unwrittenByte
    · simp [Memory.write, hb, Memory.wfFrom]
    · simp [Memory.write, hb, Memory.wfFrom, hlo, ha]
  | cons c m ih =>
    have hm' := hm
    simp only [Memory.wfFrom, Bool.and_eq_true, decide_eq_true_eq] at hm
    simp only [Memory.write]
    split
    · simp only [Memory.wfFrom, Bool.and_eq_true, decide_eq_true_eq]
      exact ⟨hm.1, ih (c.1 + 1) (by omega) hm.2⟩
    · split
      · rename_i heq
        split
        · exact Memory.wfFrom_mono m (c.1 + 1) lo (by omega) hm.2
        · rename_i hb
          simp only [Memory.wfFrom, Bool.and_eq_true, decide_eq_true_eq]
          exact ⟨⟨⟨hlo, ha⟩, hb⟩, heq ▸ hm.2⟩
      · split
        · exact hm'
        · rename_i h1 h2 hb
          simp only [Memory.wfFrom, Bool.and_eq_true, decide_eq_true_eq]
          exact ⟨⟨⟨hlo, ha⟩, hb⟩, ⟨⟨by omega, hm.1.1.2⟩, hm.1.2⟩, hm.2⟩

/-- A write at a 16-bit address keeps the canonical form. -/
theorem Memory.wf_write (m : Memory) (a : Word) (b : Byte) (h : m.wf = true) :
    (m.write a.toNat b).wf = true :=
  Memory.wfFrom_write m 0 a.toNat b (Nat.zero_le _) a.isLt h

/-- Storing consecutive bytes keeps the canonical form. -/
theorem Memory.wf_writeBytes (bs : List Byte) (m : Memory) (a : Word) (h : m.wf = true) :
    (m.writeBytes a bs).wf = true := by
  induction bs generalizing m a with
  | nil => exact h
  | cons b bs ih => exact ih _ _ (Memory.wf_write m a b h)

/-- Reading back the byte just written at a 16-bit address. -/
theorem Memory.read_write (m : Memory) (a : Word) (b : Byte) (h : m.wf = true) :
    (m.write a.toNat b).read a.toNat = b :=
  Memory.read_write_same m a.toNat b 0 h

end Sys2Proof.Machine
end

