-- ==== Sys2Proof/Laws/Ops.lean ====
section
/-! SUPPORT. One lemma per shared operation that says everything it can do, and one that says what it
answers on plain memory. -/

namespace Sys2Proof.Machine

/-! ### Results -/

/-- A computation in two parts succeeds exactly when both do. -/
theorem bind_eq_ok {α β : Type} {x : Except Fault α} {f : α → Except Fault β} {b : β} :
    (x >>= f) = .ok b ↔ ∃ a, x = .ok a ∧ f a = .ok b := by
  cases x with
  | error e =>
    constructor
    · intro h; cases h
    · rintro ⟨a, h, _⟩; cases h
  | ok a =>
    constructor
    · intro h; exact ⟨a, rfl, h⟩
    · rintro ⟨a', h, h'⟩; cases h; exact h'

@[simp] theorem ok_bind {α β : Type} (a : α) (f : α → Except Fault β) :
    ((Except.ok a : Except Fault α) >>= f) = f a := rfl

@[simp] theorem pure_eq_ok {α : Type} (a : α) : (pure a : Except Fault α) = .ok a := rfl

@[simp] theorem toOutcome_next {x : Except Fault State} {t : State} :
    toOutcome x = .next t ↔ x = .ok t := by
  cases x with
  | ok s =>
    constructor
    · intro h; cases h; rfl
    · intro h; cases h; rfl
  | error e =>
    constructor
    · intro h; cases h
    · intro h; cases h

@[simp] theorem toOutcome_ok (t : State) : toOutcome (.ok t) = .next t := rfl

@[simp] theorem toOutcome_error (e : Fault) : toOutcome (.error e) = .fault e := rfl

theorem mapNext_next {f : State → State} {o : Host.Outcome State Fault Refusal} {t : State} :
    mapNext f o = .next t ↔ ∃ s, o = .next s ∧ f s = t := by
  cases o with
  | next s =>
    constructor
    · intro h; cases h; exact ⟨s, rfl, rfl⟩
    · rintro ⟨s', h, rfl⟩; cases h; rfl
  | fault e =>
    constructor
    · intro h; cases h
    · rintro ⟨s', h, _⟩; cases h
  | refused r =>
    constructor
    · intro h; cases h
    · rintro ⟨s', h, _⟩; cases h

/-- The step holds another state in a decode fault only. -/
theorem decodeFaultHolds_next {s t : State} {o : Host.Outcome State Fault Refusal} :
    decodeFaultHolds s o = .next t ↔ o = .next t := by
  cases o with
  | next u => exact Iff.rfl
  | fault e => cases e <;> exact Iff.intro (fun h => nomatch h) (fun h => nomatch h)
  | refused r => exact Iff.rfl

/-! ### What operations keep -/

/-- What every operation of an instruction keeps: what belongs to the step, and both invariants. -/
structure Keeps (s t : State) : Prop where
  owned : StepOwned s t
  inv   : Inv s → Inv t
  timer : TimerInv s → TimerInv t

theorem Keeps.refl (s : State) : Keeps s s := ⟨⟨rfl, rfl, rfl, rfl, rfl⟩, id, id⟩

theorem StepOwned.trans {s t u : State} (h : StepOwned s t) (k : StepOwned t u) : StepOwned s u :=
  ⟨k.g1.trans h.g1, k.g2.trans h.g2, k.params.trans h.params, k.ticks.trans h.ticks,
    k.cycles.trans h.cycles⟩

theorem Keeps.trans {s t u : State} (h : Keeps s t) (k : Keeps t u) : Keeps s u :=
  ⟨h.owned.trans k.owned, fun i => k.inv (h.inv i), fun i => k.timer (h.timer i)⟩

/-- What a load does: it changes devices only. -/
structure Quiet (s t : State) : Prop where
  only  : DeviceOnly s t
  timer : TimerInv s → TimerInv t

theorem Quiet.refl (s : State) : Quiet s s := ⟨.refl s, id⟩

theorem Quiet.trans {s t u : State} (h : Quiet s t) (k : Quiet t u) : Quiet s u :=
  ⟨h.only.trans k.only, fun i => k.timer (h.timer i)⟩

/-- The CPU invariant looks at nothing a load changes. -/
theorem Inv.deviceOnly {s t : State} (h : DeviceOnly s t) (i : Inv s) : Inv t := by
  unfold Inv at *
  rw [h.mem, h.regs, h.params]
  exact i

theorem Quiet.keeps {s t : State} (h : Quiet s t) : Keeps s t :=
  ⟨⟨h.only.g1, h.only.g2, h.only.params, h.only.ticks, h.only.cycles⟩,
    Inv.deviceOnly h.only, h.timer⟩

/-- What a store does: it changes devices, and memory at the given addresses. -/
structure Stores (bytes : List Word) (s t : State) : Prop where
  owned : StepOwned s t
  regs  : t.regs = s.regs
  wf    : s.mem.wf = true → t.mem.wf = true
  other : ∀ x, x ∉ bytes → t.byteAt x = s.byteAt x
  timer : TimerInv s → TimerInv t

theorem Stores.keeps {bytes : List Word} {s t : State} (h : Stores bytes s t) : Keeps s t := by
  refine ⟨h.owned, fun i => ?_, h.timer⟩
  unfold Inv at *
  rw [h.regs, h.owned.params]
  exact ⟨h.wf i.1, i.2⟩

theorem Stores.mono {l l' : List Word} {s t : State} (h : Stores l s t) (hl : ∀ x ∈ l, x ∈ l') :
    Stores l' s t :=
  ⟨h.owned, h.regs, h.wf, fun x hx => h.other x (fun m => hx (hl x m)), h.timer⟩

theorem Stores.trans {l : List Word} {s t u : State} (h : Stores l s t) (k : Stores l t u) :
    Stores l s u :=
  ⟨h.owned.trans k.owned, k.regs.trans h.regs, fun i => k.wf (h.wf i),
    fun x hx => (k.other x hx).trans (h.other x hx), fun i => k.timer (h.timer i)⟩

theorem Quiet.stores {l : List Word} {s t : State} (h : Quiet s t) : Stores l s t :=
  ⟨⟨h.only.g1, h.only.g2, h.only.params, h.only.ticks, h.only.cycles⟩, h.only.regs,
    fun i => by rw [h.only.mem]; exact i, fun x _ => by simp [State.byteAt, h.only.mem], h.timer⟩

/-! ### Registers -/

/-- Status bits do not reach the reserved bits. -/
theorem withFlags_reserved (sr : Word) (f : Flags) (h : sr &&& 0xFE00#16 = 0#16) :
    withFlags sr f &&& 0xFE00#16 = 0#16 := by
  rcases f with ⟨v, n, z, c⟩
  unfold withFlags bitAt
  refine or_clean _ _ _ ?_ (and_clean _ _ _ h)
  cases v <;> cases n <;> cases z <;> cases c <;> decide

/-- A write to SR leaves the reserved bits 0 where they are hardwired. -/
theorem srStored_reserved (v : Word) : srStored .hardwired0 v &&& 0xFE00#16 = 0#16 :=
  stored_clean _ _ _ (by decide)

theorem Keeps.setFlags (s : State) (f : Flags) : Keeps s (s.setFlags f) :=
  ⟨⟨rfl, rfl, rfl, rfl, rfl⟩,
    fun i => ⟨i.1, i.2.1, i.2.2.1, fun h => withFlags_reserved _ f (i.2.2.2 h)⟩, id⟩

theorem Keeps.setPc (s : State) (v : Word) : Keeps s (s.setPc v) :=
  ⟨⟨rfl, rfl, rfl, rfl, rfl⟩, fun i => ⟨i.1, even_and v, i.2.2.1, i.2.2.2⟩, id⟩

theorem Keeps.setSp (s : State) (v : Word) : Keeps s (s.setSp v) :=
  ⟨⟨rfl, rfl, rfl, rfl, rfl⟩, fun i => ⟨i.1, i.2.1, even_and v, i.2.2.2⟩, id⟩

theorem Keeps.setSr (s : State) (v : Word) : Keeps s (s.setSr v) := by
  refine ⟨⟨rfl, rfl, rfl, rfl, rfl⟩, fun i => ⟨i.1, i.2.1, i.2.2.1, fun h => ?_⟩, id⟩
  have h' : s.params.srReserved = .hardwired0 := h
  simp only [State.setSr_regs, h']
  exact srStored_reserved v

/-- A register write keeps the invariants: PC and SP drop bit 0, SR its reserved bits. -/
theorem Keeps.setReg (s : State) (r : Reg) (v : Word) : Keeps s (s.setReg r v) := by
  cases r with
  | pc => exact .setPc s v
  | sp => exact .setSp s v
  | sr => exact .setSr s v
  | cg => exact .refl s
  | _ => exact ⟨⟨rfl, rfl, rfl, rfl, rfl⟩, id, id⟩

/-! ### Loads -/

/-- An even address loses nothing with its bit 0. -/
theorem even_self (a : Word) (h : a.getLsbD 0 = false) : a &&& 0xFFFE#16 = a := by
  refine BitVec.eq_of_getLsbD_eq fun i hi => ?_
  rw [BitVec.getLsbD_and]
  rcases Nat.eq_zero_or_pos i with rfl | hp
  · rw [h]; rfl
  · have : (0xFFFE#16).getLsbD i = true := by
      interval_cases i <;> rfl
    rw [this, Bool.and_true]

/-- The address `wordAddress` answers is the one of `accessAt`. -/
theorem wordAddress_ok {s : State} {a b : Word} (h : wordAddress s a = .ok b) :
    b = accessAt .word a := by
  unfold wordAddress at h
  split at h
  · split at h
    · cases h
    · cases h; rfl
  · rename_i ha
    cases h
    exact (even_self a (by simpa using ha)).symm

/-- An access that passes the alignment rule is made at `accessAt`. -/
theorem wordAddress_aligned {s : State} {a : Word} (h : s.aligned .word a = true) :
    wordAddress s a = .ok (accessAt .word a) := by
  unfold wordAddress accessAt
  simp only [State.aligned, Bool.or_eq_true, Bool.not_eq_true', decide_eq_true_eq] at h
  split
  · rename_i ha
    rcases h with h | h
    · rw [h] at ha; cases ha
    · simp [h]
  · rename_i ha
    simp [even_self a (by simpa using ha)]

/-- Everything a byte read can do. -/
theorem readByte_quiet {a : Word} {s t : State} {b : Byte} (h : readByte a s = .ok (b, t)) :
    Quiet s t := by
  unfold readByte at h
  split at h
  · cases h; exact .refl _
  · cases h; exact .refl _
  · cases h; exact ⟨.deviceRead _ _ _ _, .deviceRead _ _ _⟩
  · cases h

theorem readWord_quiet {a v : Word} {s t : State} (h : readWord a s = .ok (v, t)) : Quiet s t := by
  unfold readWord at h
  split at h
  · cases h; exact ⟨.deviceRead _ _ _ _, .deviceRead _ _ _⟩
  · obtain ⟨_, _, h⟩ := bind_eq_ok.mp h
    obtain ⟨_, _, h⟩ := bind_eq_ok.mp h
    obtain ⟨⟨lo, s1⟩, h1, h⟩ := bind_eq_ok.mp h
    obtain ⟨⟨hi, s2⟩, h2, h⟩ := bind_eq_ok.mp h
    cases h
    exact (readByte_quiet h1).trans (readByte_quiet h2)

/-- Everything a read can do: it changes devices only. -/
theorem memRead_quiet {w : Width} {a v : Word} {s t : State} (h : memRead w a s = .ok (v, t)) :
    Quiet s t := by
  cases w with
  | byte =>
    obtain ⟨⟨b, s1⟩, h1, h⟩ := bind_eq_ok.mp h
    cases h
    exact readByte_quiet h1
  | word =>
    obtain ⟨a', _, h⟩ := bind_eq_ok.mp h
    exact readWord_quiet h

/-- The map's answer to a read: a refusal holds the state. -/
theorem admitRead_cases (a : Word) (s : State) :
    (admitRead a s = .ok () ∧ s.kindAt a ≠ .unmapped) ∨
    (s.kindAt a = .unmapped ∧ admitRead a s = .error (.unmappedAccess a s)) := by
  unfold admitRead
  split <;> simp_all

theorem admitRead_plain {a : Word} {s : State} (h : s.isPlain a = true) :
    admitRead a s = .ok () := by
  unfold State.isPlain at h
  unfold admitRead
  split at h <;> simp_all

theorem readByte_plain {a : Word} {s : State} (h : s.isPlain a = true) :
    readByte a s = .ok (s.byteAt a, s) := by
  unfold State.isPlain at h
  unfold readByte
  split at h <;> simp_all

/-- A read of plain memory answers what it holds and changes nothing. -/
theorem memRead_plain {w : Width} {a : Word} {s : State} (h : s.canRead w a = true) :
    memRead w a s = .ok (s.valueAt w a, s) := by
  cases w with
  | byte =>
    have hp : s.isPlain a = true := by simpa [State.canRead, State.aligned, accessBytes] using h
    simp [memRead, readByte_plain hp, State.valueAt]
  | word =>
    simp only [State.canRead, accessBytes, List.all_cons, List.all_nil, Bool.and_true,
      Bool.and_eq_true] at h
    have hk : ∀ d, s.kindAt (accessAt .word a) ≠ .device d := by
      intro d hd
      have := h.2.1
      simp [State.isPlain, hd] at this
    simp only [memRead, wordAddress_aligned h.1, ok_bind]
    unfold readWord
    split
    · rename_i d _ hd _; exact absurd hd (hk d)
    · simp [admitRead_plain h.2.1, admitRead_plain h.2.2, readByte_plain h.2.1,
        readByte_plain h.2.2, State.valueAt]

/-! ### Stores -/

theorem Stores.setMem (s : State) (a : Word) (b : Byte) (l : List Word) (h : a ∈ l) :
    Stores l s (s.setMem (s.mem.write a.toNat b)) := by
  refine ⟨⟨rfl, rfl, rfl, rfl, rfl⟩, rfl, Memory.wf_write _ _ _, fun x hx => ?_, id⟩
  refine Memory.read_write_other _ _ _ _ (fun he => hx ?_)
  rw [BitVec.eq_of_toNat_eq he]
  exact h

theorem Stores.deviceWrite (l : List Word) (d : Device) (w : Width) (a v : Word) (s : State) :
    Stores l s (deviceWrite d w a v s) :=
  Quiet.stores ⟨.deviceWrite _ _ _ _ _, .deviceWrite _ _ _ _⟩

/-- Everything a byte write can do. -/
theorem writeByte_stores {a : Word} {b : Byte} {s t : State} (h : writeByte a b s = .ok t) :
    Stores [a] s t := by
  unfold writeByte at h
  split at h
  · cases h; exact .setMem _ _ _ _ (by simp)
  · cases h
  · cases h; exact .deviceWrite _ _ _ _ _ _
  · cases h

/-- The map's answer to a write: RAM and devices are admitted, and a refusal holds the state. -/
theorem admitWrite_cases (a : Word) (s : State) :
    (admitWrite a s = .ok () ∧ (s.kindAt a = .ram ∨ ∃ d, s.kindAt a = .device d)) ∨
    ∃ f, admitWrite a s = .error f ∧ f.state = s := by
  unfold admitWrite
  split
  · rename_i h; exact .inl ⟨rfl, .inl h⟩
  · exact .inr ⟨_, rfl, rfl⟩
  · rename_i d h; exact .inl ⟨rfl, .inr ⟨d, h⟩⟩
  · exact .inr ⟨_, rfl, rfl⟩

theorem writeWord_stores {a v : Word} {s t : State} (h : writeWord a v s = .ok t) :
    Stores [a, a + 1#16] s t := by
  unfold writeWord at h
  split at h
  · cases h; exact .deviceWrite _ _ _ _ _ _
  · obtain ⟨_, _, h⟩ := bind_eq_ok.mp h
    obtain ⟨_, _, h⟩ := bind_eq_ok.mp h
    obtain ⟨s1, h1, h⟩ := bind_eq_ok.mp h
    exact ((writeByte_stores h1).mono (by simp)).trans ((writeByte_stores h).mono (by simp))

/-- Everything a write can do: it changes devices, and memory at the bytes of the access. -/
theorem memWrite_stores {w : Width} {a v : Word} {s t : State} (h : memWrite w a v s = .ok t) :
    Stores (accessBytes w a) s t := by
  cases w with
  | byte => exact writeByte_stores h
  | word =>
    obtain ⟨a', ha, h⟩ := bind_eq_ok.mp h
    have := wordAddress_ok ha
    subst this
    exact writeWord_stores h

/-- A write to RAM stores there and changes nothing else. -/
theorem memWrite_plain {w : Width} {a v : Word} {s : State} (h : s.canWrite w a = true) :
    memWrite w a v s = .ok (s.storeAt w a v) := by
  have hw : ∀ {a : Word} {b : Byte} {s : State}, s.kindAt a = .ram →
      writeByte a b s = .ok (s.setMem (s.mem.write a.toNat b)) := by
    intro a b s h
    simp [writeByte, h]
  cases w with
  | byte =>
    have hp : s.kindAt a = .ram := by
      simpa [State.canWrite, State.aligned, accessBytes, State.isRam] using h
    simp [memWrite, hw hp, State.storeAt]
  | word =>
    simp only [State.canWrite, accessBytes, List.all_cons, List.all_nil, Bool.and_true,
      Bool.and_eq_true, State.isRam, decide_eq_true_eq] at h
    simp only [memWrite, wordAddress_aligned h.1, ok_bind]
    unfold writeWord
    split
    · rename_i d _ hd _; rw [h.2.1] at hd; cases hd
    · have ha : ∀ {b : Word}, s.kindAt b = .ram → admitWrite b s = .ok () := by
        intro b hb
        simp [admitWrite, hb]
      simp only [ha h.2.1, ha h.2.2, hw h.2.1, ok_bind]
      rw [hw (s := s.setMem (s.mem.write (accessAt .word a).toNat (lowByte v))) h.2.2]
      simp [State.storeAt, State.setMem]

/-! ### Fetch and stack -/

/-- Everything a fetch can do: a load, and PC two further. -/
theorem fetchWord_ok {s t : State} {iw : Word} (h : fetchWord s = .ok (iw, t)) :
    ∃ u, Quiet s u ∧ t = u.setPc (s.regs.pc + 2#16) := by
  obtain ⟨⟨v, u⟩, h1, h⟩ := bind_eq_ok.mp h
  cases h
  exact ⟨u, memRead_quiet h1, rfl⟩

theorem fetchWord_keeps {s t : State} {iw : Word} (h : fetchWord s = .ok (iw, t)) : Keeps s t := by
  obtain ⟨u, hu, rfl⟩ := fetchWord_ok h
  exact hu.keeps.trans (.setPc _ _)

theorem fetchWord_plain {s : State} (h : s.canRead .word s.regs.pc = true) :
    fetchWord s = .ok (s.valueAt .word s.regs.pc, s.setPc (s.regs.pc + 2#16)) := by
  simp [fetchWord, memRead_plain h]

/-- Everything a push can do: SP two lower, then a store at the new SP. -/
theorem push_ok {w : Width} {v : Word} {s t : State} (h : push w v s = .ok t) :
    Stores (accessBytes w ((s.regs.sp - 2#16) &&& 0xFFFE#16)) (s.setSp (s.regs.sp - 2#16)) t :=
  memWrite_stores h

theorem push_keeps {w : Width} {v : Word} {s t : State} (h : push w v s = .ok t) : Keeps s t :=
  (Keeps.setSp _ _).trans (push_ok h).keeps

theorem push_plain {w : Width} {v : Word} {s : State}
    (h : s.canWrite w ((s.regs.sp - 2#16) &&& 0xFFFE#16) = true) :
    push w v s =
      .ok ((s.setSp (s.regs.sp - 2#16)).storeAt w ((s.regs.sp - 2#16) &&& 0xFFFE#16) v) :=
  memWrite_plain (s := s.setSp (s.regs.sp - 2#16)) h

/-- Everything a pop can do: a load at SP, and SP two higher. -/
theorem pop_ok {s t : State} {v : Word} (h : pop s = .ok (v, t)) :
    ∃ u, memRead .word s.regs.sp s = .ok (v, u) ∧ Quiet s u ∧ t = u.setSp (s.regs.sp + 2#16) := by
  obtain ⟨⟨v', u⟩, h1, h⟩ := bind_eq_ok.mp h
  cases h
  exact ⟨u, h1, memRead_quiet h1, rfl⟩

theorem pop_keeps {s t : State} {v : Word} (h : pop s = .ok (v, t)) : Keeps s t := by
  obtain ⟨u, _, hu, rfl⟩ := pop_ok h
  exact hu.keeps.trans (.setSp _ _)

theorem pop_plain {s : State} (h : s.canRead .word s.regs.sp = true) :
    pop s = .ok (s.valueAt .word s.regs.sp, s.setSp (s.regs.sp + 2#16)) := by
  simp [pop, memRead_plain h]

/-! ### Interrupts -/

/-- The return from an interrupt keeps what instructions keep. -/
theorem returnFromInterrupt_keeps {s t : State} (h : returnFromInterrupt s = .ok t) :
    Keeps s t := by
  obtain ⟨⟨sr, s1⟩, h1, h⟩ := bind_eq_ok.mp h
  obtain ⟨⟨pc, s2⟩, h2, h⟩ := bind_eq_ok.mp h
  cases h
  exact (((pop_keeps h1).trans (pop_keeps h2)).trans (.setSr _ _)).trans (.setPc _ _)

/-- What an interrupt entry keeps: the invariants and what it does not own. The GIE history is
cleared. -/
theorem interruptEntry_ok {q : IrqSource} {m : Bool} {s t : State}
    (h : interruptEntry q m s = .ok t) :
    ∃ u, Keeps s u ∧ t = u.setHistory false false := by
  obtain ⟨s1, h1, h⟩ := bind_eq_ok.mp h
  obtain ⟨s2, h2, h⟩ := bind_eq_ok.mp h
  obtain ⟨⟨v, s3⟩, h3, h⟩ := bind_eq_ok.mp h
  cases h
  refine ⟨s3.setPc v, ?_, rfl⟩
  refine ((((push_keeps h1).trans (push_keeps h2)).trans ?_).trans (.setSr _ _)).trans
    ((memRead_quiet h3).keeps.trans (.setPc _ _))
  exact ⟨⟨rfl, rfl, rfl, rfl, rfl⟩, fun i => i, fun i => TimerClean.acknowledge (d := s2.dev) _ i⟩

end Sys2Proof.Machine
end

