-- ==== Sys2Proof/Laws/Operands.lean ====
section
/-! SUPPORT. What operand access and the three instruction frames can do, and what they answer where
memory is plain. -/

namespace Sys2Proof.Machine

/-! ### The source -/

theorem indexedAddress_ok {base ea : Word} {s t : State}
    (h : indexedAddress base s = .ok (ea, t)) :
    t.regs = (s.setPc (s.regs.pc + 2#16)).regs ∧ t.mem = s.mem ∧ Keeps s t := by
  obtain ⟨⟨x, u⟩, h1, h⟩ := bind_eq_ok.mp h
  cases h
  obtain ⟨q, hq, rfl⟩ := fetchWord_ok h1
  exact ⟨by simp [hq.only.regs], by simp [hq.only.mem], hq.keeps.trans (.setPc _ _)⟩

theorem indexedAddress_plain {base : Word} {s : State} (h : s.canRead .word s.regs.pc = true) :
    indexedAddress base s =
      .ok (base + s.valueAt .word s.regs.pc, s.setPc (s.regs.pc + 2#16)) := by
  simp [indexedAddress, fetchWord_plain h]

theorem stepRegister_congr {s t : State} (w : Width) (r : Reg) (h : t.regs = s.regs)
    (hp : t.params = s.params) : (stepRegister w r t).regs = (stepRegister w r s).regs := by
  unfold stepRegister
  rw [State.reg_congr h]
  cases r <;> simp [State.setReg, h, hp]

/-- Everything reading a source can do: devices, PC past its extension word, its register stepped. -/
theorem readSrc_ok {w : Width} {src : Src} {s t : State} {v : Word}
    (h : readSrc w src s = .ok (v, t)) :
    t.regs = (srcAfter w src s).regs ∧ t.mem = s.mem ∧ Keeps s t := by
  have hx : ∀ (base : Word), (do
      let (ea, s) ← indexedAddress base s
      memRead w ea s) = .ok (v, t) →
      t.regs = (s.setPc (s.regs.pc + 2#16)).regs ∧ t.mem = s.mem ∧ Keeps s t := by
    intro base h
    obtain ⟨⟨ea, u⟩, h1, h⟩ := bind_eq_ok.mp h
    obtain ⟨hr, hm, hk⟩ := indexedAddress_ok h1
    have hq := memRead_quiet h
    exact ⟨hq.only.regs.trans hr, hq.only.mem.trans hm, hk.trans hq.keeps⟩
  cases src with
  | reg r => cases h; exact ⟨rfl, rfl, .refl _⟩
  | indexed r => exact hx _ h
  | symbolic => exact hx _ h
  | absolute => exact hx _ h
  | indirect r => exact ⟨(memRead_quiet h).only.regs, (memRead_quiet h).only.mem, (memRead_quiet h).keeps⟩
  | autoinc r =>
    obtain ⟨⟨v', u⟩, h1, h⟩ := bind_eq_ok.mp h
    cases h
    have hq := memRead_quiet h1
    exact ⟨stepRegister_congr _ _ hq.only.regs hq.only.params,
      by simp [stepRegister, hq.only.mem], hq.keeps.trans (.setReg _ _ _)⟩
  | immediate =>
    obtain ⟨⟨v', u⟩, h1, h⟩ := bind_eq_ok.mp h
    cases h
    obtain ⟨q, hq, rfl⟩ := fetchWord_ok h1
    exact ⟨by simp [srcAfter, hq.only.regs], by simp [hq.only.mem], hq.keeps.trans (.setPc _ _)⟩
  | const c => cases h; exact ⟨rfl, rfl, .refl _⟩

/-- Reading a source whose words are plain. -/
theorem readSrc_plain {w : Width} {src : Src} {s : State} (h : srcReady w src s = true) :
    readSrc w src s = .ok (srcValue w src s, srcAfter w src s) := by
  have hx : ∀ (base ea : Word), ea = base + s.valueAt .word s.regs.pc →
      (s.canRead .word s.regs.pc && s.canRead w ea) = true → (do
      let (ea, s) ← indexedAddress base s
      memRead w ea s) = .ok (s.valueAt w ea, s.setPc (s.regs.pc + 2#16)) := by
    intro base ea he h
    rw [Bool.and_eq_true] at h
    simp only [indexedAddress_plain h.1, ok_bind]
    rw [← he]
    exact memRead_plain (s := s.setPc (s.regs.pc + 2#16)) h.2
  cases src with
  | reg r => rfl
  | indexed r => exact hx _ _ rfl h
  | symbolic => exact hx _ _ rfl h
  | absolute => exact hx 0#16 _ (by simp [srcAddress]) h
  | indirect r => exact memRead_plain h
  | autoinc r => simp only [readSrc, memRead_plain (show s.canRead w (s.reg r) = true from h),
      ok_bind, pure_eq_ok]; rfl
  | immediate => simp only [readSrc, fetchWord_plain (show s.canRead .word s.regs.pc = true from h),
      ok_bind, pure_eq_ok]; rfl
  | const c => rfl

/-- A well-formed source leaves SR. -/
theorem srcAfter_sr (w : Width) (src : Src) (s : State) (h : src.wf = true) :
    (srcAfter w src s).regs.sr = s.regs.sr := by
  cases src with
  | autoinc r => cases r <;> first | rfl | cases h
  | _ => rfl

@[simp] theorem srcAfter_mem (w : Width) (src : Src) (s : State) :
    (srcAfter w src s).mem = s.mem := by
  cases src <;> simp [srcAfter, stepRegister]

@[simp] theorem srcAfter_params (w : Width) (src : Src) (s : State) :
    (srcAfter w src s).params = s.params := by
  cases src <;> simp [srcAfter, stepRegister]

/-! ### The destination -/

/-- Everything evaluating a destination can do. -/
theorem dstLoc_ok {bad : Fault} {dst : Dst} {s t : State} {loc : Loc}
    (h : dstLoc bad dst s = .ok (loc, t)) :
    t.regs = (dstAfter dst s).regs ∧ t.mem = s.mem ∧ Keeps s t ∧
      (∀ r, loc = .reg r ↔ dst = .reg r) := by
  have hx : ∀ (base : Word), (do
      let (ea, s) ← indexedAddress base s
      return (Loc.mem ea, s)) = Except.ok (loc, t) →
      t.regs = (s.setPc (s.regs.pc + 2#16)).regs ∧ t.mem = s.mem ∧ Keeps s t ∧
        (∀ r, loc ≠ .reg r) := by
    intro base h
    obtain ⟨⟨ea, u⟩, h1, h⟩ := bind_eq_ok.mp h
    cases h
    obtain ⟨hr, hm, hk⟩ := indexedAddress_ok h1
    exact ⟨hr, hm, hk, fun r h => by cases h⟩
  cases dst with
  | reg r => cases h; exact ⟨rfl, rfl, .refl _, fun r => by simp⟩
  | indexed r =>
    obtain ⟨h1, h2, h3, h4⟩ := hx _ h
    exact ⟨h1, h2, h3, fun r => by simp [h4 r]⟩
  | symbolic =>
    obtain ⟨h1, h2, h3, h4⟩ := hx _ h
    exact ⟨h1, h2, h3, fun r => by simp [h4 r]⟩
  | absolute =>
    obtain ⟨h1, h2, h3, h4⟩ := hx _ h
    exact ⟨h1, h2, h3, fun r => by simp [h4 r]⟩
  | unlisted => cases h

/-- Evaluating a destination whose extension word is plain. -/
theorem dstLoc_plain {bad : Fault} {dst : Dst} {s : State} (h : dstFetchable dst s = true) :
    dstLoc bad dst s = .ok (dstPlace dst s, dstAfter dst s) := by
  cases dst with
  | reg r => rfl
  | unlisted => cases h
  | absolute => simp [dstLoc, indexedAddress_plain (show s.canRead .word s.regs.pc = true from h),
      dstPlace, dstAfter]
  | _ => simp [dstLoc, indexedAddress_plain (show s.canRead .word s.regs.pc = true from h),
      dstPlace, dstAfter]

@[simp] theorem dstAfter_sr (dst : Dst) (s : State) : (dstAfter dst s).regs.sr = s.regs.sr := by
  cases dst <;> rfl

@[simp] theorem dstAfter_mem (dst : Dst) (s : State) : (dstAfter dst s).mem = s.mem := by
  cases dst <;> rfl

@[simp] theorem dstAfter_params (dst : Dst) (s : State) :
    (dstAfter dst s).params = s.params := by
  cases dst <;> rfl

/-! ### Places -/

/-- Reading a place changes devices only. -/
theorem readLoc_quiet {w : Width} {loc : Loc} {s t : State} {v : Word}
    (h : readLoc w loc s = .ok (v, t)) : Quiet s t := by
  cases loc with
  | reg r => cases h; exact .refl _
  | mem a => exact memRead_quiet h

theorem readLoc_plain {w : Width} {loc : Loc} {s : State} (h : loc.readable w s = true) :
    readLoc w loc s = .ok (loc.value w s, s) := by
  cases loc with
  | reg r => rfl
  | mem a => exact memRead_plain h

/-- Writing a register place is a register write; writing a memory place is a store there. -/
theorem writeLoc_ok {w : Width} {loc : Loc} {v : Word} {s t : State}
    (h : writeLoc w loc v s = .ok t) :
    match loc with
    | .reg r => t = s.setReg r (w.trunc v)
    | .mem a => Stores (accessBytes w a) s t := by
  cases loc with
  | reg r => cases h; rfl
  | mem a => exact memWrite_stores h

theorem writeLoc_keeps {w : Width} {loc : Loc} {v : Word} {s t : State}
    (h : writeLoc w loc v s = .ok t) : Keeps s t := by
  cases loc with
  | reg r => cases h; exact .setReg _ _ _
  | mem a => exact (memWrite_stores h).keeps

theorem writeLoc_plain {w : Width} {loc : Loc} {v : Word} {s : State}
    (h : loc.writable w s = true) : writeLoc w loc v s = .ok (loc.store w v s) := by
  cases loc with
  | reg r => rfl
  | mem a => exact memWrite_plain h

/-- The state after an effect's flags. -/
def withEffectFlags (f : Option Flags) (s : State) : State :=
  match f with
  | some f => s.setFlags f
  | none   => s

theorem applyEffect_eq (w : Width) (loc : Loc) (e : Effect) (s : State) :
    applyEffect w loc e s =
      match e.result with
      | some r => writeLoc w loc r (withEffectFlags e.flags s)
      | none   => .ok (withEffectFlags e.flags s) := rfl

theorem withEffectFlags_keeps (f : Option Flags) (s : State) : Keeps s (withEffectFlags f s) := by
  cases f with
  | none => exact .refl s
  | some f => exact .setFlags s f

theorem applyEffect_keeps {w : Width} {loc : Loc} {e : Effect} {s t : State}
    (h : applyEffect w loc e s = .ok t) : Keeps s t := by
  rw [applyEffect_eq] at h
  split at h
  · exact (withEffectFlags_keeps _ _).trans (writeLoc_keeps h)
  · cases h; exact withEffectFlags_keeps _ _

/-! ### The frames -/

/-- What a Format I instruction that reads its destination has done when it completes. -/
theorem twoOperand_ok {bad : Fault} {w : Width} {src : Src} {dst : Dst}
    {f : Word → Word → Word → Effect} {s t : State} (h : twoOperand bad w src dst f s = .ok t) :
    dstDefined s.params.r3Dst dst = true ∧ ∃ a s1 loc s2 b s3,
      readSrc w src s = .ok (a, s1) ∧ dstLoc bad dst s1 = .ok (loc, s2) ∧
        readLoc w loc s2 = .ok (b, s3) ∧ applyEffect w loc (f s3.regs.sr a b) s3 = .ok t := by
  unfold twoOperand at h
  split at h
  · rename_i hd
    obtain ⟨⟨a, s1⟩, h1, h⟩ := bind_eq_ok.mp h
    obtain ⟨⟨loc, s2⟩, h2, h⟩ := bind_eq_ok.mp h
    obtain ⟨⟨b, s3⟩, h3, h⟩ := bind_eq_ok.mp h
    exact ⟨hd, a, s1, loc, s2, b, s3, h1, h2, h3, h⟩
  · cases h

theorem twoOperand_keeps {bad : Fault} {w : Width} {src : Src} {dst : Dst}
    {f : Word → Word → Word → Effect} {s t : State} (h : twoOperand bad w src dst f s = .ok t) :
    Keeps s t := by
  obtain ⟨_, a, s1, loc, s2, b, s3, h1, h2, h3, h4⟩ := twoOperand_ok h
  exact (((readSrc_ok h1).2.2.trans (dstLoc_ok h2).2.2.1).trans (readLoc_quiet h3).keeps).trans
    (applyEffect_keeps h4)

/-- A Format I instruction that reads its destination, on operands that are ready. -/
theorem twoOperand_plain {bad : Fault} {w : Width} {src : Src} {dst : Dst}
    {f : Word → Word → Word → Effect} {s : State} {e : Effect}
    (hd : dstDefined s.params.r3Dst dst = true)
    (he : e = f (srcAfter w src s).regs.sr (srcValue w src s) (dstValue w src dst s))
    (h : operandsReady true e.result.isSome w src dst s = true) :
    twoOperand bad w src dst f s = .ok (delivered w src dst e.flags e.result s) := by
  simp only [operandsReady, Bool.not_true, Bool.false_or, Bool.and_eq_true, Bool.or_eq_true,
    Bool.not_eq_true'] at h
  obtain ⟨⟨⟨h1, h2⟩, h3⟩, h4⟩ := h
  unfold twoOperand
  simp only [hd, if_true, readSrc_plain h1, dstLoc_plain h2, readLoc_plain h3, ok_bind,
    dstAfter_sr]
  have he' : f (srcAfter w src s).regs.sr (srcValue w src s)
      ((dstPlace dst (srcAfter w src s)).value w (dstAfter dst (srcAfter w src s))) = e := he.symm
  rw [he', applyEffect_eq]
  cases hr : e.result with
  | none => cases hf : e.flags <;> simp [delivered, withEffectFlags]
  | some r =>
    have hw : (dstPlace dst (srcAfter w src s)).writable w
        (withEffectFlags e.flags (dstAfter dst (srcAfter w src s))) = true := by
      rcases h4 with h4 | h4
      · rw [hr] at h4; cases h4
      · cases e.flags <;> exact h4
    simp only [writeLoc_plain hw]
    cases e.flags <;> rfl

/-- What MOV has done when it completes. -/
theorem moveOperand_ok {bad : Fault} {w : Width} {src : Src} {dst : Dst} {s t : State}
    (h : moveOperand bad w src dst s = .ok t) :
    dst ≠ .unlisted ∧ ∃ a s1 loc s2,
      readSrc w src s = .ok (a, s1) ∧ dstLoc bad dst s1 = .ok (loc, s2) ∧
        writeLoc w loc a s2 = .ok t := by
  unfold moveOperand at h
  split at h
  · cases h
  · rename_i hd
    obtain ⟨⟨a, s1⟩, h1, h⟩ := bind_eq_ok.mp h
    obtain ⟨⟨loc, s2⟩, h2, h⟩ := bind_eq_ok.mp h
    exact ⟨hd, a, s1, loc, s2, h1, h2, h⟩

theorem moveOperand_keeps {bad : Fault} {w : Width} {src : Src} {dst : Dst} {s t : State}
    (h : moveOperand bad w src dst s = .ok t) : Keeps s t := by
  obtain ⟨_, a, s1, loc, s2, h1, h2, h3⟩ := moveOperand_ok h
  exact ((readSrc_ok h1).2.2.trans (dstLoc_ok h2).2.2.1).trans (writeLoc_keeps h3)

/-- MOV on operands that are ready. -/
theorem moveOperand_plain {bad : Fault} {w : Width} {src : Src} {dst : Dst} {s : State}
    (h : operandsReady false true w src dst s = true) :
    moveOperand bad w src dst s =
      .ok (delivered w src dst none (some (srcValue w src s)) s) := by
  simp only [operandsReady, Bool.not_true, Bool.not_false, Bool.true_or, Bool.false_or,
    Bool.and_true, Bool.and_eq_true] at h
  obtain ⟨⟨h1, h2⟩, h4⟩ := h
  have hu : dst ≠ .unlisted := by rintro rfl; cases h2
  unfold moveOperand
  simp only [hu, if_false, readSrc_plain h1, dstLoc_plain h2, ok_bind, writeLoc_plain h4]
  rfl

/-- Everything evaluating a single operand can do. -/
theorem operandLoc_ok {bad : Fault} {w : Width} {opd : Src} {s t : State} {loc : Loc}
    (h : operandLoc bad w opd s = .ok (loc, t)) :
    t.regs = (srcAfter w opd s).regs ∧ t.mem = s.mem ∧ Keeps s t ∧
      (∀ r, loc = .reg r ↔ opd = .reg r) := by
  have hx : ∀ (base : Word), (do
      let (ea, s) ← indexedAddress base s
      return (Loc.mem ea, s)) = Except.ok (loc, t) →
      t.regs = (s.setPc (s.regs.pc + 2#16)).regs ∧ t.mem = s.mem ∧ Keeps s t ∧
        (∀ r, loc ≠ .reg r) := by
    intro base h
    obtain ⟨⟨ea, u⟩, h1, h⟩ := bind_eq_ok.mp h
    cases h
    obtain ⟨hr, hm, hk⟩ := indexedAddress_ok h1
    exact ⟨hr, hm, hk, fun r h => by cases h⟩
  cases opd with
  | reg r => cases h; exact ⟨rfl, rfl, .refl _, fun r => by simp⟩
  | indexed r =>
    obtain ⟨h1, h2, h3, h4⟩ := hx _ h
    exact ⟨h1, h2, h3, fun r => by simp [h4 r]⟩
  | symbolic =>
    obtain ⟨h1, h2, h3, h4⟩ := hx _ h
    exact ⟨h1, h2, h3, fun r => by simp [h4 r]⟩
  | absolute =>
    obtain ⟨h1, h2, h3, h4⟩ := hx _ h
    exact ⟨h1, h2, h3, fun r => by simp [h4 r]⟩
  | indirect r => cases h; exact ⟨rfl, rfl, .refl _, fun r => by simp⟩
  | autoinc r =>
    cases h
    exact ⟨rfl, by simp [stepRegister], .setReg _ _ _, fun r => by simp⟩
  | immediate => cases h
  | const c => cases h

/-- Evaluating a single operand whose words are plain. -/
theorem operandLoc_plain {bad : Fault} {w : Width} {opd : Src} {s : State}
    (h : opdHasPlace opd = true) (hr : srcReady w opd s = true) :
    operandLoc bad w opd s = .ok (opdPlace opd s, srcAfter w opd s) := by
  cases opd with
  | reg r => rfl
  | indexed r =>
    simp only [srcReady, Bool.and_eq_true] at hr
    simp only [operandLoc, indexedAddress_plain hr.1, ok_bind]; rfl
  | symbolic =>
    simp only [srcReady, Bool.and_eq_true] at hr
    simp only [operandLoc, indexedAddress_plain hr.1, ok_bind]; rfl
  | absolute =>
    simp only [srcReady, Bool.and_eq_true] at hr
    simp only [operandLoc, indexedAddress_plain hr.1, ok_bind, BitVec.zero_add]; rfl
  | indirect r => rfl
  | autoinc r => rfl
  | immediate => cases h
  | const c => cases h

/-- What RRC, SWPB, RRA and SXT have done when they complete. -/
theorem oneOperand_ok {bad : Fault} {w : Width} {opd : Src} {f : Word → Word → Effect}
    {s t : State} (h : oneOperand bad w opd f s = .ok t) :
    ∃ loc s1 v s2, operandLoc bad w opd s = .ok (loc, s1) ∧ readLoc w loc s1 = .ok (v, s2) ∧
      applyEffect w loc (f s2.regs.sr v) s2 = .ok t := by
  obtain ⟨⟨loc, s1⟩, h1, h⟩ := bind_eq_ok.mp h
  obtain ⟨⟨v, s2⟩, h2, h⟩ := bind_eq_ok.mp h
  exact ⟨loc, s1, v, s2, h1, h2, h⟩

theorem oneOperand_keeps {bad : Fault} {w : Width} {opd : Src} {f : Word → Word → Effect}
    {s t : State} (h : oneOperand bad w opd f s = .ok t) : Keeps s t := by
  obtain ⟨loc, s1, v, s2, h1, h2, h3⟩ := oneOperand_ok h
  exact ((operandLoc_ok h1).2.2.1.trans (readLoc_quiet h2).keeps).trans (applyEffect_keeps h3)

/-- Memory and places are read alike before and after an operand's side effects. -/
theorem opdPlace_readable {w : Width} {opd : Src} {s : State} (h : opdHasPlace opd = true)
    (hr : srcReady w opd s = true) : (opdPlace opd s).readable w (srcAfter w opd s) = true := by
  cases opd with
  | reg r => rfl
  | indexed r => simp only [srcReady, Bool.and_eq_true] at hr; exact hr.2
  | symbolic => simp only [srcReady, Bool.and_eq_true] at hr; exact hr.2
  | absolute => simp only [srcReady, Bool.and_eq_true] at hr; exact hr.2
  | indirect r => exact hr
  | autoinc r =>
    have hp : (stepRegister w r s).params = s.params := by simp [stepRegister]
    have hr : s.canRead w (s.reg r) = true := hr
    show (stepRegister w r s).canRead w (s.reg r) = true
    rw [← hr]
    cases w <;> simp [State.canRead, State.aligned, State.isPlain, State.kindAt, accessBytes, hp]
  | immediate => cases h
  | const c => cases h

theorem opdPlace_value {w : Width} {opd : Src} {s : State} (h : opdHasPlace opd = true) :
    (opdPlace opd s).value w (srcAfter w opd s) = srcValue w opd s := by
  cases opd with
  | autoinc r =>
    have hm : (stepRegister w r s).mem = s.mem := by simp [stepRegister]
    show (stepRegister w r s).valueAt w (s.reg r) = s.valueAt w (s.reg r)
    cases w <;> simp [State.valueAt, State.byteAt, hm]
  | immediate => cases h
  | const c => cases h
  | _ => rfl

/-- Whether a write meets RAM only depends on the parameters alone. -/
theorem canWrite_congr {s t : State} (h : t.params = s.params) (w : Width) (a : Word) :
    t.canWrite w a = s.canWrite w a := by
  have hr : t.isRam = s.isRam := by
    funext x; unfold State.isRam; rw [State.kindAt_congr h]
  unfold State.canWrite State.aligned
  rw [hr, h]

/-- RRC, SWPB, RRA and SXT on an operand that is ready. -/
theorem oneOperand_plain {bad : Fault} {w : Width} {opd : Src} {f : Word → Word → Effect}
    {s : State} {fl : Option Flags} {r : Word}
    (he : f (srcAfter w opd s).regs.sr (srcValue w opd s) = ⟨some r, fl⟩)
    (h : opdReady w opd s = true) :
    oneOperand bad w opd f s = .ok (opdDelivered w opd fl r s) := by
  simp only [opdReady, Bool.and_eq_true] at h
  obtain ⟨⟨h1, h2⟩, h3⟩ := h
  unfold oneOperand
  simp only [operandLoc_plain h1 h2, readLoc_plain (opdPlace_readable h1 h2), ok_bind,
    opdPlace_value h1, he, applyEffect_eq]
  have hw : (opdPlace opd s).writable w (withEffectFlags fl (srcAfter w opd s)) = true := by
    cases hl : opdPlace opd s with
    | reg r => rfl
    | mem a =>
      rw [hl] at h3
      have : s.canWrite w a = true := h3
      show (withEffectFlags fl (srcAfter w opd s)).canWrite w a = true
      rw [canWrite_congr (s := s) _ w a, this]
      cases fl <;> simp [withEffectFlags]
  rw [writeLoc_plain hw]
  cases fl <;> rfl

end Sys2Proof.Machine
end

