-- ==== Sys2Proof/Laws/PerInstr.lean ====
section
/-! SUPPORT. Facts about an instruction as syntax, one lemma per constructor of `Instr`. -/

namespace Sys2Proof

/-- The operand of RLA and RLC is an operand of both tables. -/
theorem Dst.asSrc_wf (d : Dst) (h : d.wfBoth = true) : d.asSrc.wf = true ∧ d.wf = true := by
  cases d with
  | reg r => cases r <;> exact ⟨rfl, rfl⟩
  | indexed r => exact ⟨h, h⟩
  | symbolic => exact ⟨rfl, rfl⟩
  | absolute => exact ⟨rfl, rfl⟩
  | unlisted => cases h

end Sys2Proof

namespace Sys2Proof.Laws.CoreForm

/-- The core form of a well-formed instruction is a well-formed core instruction with the same word
(43_emulated.md R180). -/
def Statement (i : Instr) : Prop :=
  i.wf = true → i.core.wf = true ∧ i.core.core = i.core ∧ encode i.core = encode i

theorem mov (w : Width) (src : Src) (dst : Dst) : Statement (.mov w src dst) := fun h =>
  ⟨h, rfl, rfl⟩

theorem add (w : Width) (src : Src) (dst : Dst) : Statement (.add w src dst) := fun h =>
  ⟨h, rfl, rfl⟩

theorem addc (w : Width) (src : Src) (dst : Dst) : Statement (.addc w src dst) := fun h =>
  ⟨h, rfl, rfl⟩

theorem subc (w : Width) (src : Src) (dst : Dst) : Statement (.subc w src dst) := fun h =>
  ⟨h, rfl, rfl⟩

theorem sub (w : Width) (src : Src) (dst : Dst) : Statement (.sub w src dst) := fun h =>
  ⟨h, rfl, rfl⟩

theorem cmp (w : Width) (src : Src) (dst : Dst) : Statement (.cmp w src dst) := fun h =>
  ⟨h, rfl, rfl⟩

theorem dadd (w : Width) (src : Src) (dst : Dst) : Statement (.dadd w src dst) := fun h =>
  ⟨h, rfl, rfl⟩

theorem bit (w : Width) (src : Src) (dst : Dst) : Statement (.bit w src dst) := fun h =>
  ⟨h, rfl, rfl⟩

theorem bic (w : Width) (src : Src) (dst : Dst) : Statement (.bic w src dst) := fun h =>
  ⟨h, rfl, rfl⟩

theorem bis (w : Width) (src : Src) (dst : Dst) : Statement (.bis w src dst) := fun h =>
  ⟨h, rfl, rfl⟩

theorem xor (w : Width) (src : Src) (dst : Dst) : Statement (.xor w src dst) := fun h =>
  ⟨h, rfl, rfl⟩

theorem and (w : Width) (src : Src) (dst : Dst) : Statement (.and w src dst) := fun h =>
  ⟨h, rfl, rfl⟩

theorem rrc (w : Width) (opd : Src) : Statement (.rrc w opd) := fun h =>
  ⟨h, rfl, rfl⟩

theorem swpb (opd : Src) : Statement (.swpb opd) := fun h =>
  ⟨h, rfl, rfl⟩

theorem rra (w : Width) (opd : Src) : Statement (.rra w opd) := fun h =>
  ⟨h, rfl, rfl⟩

theorem sxt (opd : Src) : Statement (.sxt opd) := fun h =>
  ⟨h, rfl, rfl⟩

theorem push (w : Width) (opd : Src) : Statement (.push w opd) := fun h =>
  ⟨h, rfl, rfl⟩

theorem call (opd : Src) : Statement (.call opd) := fun h =>
  ⟨h, rfl, rfl⟩

theorem reti : Statement (.reti) := fun h =>
  ⟨h, rfl, rfl⟩

theorem jne (off : BitVec 10) : Statement (.jne off) := fun h =>
  ⟨h, rfl, rfl⟩

theorem jeq (off : BitVec 10) : Statement (.jeq off) := fun h =>
  ⟨h, rfl, rfl⟩

theorem jnc (off : BitVec 10) : Statement (.jnc off) := fun h =>
  ⟨h, rfl, rfl⟩

theorem jc (off : BitVec 10) : Statement (.jc off) := fun h =>
  ⟨h, rfl, rfl⟩

theorem jn (off : BitVec 10) : Statement (.jn off) := fun h =>
  ⟨h, rfl, rfl⟩

theorem jge (off : BitVec 10) : Statement (.jge off) := fun h =>
  ⟨h, rfl, rfl⟩

theorem jl (off : BitVec 10) : Statement (.jl off) := fun h =>
  ⟨h, rfl, rfl⟩

theorem jmp (off : BitVec 10) : Statement (.jmp off) := fun h =>
  ⟨h, rfl, rfl⟩

theorem adc (w : Width) (dst : Dst) : Statement (.adc w dst) := fun h =>
  ⟨h, rfl, rfl⟩

theorem br (src : Src) : Statement (.br src) := fun h =>
  ⟨by show (src.wf && true) = true; rw [show src.wf = true from h]; rfl, rfl, rfl⟩

theorem clr (w : Width) (dst : Dst) : Statement (.clr w dst) := fun h =>
  ⟨h, rfl, rfl⟩

theorem clrc : Statement (.clrc) := fun h =>
  ⟨h, rfl, rfl⟩

theorem clrn : Statement (.clrn) := fun h =>
  ⟨h, rfl, rfl⟩

theorem clrz : Statement (.clrz) := fun h =>
  ⟨h, rfl, rfl⟩

theorem dadc (w : Width) (dst : Dst) : Statement (.dadc w dst) := fun h =>
  ⟨h, rfl, rfl⟩

theorem dec (w : Width) (dst : Dst) : Statement (.dec w dst) := fun h =>
  ⟨h, rfl, rfl⟩

theorem decd (w : Width) (dst : Dst) : Statement (.decd w dst) := fun h =>
  ⟨h, rfl, rfl⟩

theorem dint : Statement (.dint) := fun h =>
  ⟨h, rfl, rfl⟩

theorem eint : Statement (.eint) := fun h =>
  ⟨h, rfl, rfl⟩

theorem inc (w : Width) (dst : Dst) : Statement (.inc w dst) := fun h =>
  ⟨h, rfl, rfl⟩

theorem incd (w : Width) (dst : Dst) : Statement (.incd w dst) := fun h =>
  ⟨h, rfl, rfl⟩

theorem inv (w : Width) (dst : Dst) : Statement (.inv w dst) := fun h =>
  ⟨h, rfl, rfl⟩

theorem nop : Statement (.nop) := fun h =>
  ⟨h, rfl, rfl⟩

theorem pop (w : Width) (dst : Dst) : Statement (.pop w dst) := fun h =>
  ⟨h, rfl, rfl⟩

theorem ret : Statement (.ret) := fun h =>
  ⟨h, rfl, rfl⟩

theorem rla (w : Width) (dst : Dst) : Statement (.rla w dst) := fun h =>
  ⟨by
    have k := Dst.asSrc_wf dst h
    show (dst.asSrc.wf && dst.wf) = true
    rw [k.1, k.2]; rfl, rfl, rfl⟩

theorem rlc (w : Width) (dst : Dst) : Statement (.rlc w dst) := fun h =>
  ⟨by
    have k := Dst.asSrc_wf dst h
    show (dst.asSrc.wf && dst.wf) = true
    rw [k.1, k.2]; rfl, rfl, rfl⟩

theorem sbc (w : Width) (dst : Dst) : Statement (.sbc w dst) := fun h =>
  ⟨h, rfl, rfl⟩

theorem setc : Statement (.setc) := fun h =>
  ⟨h, rfl, rfl⟩

theorem setn : Statement (.setn) := fun h =>
  ⟨h, rfl, rfl⟩

theorem setz : Statement (.setz) := fun h =>
  ⟨h, rfl, rfl⟩

theorem tst (w : Width) (dst : Dst) : Statement (.tst w dst) := fun h =>
  ⟨h, rfl, rfl⟩

end Sys2Proof.Laws.CoreForm
end

