-- ==== Sys2Proof/Tests/Slice0.lean ====
section
/-! SUPPORT. The model's own tests: ill-formed operands refused, words written out from the encoding
tables (30_encoding.md R82 to R101) and the instruction pages decoded, single instructions on small
states with the results 95_test_vectors.md and 96_derived_vectors.md give, and, for each statement with
hypotheses, a state and operands that meet them all together. -/

namespace Sys2Proof.Tests

open Sys2Proof Sys2Proof.Machine

/-! ### Well-formedness (R88, R89): each check refuses an ill-formed term -/

theorem test_wf_src_reg : Instr.wf (.mov .word (.reg .cg) (.reg .r6)) = false := by decide
theorem test_wf_src_indexed_pc : Instr.wf (.push .word (.indexed .pc)) = false := by decide
theorem test_wf_src_indexed_sr : Instr.wf (.push .word (.indexed .sr)) = false := by decide
theorem test_wf_src_indexed_cg : Instr.wf (.push .word (.indexed .cg)) = false := by decide
theorem test_wf_src_indirect_sr : Instr.wf (.add .word (.indirect .sr) (.reg .r6)) = false := by decide
theorem test_wf_src_indirect_cg : Instr.wf (.add .word (.indirect .cg) (.reg .r6)) = false := by decide
theorem test_wf_src_autoinc_pc : Instr.wf (.call (.autoinc .pc)) = false := by decide
theorem test_wf_src_autoinc_sr : Instr.wf (.call (.autoinc .sr)) = false := by decide
theorem test_wf_src_autoinc_cg : Instr.wf (.call (.autoinc .cg)) = false := by decide
theorem test_wf_dst_indexed_pc : Instr.wf (.xor .byte (.reg .r5) (.indexed .pc)) = false := by decide
theorem test_wf_dst_indexed_sr : Instr.wf (.xor .byte (.reg .r5) (.indexed .sr)) = false := by decide
theorem test_wf_dst_indexed_cg : Instr.wf (.clr .byte (.indexed .cg)) = false := by decide
theorem test_wf_both_cg : Instr.wf (.rla .word (.reg .cg)) = false := by decide
theorem test_wf_both_unlisted : Instr.wf (.rlc .word .unlisted) = false := by decide
theorem test_wf_both_indexed : Instr.wf (.rlc .word (.indexed .sr)) = false := by decide
/-- `@PC` is a form of the table by R103. -/
theorem test_wf_indirect_pc : Instr.wf (.mov .word (.indirect .pc) (.reg .cg)) = true := by decide

/-! ### Decoding: Format I words, `opcode << 12 | S-reg << 8 | Ad << 7 | B/W << 6 | As << 4 | D-reg`

0x4506 = 0100 0101 0 0 00 0110, and so on; the words of 95_test_vectors.md E1 to E26. -/

theorem test_decode_mov : decode 0x4506#16 = .ok (.mov .word (.reg .r5) (.reg .r6)) := by decide
theorem test_decode_add : decode 0x5448#16 = .ok (.add .byte (.reg .r4) (.reg .r8)) := by decide
theorem test_decode_addc :
    decode 0x6DBD#16 = .ok (.addc .word (.autoinc .r13) (.indexed .r13)) := by decide
theorem test_decode_subc : decode 0x7546#16 = .ok (.subc .byte (.reg .r5) (.reg .r6)) := by decide
theorem test_decode_sub : decode 0x8506#16 = .ok (.sub .word (.reg .r5) (.reg .r6)) := by decide
theorem test_decode_cmp :
    decode 0x96B7#16 = .ok (.cmp .word (.autoinc .r6) (.indexed .r7)) := by decide
theorem test_decode_dadd :
    decode 0xADAC#16 = .ok (.dadd .word (.indirect .r13) (.indexed .r12)) := by decide
theorem test_decode_bit : decode 0xB76F#16 = .ok (.bit .byte (.indirect .r7) (.reg .r15)) := by decide
theorem test_decode_bic : decode 0xC0B0#16 = .ok (.bic .word .immediate .symbolic) := by decide
theorem test_decode_bis : decode 0xD0F0#16 = .ok (.bis .byte .immediate .symbolic) := by decide
theorem test_decode_xor : decode 0xE506#16 = .ok (.xor .word (.reg .r5) (.reg .r6)) := by decide
theorem test_decode_and : decode 0xF580#16 = .ok (.and .word (.reg .r5) .symbolic) := by decide

/-! ### Decoding: Format II words, `000100 | op << 7 | B/W << 6 | Ad << 4 | register` (R85, R86) -/

theorem test_decode_rrc : decode 0x1010#16 = .ok (.rrc .word .symbolic) := by decide
theorem test_decode_swpb : decode 0x1085#16 = .ok (.swpb (.reg .r5)) := by decide
theorem test_decode_rra : decode 0x1145#16 = .ok (.rra .byte (.reg .r5)) := by decide
theorem test_decode_sxt : decode 0x1187#16 = .ok (.sxt (.reg .r7)) := by decide
theorem test_decode_push : decode 0x1232#16 = .ok (.push .word (.const .eight)) := by decide
theorem test_decode_call : decode 0x1295#16 = .ok (.call (.indexed .r5)) := by decide
theorem test_decode_reti : decode 0x1300#16 = .ok .reti := by decide

/-! ### Decoding: Format III words, `001 | condition << 10 | offset` (R87) -/

theorem test_decode_jne : decode 0x23FD#16 = .ok (.jne (-3#10)) := by decide
theorem test_decode_jeq : decode 0x2401#16 = .ok (.jeq 1#10) := by decide
theorem test_decode_jnc : decode 0x2A00#16 = .ok (.jnc (-512#10)) := by decide
theorem test_decode_jc : decode 0x2DFF#16 = .ok (.jc 511#10) := by decide
theorem test_decode_jn : decode 0x3000#16 = .ok (.jn 0#10) := by decide
theorem test_decode_jge : decode 0x3402#16 = .ok (.jge 2#10) := by decide
theorem test_decode_jl : decode 0x3BFE#16 = .ok (.jl (-2#10)) := by decide
theorem test_decode_jmp : decode 0x3FFF#16 = .ok (.jmp (-1#10)) := by decide

/-! ### The words of the emulated instructions (R181 to R204): the word the instruction page gives is
the encoder's, and decodes to the core form -/

/-- `i` has the word `iw`, which decodes to `i`'s core form `j`. -/
def written (i : Instr) (iw : Word) (j : Instr) : Prop := encode i = iw ∧ decode iw = .ok j ∧ i.core = j

theorem test_word_adc : written (.adc .word (.reg .r5)) 0x6305#16
    (.addc .word (.const .zero) (.reg .r5)) := ⟨by decide, by decide, rfl⟩
theorem test_word_br : written (.br (.indirect .r5)) 0x4520#16
    (.mov .word (.indirect .r5) (.reg .pc)) := ⟨by decide, by decide, rfl⟩
theorem test_word_clr : written (.clr .byte (.symbolic)) 0x43C0#16
    (.mov .byte (.const .zero) .symbolic) := ⟨by decide, by decide, rfl⟩
theorem test_word_clrc : written .clrc 0xC312#16
    (.bic .word (.const .one) (.reg .sr)) := ⟨by decide, by decide, rfl⟩
theorem test_word_clrn : written .clrn 0xC222#16
    (.bic .word (.const .four) (.reg .sr)) := ⟨by decide, by decide, rfl⟩
theorem test_word_clrz : written .clrz 0xC322#16
    (.bic .word (.const .two) (.reg .sr)) := ⟨by decide, by decide, rfl⟩
theorem test_word_dadc : written (.dadc .word (.indexed .r12)) 0xA38C#16
    (.dadd .word (.const .zero) (.indexed .r12)) := ⟨by decide, by decide, rfl⟩
theorem test_word_dec : written (.dec .word (.reg .r10)) 0x831A#16
    (.sub .word (.const .one) (.reg .r10)) := ⟨by decide, by decide, rfl⟩
theorem test_word_decd : written (.decd .byte (.reg .r10)) 0x836A#16
    (.sub .byte (.const .two) (.reg .r10)) := ⟨by decide, by decide, rfl⟩
theorem test_word_dint : written .dint 0xC232#16
    (.bic .word (.const .eight) (.reg .sr)) := ⟨by decide, by decide, rfl⟩
theorem test_word_eint : written .eint 0xD232#16
    (.bis .word (.const .eight) (.reg .sr)) := ⟨by decide, by decide, rfl⟩
theorem test_word_inc : written (.inc .word (.reg .r5)) 0x5315#16
    (.add .word (.const .one) (.reg .r5)) := ⟨by decide, by decide, rfl⟩
theorem test_word_incd : written (.incd .word (.reg .r7)) 0x5327#16
    (.add .word (.const .two) (.reg .r7)) := ⟨by decide, by decide, rfl⟩
theorem test_word_inv : written (.inv .byte (.reg .r5)) 0xE375#16
    (.xor .byte (.const .minusOne) (.reg .r5)) := ⟨by decide, by decide, rfl⟩
theorem test_word_nop : written .nop 0x4303#16
    (.mov .word (.const .zero) (.reg .cg)) := ⟨by decide, by decide, rfl⟩
theorem test_word_pop : written (.pop .word (.reg .sr)) 0x4132#16
    (.mov .word (.autoinc .sp) (.reg .sr)) := ⟨by decide, by decide, rfl⟩
theorem test_word_ret : written .ret 0x4130#16
    (.mov .word (.autoinc .sp) (.reg .pc)) := ⟨by decide, by decide, rfl⟩
theorem test_word_rla : written (.rla .word (.reg .r7)) 0x5707#16
    (.add .word (.reg .r7) (.reg .r7)) := ⟨by decide, by decide, rfl⟩
theorem test_word_rlc : written (.rlc .byte .symbolic) 0x60D0#16
    (.addc .byte .symbolic .symbolic) := ⟨by decide, by decide, rfl⟩
theorem test_word_sbc : written (.sbc .word (.reg .r5)) 0x7305#16
    (.subc .word (.const .zero) (.reg .r5)) := ⟨by decide, by decide, rfl⟩
theorem test_word_setc : written .setc 0xD312#16
    (.bis .word (.const .one) (.reg .sr)) := ⟨by decide, by decide, rfl⟩
theorem test_word_setn : written .setn 0xD222#16
    (.bis .word (.const .four) (.reg .sr)) := ⟨by decide, by decide, rfl⟩
theorem test_word_setz : written .setz 0xD322#16
    (.bis .word (.const .two) (.reg .sr)) := ⟨by decide, by decide, rfl⟩
theorem test_word_tst : written (.tst .word (.reg .r7)) 0x9307#16
    (.cmp .word (.const .zero) (.reg .r7)) := ⟨by decide, by decide, rfl⟩

/-! ### Operand forms, row by row (R88, R89, R103): `BR` and `MOV` words of 95_test_vectors.md E15 -/

theorem test_form_immediate : decode 0x4030#16 = .ok (.mov .word .immediate (.reg .pc)) := by decide
theorem test_form_symbolic : decode 0x4010#16 = .ok (.mov .word .symbolic (.reg .pc)) := by decide
theorem test_form_absolute : decode 0x4210#16 = .ok (.mov .word .absolute (.reg .pc)) := by decide
theorem test_form_indirect_pc : decode 0x4025#16 = .ok (.mov .word (.indirect .pc) (.reg .r5)) := by decide
theorem test_form_const_four : decode 0x4225#16 = .ok (.mov .word (.const .four) (.reg .r5)) := by decide
theorem test_form_const_eight : decode 0xB278#16 = .ok (.bit .byte (.const .eight) (.reg .r8)) := by decide
theorem test_form_const_minus : decode 0x4335#16 = .ok (.mov .word (.const .minusOne) (.reg .r5)) := by decide
theorem test_form_dst_absolute : decode 0x4582#16 = .ok (.mov .word (.reg .r5) .absolute) := by decide
theorem test_form_dst_unlisted : decode 0x4583#16 = .ok (.mov .word (.reg .r5) .unlisted) := by decide

/-! ### Words that are not instructions (R98, R100, R101), at the ends of each range -/

theorem test_illegal_low : decode 0x0FFF#16 = .error .unassigned := by decide
theorem test_illegal_above_reti : decode 0x1380#16 = .error .unassigned := by decide
theorem test_illegal_below_jumps : decode 0x1FFF#16 = .error .unassigned := by decide
theorem test_illegal_swpb_b : decode 0x10C0#16 = .error .byteFormOfWordInstruction := by decide
theorem test_illegal_sxt_b : decode 0x11FF#16 = .error .byteFormOfWordInstruction := by decide
theorem test_illegal_call_b : decode 0x12C5#16 = .error .byteFormOfWordInstruction := by decide
theorem test_illegal_reti_first : decode 0x1301#16 = .error .retiOperandBits := by decide
theorem test_illegal_reti_last : decode 0x137F#16 = .error .retiOperandBits := by decide

/-! ### Lengths (R96): the worked lengths of one, two and three words -/

theorem test_length_one : lengthOfWord 0x4506#16 = 1 := by decide
theorem test_length_two : lengthOfWord 0x12B0#16 = 2 := by decide
theorem test_length_three : lengthOfWord 0xC0B0#16 = 3 := by decide

/-! ### Cycles: the examples of Tables 3-14 to 3-16 (R277 to R281) -/

theorem test_cycles_format1 :
    (Instr.mov .word (.reg .r5) (.reg .r8)).cycles = 1 ∧ (Instr.br (.autoinc .r9)).cycles = 3 ∧
    (Instr.add .word .immediate .absolute).cycles = 5 ∧ (Instr.cmp .word .symbolic .symbolic).cycles = 6 ∧
    (Instr.bic .word (.const .zero) (.indexed .r4)).cycles = 4 := by decide
theorem test_cycles_format2 :
    (Instr.swpb (.autoinc .r10)).cycles = 3 ∧ (Instr.push .word .immediate).cycles = 4 ∧
    (Instr.call (.indexed .r7)).cycles = 5 ∧ Instr.reti.cycles = 5 ∧ (Instr.jmp 0#10).cycles = 2 ∧
    Instr.ret.cycles = 3 := by decide

/-! ### A small machine -/

/-- After reset, with an instruction word at 0x8000 behind PC, a stack at 0x0400 and two operands. -/
def start (r5 r6 sr : Word) : State :=
  { State.reset with
    regs := { Regs.powerUp with pc := 0x8002#16, sp := 0x0400#16, r5 := r5, r6 := r6, sr := sr } }

/-- What R6 and SR hold after an instruction that completes. -/
def r6sr : Host.Outcome State Fault Refusal → Option (Word × Word)
  | .next t => some (t.regs.r6, t.regs.sr)
  | _ => none

/-- What PC and SR hold after an instruction that completes. -/
def pcsr : Host.Outcome State Fault Refusal → Option (Word × Word)
  | .next t => some (t.regs.pc, t.regs.sr)
  | _ => none

/-- What PC and SP hold and the word at an address reads as after an instruction that completes. -/
def pcspAt (a : Word) : Host.Outcome State Fault Refusal → Option (Word × Word × Word)
  | .next t => some (t.regs.pc, t.regs.sp, t.valueAt .word a)
  | _ => none

/-- `ADD R5,R6` and so on, both operands in registers. -/
abbrev r5 : Src := .reg .r5
@[inherit_doc r5] abbrev r6 : Dst := .reg .r6

/-! ### Format I (96_derived_vectors.md 2.1, 2.2) -/

theorem test_mov : r6sr (exec (.mov .word r5 r6) (start 0xBEEF 0 0x0107)) =
    some (0xBEEF, 0x0107) := by decide
/-- `MOV.B @R5+,000Fh(R5)` as in P4: the destination's base is the incremented register (R92). -/
theorem test_mov_byte : pcspAt 0x0210 (exec (.mov .byte (.autoinc .r5) (.indexed .r5))
    { start 0x0200 0 0 with mem := [(0x0200, 0x11), (0x8002, 0x0F)] }) =
    some (0x8004, 0x0400, 0x0011) := by decide
theorem test_add : r6sr (exec (.add .word r5 r6) (start 0x0001 0x7FFF 0)) =
    some (0x8000, 0x0104) := by decide
theorem test_add_byte : r6sr (exec (.add .byte r5 r6) (start 0x0080 0x0080 0)) =
    some (0x0000, 0x0103) := by decide
theorem test_addc : r6sr (exec (.addc .word r5 r6) (start 0xFFFF 0xFFFF 0x0001)) =
    some (0xFFFF, 0x0005) := by decide
theorem test_addc_byte : r6sr (exec (.addc .byte r5 r6) (start 0x0080 0x007F 0x0001)) =
    some (0x0000, 0x0003) := by decide
theorem test_sub : r6sr (exec (.sub .word r5 r6) (start 0x0001 0x8000 0)) =
    some (0x7FFF, 0x0101) := by decide
theorem test_sub_byte : r6sr (exec (.sub .byte r5 r6) (start 0x0002 0x1201 0)) =
    some (0x00FF, 0x0004) := by decide
theorem test_subc : r6sr (exec (.subc .word r5 r6) (start 0xFFFF 0x0000 0)) =
    some (0x0000, 0x0002) := by decide
theorem test_subc_byte : r6sr (exec (.subc .byte r5 r6) (start 0x0012 0x0034 0x0001)) =
    some (0x0022, 0x0001) := by decide
theorem test_cmp : r6sr (exec (.cmp .word r5 r6) (start 0x8000 0x7FFF 0x010F)) =
    some (0x7FFF, 0x010C) := by decide
theorem test_cmp_byte : r6sr (exec (.cmp .byte r5 r6) (start 0x0102 0xFF02 0)) =
    some (0xFF02, 0x0003) := by decide
/-- V is free (R129), so SR is not compared here. -/
theorem test_dadd : (r6sr (exec (.dadd .word r5 r6) (start 0x6012 0x4137 0x0001))).map Prod.fst =
    some 0x0150 := by decide
/-- N, Z and C of `DADD` with 0x0001 + 0x9999, V drawn as 0. -/
theorem test_dadd_flags : daddEffect .word false 0#16 0#16 0x0001#16 0x9999#16 =
    ⟨some 0x0000#16, some ⟨false, false, true, true⟩⟩ := by decide
theorem test_bit : r6sr (exec (.bit .word r5 r6) (start 0x0200 0x0200 0x0100)) =
    some (0x0200, 0x0001) := by decide
theorem test_bit_byte : r6sr (exec (.bit .byte r5 r6) (start 0x0008 0xFFF7 0)) =
    some (0xFFF7, 0x0002) := by decide
theorem test_bic : r6sr (exec (.bic .word r5 r6) (start 0xFC00 0xFFFF 0x0107)) =
    some (0x03FF, 0x0107) := by decide
theorem test_bic_byte : r6sr (exec (.bic .byte r5 r6) (start 0x00F8 0x12FF 0)) =
    some (0x0007, 0) := by decide
theorem test_bis : r6sr (exec (.bis .word r5 r6) (start 0x003F 0x0000 0x0002)) =
    some (0x003F, 0x0002) := by decide
theorem test_bis_byte : r6sr (exec (.bis .byte r5 r6) (start 0x00E0 0x1200 0)) =
    some (0x00E0, 0) := by decide
/-- V of XOR is "both operands are negative" (R133). -/
theorem test_xor : r6sr (exec (.xor .word r5 r6) (start 0xFFFF 0x8000 0)) =
    some (0x7FFF, 0x0101) := by decide
theorem test_xor_byte : r6sr (exec (.xor .byte r5 r6) (start 0x00AE 0x12AE 0)) =
    some (0x0000, 0x0102) := by decide
theorem test_and : r6sr (exec (.and .word r5 r6) (start 0xAA55 0x5500 0x0100)) =
    some (0x0000, 0x0002) := by decide
theorem test_and_wide : r6sr (exec (.and .word r5 r6) (start 0xAA55 0xFFFF 0)) =
    some (0xAA55, 0x0005) := by decide

/-! ### Format II (96_derived_vectors.md 2.3, 2.4) -/

theorem test_rrc : r6sr (exec (.rrc .word (.reg .r6)) (start 0 0x0001 0x0001)) =
    some (0x8000, 0x0005) := by decide
theorem test_rrc_byte : r6sr (exec (.rrc .byte (.reg .r6)) (start 0 0x1201 0x0101)) =
    some (0x0080, 0x0005) := by decide
theorem test_swpb : r6sr (exec (.swpb (.reg .r6)) (start 0 0x1234 0x0107)) =
    some (0x3412, 0x0107) := by decide
/-- `SWPB @R6+`: the result goes back to the address before the increment. -/
theorem test_swpb_memory : pcspAt 0x0200 (exec (.swpb (.autoinc .r6))
    { start 0 0x0200 0 with mem := [(0x0200, 0x34), (0x0201, 0x12)] }) =
    some (0x8002, 0x0400, 0x3412) := by decide
theorem test_rra : r6sr (exec (.rra .word (.reg .r6)) (start 0 0x8001 0x0100)) =
    some (0xC000, 0x0005) := by decide
theorem test_rra_byte : r6sr (exec (.rra .byte (.autoinc .r6))
    { start 0 0x0203 0 with mem := [(0x0202, 0x55), (0x0203, 0x81)] }) =
    some (0x0204, 0x0005) := by decide
theorem test_sxt : r6sr (exec (.sxt (.reg .r6)) (start 0 0x1280 0x0100)) =
    some (0xFF80, 0x0005) := by decide
/-- `SXT SR`: the stored result determines SR, the flags of the instruction are lost (R27). -/
theorem test_sxt_sr : pcsr (exec (.sxt (.reg .sr)) (start 0 0 0x0080)) =
    some (0x8002, 0x0180) := by decide
theorem test_push : pcspAt 0x03FE (exec (.push .word r5) (start 0x1234 0 0)) =
    some (0x8002, 0x03FE, 0x1234) := by decide
/-- PUSH.B moves SP by 2 and writes one byte (R145). -/
theorem test_push_byte : pcspAt 0x03FE (exec (.push .byte r5) (start 0x1234 0 0)) =
    some (0x8002, 0x03FE, 0x0034) := by decide
/-- `CALL #8010h` at 0x8008 of P2: the word pushed is the address after both words. -/
theorem test_call : pcspAt 0x03FE (exec (.call .immediate)
    { start 0 0 0 with mem := [(0x8002, 0x10), (0x8003, 0x80)] }) =
    some (0x8010, 0x03FE, 0x8004) := by decide
/-- An odd target loses bit 0 (R23, R149). -/
theorem test_call_odd : pcspAt 0x03FE (exec (.call r5) (start 0x9001 0 0)) =
    some (0x9000, 0x03FE, 0x8002) := by decide
theorem test_reti : pcsr (exec .reti
    { start 0 0 0 with mem := [(0x0400, 0x18), (0x0402, 0x0B), (0x0403, 0x80)] }) =
    some (0x800A, 0x0018) := by decide

/-! ### Jumps (96_derived_vectors.md 2.6): the condition, each both ways, and the extreme offsets -/

theorem test_jne : pcsr (exec (.jne 3#10) (start 0 0 0)) = some (0x8008, 0) := by decide
theorem test_jne_not : pcsr (exec (.jne 3#10) (start 0 0 2)) = some (0x8002, 2) := by decide
theorem test_jeq : pcsr (exec (.jeq 511#10) (start 0 0 2)) = some (0x8400, 2) := by decide
theorem test_jeq_not : pcsr (exec (.jeq 3#10) (start 0 0 5)) = some (0x8002, 5) := by decide
theorem test_jnc : pcsr (exec (.jnc (-512#10)) (start 0 0 6)) = some (0x7C02, 6) := by decide
theorem test_jnc_not : pcsr (exec (.jnc 3#10) (start 0 0 1)) = some (0x8002, 1) := by decide
theorem test_jc : pcsr (exec (.jc 3#10) (start 0 0 1)) = some (0x8008, 1) := by decide
theorem test_jc_not : pcsr (exec (.jc 3#10) (start 0 0 0x0106)) = some (0x8002, 0x0106) := by decide
theorem test_jn : pcsr (exec (.jn 3#10) (start 0 0 4)) = some (0x8008, 4) := by decide
theorem test_jn_not : pcsr (exec (.jn 3#10) (start 0 0 0x0103)) = some (0x8002, 0x0103) := by decide
theorem test_jge : pcsr (exec (.jge 3#10) (start 0 0 0x0104)) = some (0x8008, 0x0104) := by decide
theorem test_jge_not : pcsr (exec (.jge 3#10) (start 0 0 4)) = some (0x8002, 4) := by decide
theorem test_jl : pcsr (exec (.jl 3#10) (start 0 0 0x0100)) = some (0x8008, 0x0100) := by decide
theorem test_jl_not : pcsr (exec (.jl 3#10) (start 0 0 0x0104)) = some (0x8002, 0x0104) := by decide
theorem test_jmp : pcsr (exec (.jmp (-1#10)) (start 0 0 0)) = some (0x8000, 0) := by decide

/-! ### Emulated instructions (96_derived_vectors.md 2.9) -/

theorem test_adc : r6sr (exec (.adc .word r6) (start 0 0x7FFF 1)) = some (0x8000, 0x0104) := by decide
theorem test_br : pcsr (exec (.br r5) (start 0x9001 0 0)) = some (0x9000, 0) := by decide
theorem test_clr : r6sr (exec (.clr .byte r6) (start 0 0xBEEF 0x010F)) =
    some (0x0000, 0x010F) := by decide
theorem test_clrc : r6sr (exec .clrc (start 0 0 0x01FF)) = some (0, 0x01FE) := by decide
theorem test_clrn : r6sr (exec .clrn (start 0 0 0x01FF)) = some (0, 0x01FB) := by decide
theorem test_clrz : r6sr (exec .clrz (start 0 0 0x01FF)) = some (0, 0x01FD) := by decide
theorem test_dadc : (r6sr (exec (.dadc .word r6) (start 0 0x1299 1))).map Prod.fst =
    some 0x1300 := by decide
theorem test_dec : r6sr (exec (.dec .byte r6) (start 0 0x1200 0)) = some (0x00FF, 0x0004) := by decide
theorem test_decd : r6sr (exec (.decd .word r6) (start 0 0x8001 0)) = some (0x7FFF, 0x0101) := by decide
theorem test_dint : r6sr (exec .dint (start 0 0 0x01FF)) = some (0, 0x01F7) := by decide
theorem test_eint : r6sr (exec .eint (start 0 0 0)) = some (0, 0x0008) := by decide
theorem test_inc : r6sr (exec (.inc .word r6) (start 0 0xFFFF 0)) = some (0x0000, 0x0003) := by decide
theorem test_incd : r6sr (exec (.incd .byte r6) (start 0 0x127F 0)) = some (0x0081, 0x0104) := by decide
theorem test_inv : r6sr (exec (.inv .word r6) (start 0 0x00AE 0)) = some (0xFF51, 0x0005) := by decide
theorem test_nop : pcsr (exec .nop (start 0 0 0x0107)) = some (0x8002, 0x0107) := by decide
theorem test_pop : r6sr (exec (.pop .word r6)
    { start 0 0 0 with mem := [(0x0400, 0x34), (0x0401, 0x12)] }) = some (0x1234, 0) := by decide
theorem test_ret : pcspAt 0 (exec .ret
    { start 0 0 0 with mem := [(0x0400, 0x0D), (0x0401, 0x80)] }) = some (0x800C, 0x0402, 0) := by decide
theorem test_rla : r6sr (exec (.rla .word r6) (start 0 0xBFFF 0)) = some (0x7FFE, 0x0101) := by decide
theorem test_rlc : r6sr (exec (.rlc .byte r6) (start 0 0x1280 1)) = some (0x0001, 0x0101) := by decide
theorem test_sbc : r6sr (exec (.sbc .word r6) (start 0 0x8000 0)) = some (0x7FFF, 0x0101) := by decide
theorem test_setc : r6sr (exec .setc (start 0 0 0)) = some (0, 0x0001) := by decide
theorem test_setn : r6sr (exec .setn (start 0 0 0)) = some (0, 0x0004) := by decide
theorem test_setz : r6sr (exec .setz (start 0 0 0)) = some (0, 0x0002) := by decide
theorem test_tst : r6sr (exec (.tst .byte r6) (start 0 0x1280 0x0102)) =
    some (0x1280, 0x0005) := by decide

/-! ### The step (P5, P6 of 95_test_vectors.md; R226 to R240) -/

/-- The ends of the vector table and the reset vector (R231, R261). -/
theorem test_vectors : vectorAddress 0 = 0xFFE0#16 ∧ vectorAddress 15 = 0xFFFE#16 ∧
    vectorAddress Config.defaults.resetVector = 0xFFFE#16 := by decide

/-- A requesting line on vector 0xFFF2, the slot 9, as P5 has it. -/
def irq : IrqSource := ⟨9, none, true, .line 0 true⟩

/-- A machine at 0x8000 with an instruction word there and the source `irq` pending. -/
def pendingAt (iw : Nat) (sr : Word) (g1 g2 : Bool) : State :=
  ({ start 0 0 sr with
      regs := { (start 0 0 sr).regs with pc := 0x8000#16 }
      g1 := g1, g2 := g2
      mem := [(0xFFF3, 0x81)]
      dev := { Devices.powerUp with lines := [⟨true, true⟩] }
      params := { Config.defaults with irqTable := [irq] } } : State).withFetchWord 16 iw

/-- The instruction after EINT executes: GIE set, history clear (R227). -/
theorem test_eint_delay : pcsr (step (pendingAt 0x4303 0x0008 false false)) =
    some (0x8002, 0x0008) := by decide
/-- Then the interrupt is accepted: PC and SR are pushed, SR cleared, PC from the vector (R230). -/
theorem test_interrupt_entry : pcspAt 0x03FE (step (pendingAt 0x4303 0x0008 true false)) =
    some (0x8100, 0x03FC, 0x8000) := by decide
/-- With CPUOFF set and the gate shut the CPU idles (R240). -/
theorem test_idle : pcsr (step (pendingAt 0x4303 0x0018 false false)) =
    some (0x8000, 0x0018) := by decide
/-- A requested reset goes before the interrupt (R226, R260). -/
theorem test_reset_first : pcsr (step { pendingAt 0x4303 0x0008 true true with
    ticks := [⟨true, [], false⟩] }) = some (0x0000, 0x0000) := by decide
/-- The first instruction after reset, where the host stores it. -/
theorem test_first_instruction :
    (step (State.reset.withFetchWord 16 0xD312) matches .next _) = true := by decide

/-! ### Witnesses: for each statement with hypotheses, inputs that meet them all together -/

/-- Whether an outcome is a next state. -/
def completes : Host.Outcome State Fault Refusal → Bool
  | .next _ => true
  | _ => false

/-- The next state of an outcome. -/
def after : Host.Outcome State Fault Refusal → State
  | .next t => t
  | _ => State.reset

theorem next_after {o : Host.Outcome State Fault Refusal} (h : completes o = true) :
    o = .next (after o) := by
  cases o with
  | next t => rfl
  | fault e => cases h
  | refused r => cases h

/-- Whether an operation succeeds. -/
def succeeds {α : Type} : Except Fault α → Bool
  | .ok _ => true
  | .error _ => false

theorem exists_ok {α : Type} {o : Except Fault α} (h : succeeds o = true) : ∃ a, o = .ok a := by
  cases o with
  | ok a => exact ⟨a, rfl⟩
  | error e => cases h

/-- `start` with a source at R5 = 0x0200, a destination at R6 = 0x0210, extension words behind PC and
two words on the stack. -/
def demo (sr : Word) : State :=
  { start 0x0200 0x0210 sr with
    mem := [(0x0200, 0x34), (0x0201, 0x12), (0x0202, 0x02), (0x0210, 0x22), (0x0211, 0x99),
      (0x0400, 0x09), (0x0402, 0x0A), (0x0403, 0x80), (0x8002, 0x02), (0x8004, 0xFE), (0x8005, 0xFF)] }

/-- A register and a memory destination, a byte at the top of memory, and R3, whose write is
dropped. -/
theorem witness_MovResult :
    formReady false true .word r5 r6 (demo 0) = true ∧
    formReady false true .word (.indexed .r5) (.indexed .r6) (demo 0) = true ∧
    formReady false true .byte .immediate .absolute
      { demo 0 with mem := [(0x8004, 0xFF), (0x8005, 0xFF)] } = true ∧
    formReady false true .word r5 (.reg .cg) (demo 0) = true := by decide

theorem witness_AddResult_add :
    formReady true true .word r5 r6 (start 0x0001 0xFFFF 1) = true ∧
    0x0001#16 = srcValue .word r5 (start 0x0001 0xFFFF 1) ∧
    0xFFFF#16 = dstValue .word r5 r6 (start 0x0001 0xFFFF 1) ∧
    0x0000#16 = BitVec.ofNat 16 ((1 + 0xFFFF + false.toNat) % 2 ^ Width.word.bits) := by decide

theorem witness_AddResult_addc :
    formReady true true .byte (.autoinc .r5) (.indexed .r6) (demo 1) = true ∧
    0x0034#16 = srcValue .byte (.autoinc .r5) (demo 1) ∧
    0x0000#16 = dstValue .byte (.autoinc .r5) (.indexed .r6) (demo 1) ∧
    0x0035#16 = BitVec.ofNat 16 ((0x34 + 0 + true.toNat) % 2 ^ Width.byte.bits) ∧
    true = srC (demo 1).regs.sr := by decide

theorem witness_SubResult_sub :
    formReady true true .word r5 r6 (start 0x0001 0x0000 0) = true ∧
    0x0001#16 = srcValue .word r5 (start 0x0001 0x0000 0) ∧
    0x0000#16 = dstValue .word r5 r6 (start 0x0001 0x0000 0) ∧
    0xFFFF#16 = BitVec.ofInt 16 (((0 : Int) - 1 - false.toNat) % 2 ^ Width.word.bits) := by decide

theorem witness_SubResult_subc :
    formReady true true .byte (.const .zero) r6 (start 0 0x1280 0) = true ∧
    0x0000#16 = srcValue .byte (.const .zero) (start 0 0x1280 0) ∧
    0x0080#16 = dstValue .byte (.const .zero) r6 (start 0 0x1280 0) ∧
    0x007F#16 = BitVec.ofInt 16 (((0x80 : Int) - 0 - true.toNat) % 2 ^ Width.byte.bits) ∧
    true = !srC (start 0 0x1280 0).regs.sr := by decide

theorem witness_CmpResult :
    formReady true false .word (.indirect .r5) (.indexed .r6) (demo 0) = true ∧
    0x1234#16 = srcValue .word (.indirect .r5) (demo 0) ∧
    0x0000#16 = dstValue .word (.indirect .r5) (.indexed .r6) (demo 0) ∧
    0xEDCC#16 = BitVec.ofInt 16 (((0 : Int) - 0x1234) % 2 ^ Width.word.bits) := by decide

theorem witness_DaddResult :
    formReady true true .word r5 r6 (start 0x0001 0x9999 1) = true ∧ 4 = bcdDigits .word ∧
    0x0001#16 = srcValue .word r5 (start 0x0001 0x9999 1) ∧
    0x9999#16 = dstValue .word r5 r6 (start 0x0001 0x9999 1) ∧
    isBcd 4 (0x0001#16).toNat = true ∧ isBcd 4 (0x9999#16).toNat = true := by decide

theorem witness_DaddOpenResult :
    formReady true true .byte r5 r6 (start 0x000A 0x0099 0) = true ∧
    (isBcd (bcdDigits .byte) (srcValue .byte r5 (start 0x000A 0x0099 0)).toNat &&
      isBcd (bcdDigits .byte) (dstValue .byte r5 r6 (start 0x000A 0x0099 0)).toNat) = false := by
  decide

theorem witness_LogicResult :
    0x8000#16 = srcValue .word r5 (start 0x8000 0xFFFF 0) ∧
    0xFFFF#16 = dstValue .word r5 r6 (start 0x8000 0xFFFF 0) ∧
    0x8000#16 = 0x8000#16 &&& 0xFFFF#16 ∧ 0x7FFF#16 = 0x8000#16 ^^^ 0xFFFF#16 ∧
    formReady true false .word r5 r6 (start 0x8000 0xFFFF 0) = true ∧
    formReady true true .word r5 r6 (start 0x8000 0xFFFF 0) = true := by decide

theorem witness_BitSetClearResult :
    formReady true true .byte (.autoinc .r5) (.indexed .r6) (demo 0) = true ∧
    0x0034#16 = srcValue .byte (.autoinc .r5) (demo 0) ∧
    0x0000#16 = dstValue .byte (.autoinc .r5) (.indexed .r6) (demo 0) := by decide

theorem witness_RrcResult :
    Src.wf (.autoinc .r5) = true ∧ opdReady .word (.autoinc .r5) (demo 1) = true ∧
    0x1234#16 = srcValue .word (.autoinc .r5) (demo 1) ∧ true = srC (demo 1).regs.sr ∧
    0x891A#16 = BitVec.ofNat 16 (true.toNat * 2 ^ (Width.word.bits - 1) + 0x1234 / 2) := by decide

theorem witness_RraResult :
    Src.wf (.reg .r6) = true ∧ opdReady .byte (.reg .r6) (start 0 0x1280 0) = true ∧
    0x0080#16 = srcValue .byte (.reg .r6) (start 0 0x1280 0) := by decide

theorem witness_SwapExtendResult :
    Src.wf (.indexed .r5) = true ∧ opdReady .word (.indexed .r5) (demo 0) = true ∧
    0x0002#16 = srcValue .word (.indexed .r5) (demo 0) := by decide

theorem witness_PushResult :
    Src.wf (.autoinc .sp) = true ∧ Src.autoinc .sp ≠ .reg .sp ∧
    srcReady .byte (.autoinc .sp) (demo 0) = true ∧ (demo 0).regs.sp.getLsbD 0 = false ∧
    (srcAfter .byte (.autoinc .sp) (demo 0)).canWrite .byte
      ((srcAfter .byte (.autoinc .sp) (demo 0)).regs.sp - 2#16) = true := by decide

theorem witness_CallResult :
    Src.wf .immediate = true ∧ srcReady .word .immediate (demo 0) = true ∧
    (demo 0).regs.sp.getLsbD 0 = false ∧
    (srcAfter .word .immediate (demo 0)).canWrite .word
      ((srcAfter .word .immediate (demo 0)).regs.sp - 2#16) = true := by decide

theorem witness_RetiResult :
    (demo 0).regs.sp.getLsbD 0 = false ∧ (demo 0).canRead .word (demo 0).regs.sp = true ∧
    (demo 0).canRead .word ((demo 0).regs.sp + 2#16) = true := by decide

theorem witness_JumpResult : (demo 0).regs.pc.getLsbD 0 = false := by decide

theorem witness_JumpAfterCmp :
    formReady true false .word r5 r6 (start 0x8000 0x7FFF 0) = true ∧
    (start 0x8000 0x7FFF 0).regs.pc.getLsbD 0 = false ∧
    0x8000#16 = srcValue .word r5 (start 0x8000 0x7FFF 0) ∧
    0x7FFF#16 = dstValue .word r5 r6 (start 0x8000 0x7FFF 0) ∧
    exec (.cmp .word r5 r6) (start 0x8000 0x7FFF 0) =
      .next (after (exec (.cmp .word r5 r6) (start 0x8000 0x7FFF 0))) :=
  ⟨by decide, by decide, by decide, by decide, next_after (by decide)⟩

theorem witness_AdcSbcResult :
    soleReady true true .word r6 (start 0 0xFFFF 1) = true ∧
    0xFFFF#16 = soleValue .word r6 (start 0 0xFFFF 1) ∧ true = srC (start 0 0xFFFF 1).regs.sr ∧
    soleReady true true .byte r6 (start 0 0x1200 0) = true ∧
    0x0000#16 = soleValue .byte r6 (start 0 0x1200 0) ∧ false = srC (start 0 0x1200 0).regs.sr := by
  decide

theorem witness_IncrementResult :
    soleReady true true .word (.indexed .r6) (demo 0) = true ∧
    0x0000#16 = soleValue .word (.indexed .r6) (demo 0) ∧
    soleReady true true .byte r6 (start 0 0x12FF 0) = true ∧
    0x00FF#16 = soleValue .byte r6 (start 0 0x12FF 0) := by decide

theorem witness_DecrementResult :
    soleReady true true .word r6 (start 0 0x8001 0) = true ∧
    0x8001#16 = soleValue .word r6 (start 0 0x8001 0) ∧
    soleReady true true .byte r6 (start 0 0x1200 0) = true ∧
    0x0000#16 = soleValue .byte r6 (start 0 0x1200 0) := by decide

theorem witness_InvClrTstResult :
    0xFFFF#16 = soleValue .word r6 (start 0 0xFFFF 0) ∧
    soleReady true true .word r6 (start 0 0xFFFF 0) = true ∧
    soleReady false true .word r6 (start 0 0xFFFF 0) = true ∧
    soleReady true false .word r6 (start 0 0xFFFF 0) = true := by decide

/-- The two ends of the range that sets V, and a memory operand both of whose extension words name
one address. -/
theorem witness_RotateLeftResult :
    r6.wfBoth = true ∧ formReady true true .word r6.asSrc r6 (start 0 0x4000 1) = true ∧
    0x4000#16 = srcValue .word r6.asSrc (start 0 0x4000 1) ∧
    0x4000#16 = dstValue .word r6.asSrc r6 (start 0 0x4000 1) ∧ true = srC (start 0 0x4000 1).regs.sr ∧
    0x00C0#16 = srcValue .byte r6.asSrc (start 0 0x12C0 0) ∧
    0x00C0#16 = dstValue .byte r6.asSrc r6 (start 0 0x12C0 0) ∧
    Dst.symbolic.wfBoth = true ∧ formReady true true .word Dst.symbolic.asSrc .symbolic
      { demo 0 with mem := [(0x8002, 0x04), (0x8004, 0x02), (0x8006, 0x34)] } = true ∧
    0x0034#16 = srcValue .word Dst.symbolic.asSrc
      { demo 0 with mem := [(0x8002, 0x04), (0x8004, 0x02), (0x8006, 0x34)] } ∧
    0x0034#16 = dstValue .word Dst.symbolic.asSrc .symbolic
      { demo 0 with mem := [(0x8002, 0x04), (0x8004, 0x02), (0x8006, 0x34)] } := by decide

theorem witness_DadcResult :
    soleReady true true .word r6 (start 0 0x9999 1) = true ∧ 4 = bcdDigits .word ∧
    0x9999#16 = soleValue .word r6 (start 0 0x9999 1) ∧ isBcd 4 (0x9999#16).toNat = true ∧
    true = srC (start 0 0x9999 1).regs.sr := by decide

theorem witness_PopResult :
    formReady false true .word (.autoinc .sp) (.indexed .sp) (demo 0) = true ∧
    formReady false true .byte (.autoinc .sp) (.reg .sr) (demo 0) = true := by decide

theorem witness_BranchReturnNop :
    Src.wf .absolute = true ∧ srcReady .word .absolute (demo 0) = true ∧
    (demo 0).canRead .word (demo 0).regs.sp = true := by decide

theorem witness_StatusBitResult :
    (demo 0x01FF).params.srReserved = .hardwired0 ∧ (demo 0x01FF).regs.sr &&& 0xFE00#16 = 0#16 := by
  decide

theorem witness_UndefinedFormsStop_operand :
    opdHasPlace .immediate = false ∧ opdHasPlace (.const .four) = false := by decide
theorem witness_UndefinedFormsStop_destination :
    (demo 0).params.r3Dst = .fault := by decide

theorem witness_StepOwnedFrame :
    exec .reti (demo 0) = .next (after (exec .reti (demo 0))) := next_after (by decide)

theorem witness_RegisterFrame :
    exec (.mov .word (.autoinc .r5) r6) (demo 0) =
      .next (after (exec (.mov .word (.autoinc .r5) r6) (demo 0))) ∧
    Reg.r4 ≠ .pc ∧ Reg.r4 ≠ .sr ∧ Reg.r4 ∉ writes (.mov .word (.autoinc .r5) r6) ∧
    Reg.sp ∉ writes (.mov .word (.autoinc .r5) r6) :=
  ⟨next_after (by decide), by decide, by decide, by decide, by decide⟩

theorem witness_ModeBitsFrame :
    exec (.rrc .word (.reg .r6)) (demo 0x0018) =
      .next (after (exec (.rrc .word (.reg .r6)) (demo 0x0018))) ∧
    Reg.sr ∉ writes (.rrc .word (.reg .r6)) := ⟨next_after (by decide), by decide⟩

theorem witness_StatusFrame :
    exec (.swpb (.reg .r6)) (demo 0x0107) = .next (after (exec (.swpb (.reg .r6)) (demo 0x0107))) ∧
    Reg.sr ∉ writes (.swpb (.reg .r6)) ∧ writesFlags (.swpb (.reg .r6)) = false :=
  ⟨next_after (by decide), by decide, by decide⟩

theorem witness_PcAdvance :
    Instr.wf (.add .word (.indexed .r5) (.indexed .r6)) = true ∧
    sequential (.add .word (.indexed .r5) (.indexed .r6)) = true ∧
    (demo 0).regs.pc.getLsbD 0 = false ∧
    exec (.add .word (.indexed .r5) (.indexed .r6)) (demo 0) =
      .next (after (exec (.add .word (.indexed .r5) (.indexed .r6)) (demo 0))) :=
  ⟨by decide, by decide, by decide, next_after (by decide)⟩

/-- A destination in memory: 0x0210 - 2 = 0x020E, and the byte after the word. -/
theorem witness_MemoryFrameStoring :
    ∃ t a s1 loc s2, exec (.add .word (.indirect .r5) (.indexed .r6))
        { demo 0 with mem := [(0x0200, 0x34), (0x8002, 0xFE), (0x8003, 0xFF)] } = .next t ∧
      readSrc .word (.indirect .r5)
        { demo 0 with mem := [(0x0200, 0x34), (0x8002, 0xFE), (0x8003, 0xFF)] } = .ok (a, s1) ∧
      dstLoc (.unmappedAccess 0#16 State.reset) (.indexed .r6) s1 = .ok (loc, s2) ∧ loc = .mem 0x020E#16 ∧
      0x0210#16 ∉ accessBytes .word 0x020E#16 :=
  ⟨_, _, _, _, _, next_after (by decide), rfl, rfl, by decide, by decide⟩

/-- DADD, from the state in which its two free values have been drawn, with a register destination. -/
theorem witness_MemoryFrameStoring_dadd :
    ∃ t a s1 loc s2, exec (.dadd .word r5 r6) (demo 0) = .next t ∧
      readSrc .word r5 { demo 0 with freeCount := (demo 0).freeCount + 2 } = .ok (a, s1) ∧
      dstLoc (.unmappedAccess 0#16 State.reset) r6 s1 = .ok (loc, s2) ∧ loc = .reg .r6 :=
  ⟨_, _, _, _, _, next_after (by decide), rfl, rfl, rfl⟩

theorem witness_MemoryFrameSingle :
    ∃ t loc s1, exec (.swpb (.autoinc .r5)) (demo 0) = .next t ∧
      operandLoc (.unmappedAccess 0#16 State.reset) .word (.autoinc .r5) (demo 0) = .ok (loc, s1) ∧
      loc = .mem 0x0200#16 ∧ 0x0202#16 ∉ accessBytes .word 0x0200#16 :=
  ⟨_, _, _, next_after (by decide), rfl, rfl, by decide⟩

theorem witness_MemoryFrameStack :
    ∃ t a s1, exec (.push .byte (.autoinc .sp)) (demo 0) = .next t ∧
      readSrc .byte (.autoinc .sp) (demo 0) = .ok (a, s1) ∧
      0x0401#16 ∉ accessBytes .byte ((s1.regs.sp - 2#16) &&& 0xFFFE#16) :=
  ⟨_, _, _, next_after (by decide), rfl, by decide⟩

theorem witness_MemoryFrameNone :
    exec (.cmp .word (.autoinc .r5) (.indexed .r6)) (demo 0) =
      .next (after (exec (.cmp .word (.autoinc .r5) (.indexed .r6)) (demo 0))) :=
  next_after (by decide)

/-- A machine at 0x8000 with an instruction word there and nothing pending. -/
def ready (iw : Nat) (sr : Word) : State :=
  ({ demo sr with regs := { (demo sr).regs with pc := 0x8000#16 } } : State).withFetchWord 16 iw

/-- The script used up, and one answer of the platform left: a maskable source requests where the
gate says `may` and the platform declines. -/
theorem witness_StepRunsDecoded :
    (atBoundary (ready 0x4506 0) (ready 0x4506 0) false ∧
      (ready 0x4506 0).requesting ((ready 0x4506 0).maskableAccepted false) = none ∧
      srCpuOff (ready 0x4506 0).regs.sr = false ∧
      (ready 0x4506 0).canRead .word (ready 0x4506 0).regs.pc = true ∧
      decode ((ready 0x4506 0).valueAt .word (ready 0x4506 0).regs.pc) =
        .ok (.mov .word r5 r6)) ∧
    (atBoundary { pendingAt 0x4506 0 true false with ticks := [⟨false, [], false⟩] }
        { pendingAt 0x4506 0 true false with ticks := [] } false ∧
      ({ pendingAt 0x4506 0 true false with ticks := [] } : State).requesting
        (({ pendingAt 0x4506 0 true false with ticks := [] } : State).maskableAccepted
          false) = none ∧
      srCpuOff ({ pendingAt 0x4506 0 true false with ticks := [] } : State).regs.sr = false ∧
      ({ pendingAt 0x4506 0 true false with ticks := [] } : State).canRead .word 0x8000#16 = true ∧
      decode (({ pendingAt 0x4506 0 true false with ticks := [] } : State).valueAt .word
        0x8000#16) = .ok (.mov .word r5 r6)) :=
  ⟨⟨.inl ⟨rfl, rfl, rfl⟩, by decide, by decide, by decide, by decide⟩,
    .inr ⟨_, [], rfl, rfl, rfl, rfl⟩, by decide, by decide, by decide, by decide⟩

/-- The script used up, and one answer of the platform left; the ends of the ranges of words. -/
theorem witness_IllegalWordsStop_boundary :
    (atBoundary (ready 0x0FFF 0) (ready 0x0FFF 0) false ∧
      (ready 0x0FFF 0).requesting ((ready 0x0FFF 0).maskableAccepted false) = none ∧
      srCpuOff (ready 0x0FFF 0).regs.sr = false ∧
      (ready 0x0FFF 0).canRead .word (ready 0x0FFF 0).regs.pc = true) ∧
    (atBoundary { pendingAt 0x0FFF 0 true false with ticks := [⟨false, [], false⟩] }
        { pendingAt 0x0FFF 0 true false with ticks := [] } false ∧
      ({ pendingAt 0x0FFF 0 true false with ticks := [] } : State).requesting
        (({ pendingAt 0x0FFF 0 true false with ticks := [] } : State).maskableAccepted
          false) = none ∧
      srCpuOff ({ pendingAt 0x0FFF 0 true false with ticks := [] } : State).regs.sr = false ∧
      ({ pendingAt 0x0FFF 0 true false with ticks := [] } : State).canRead .word 0x8000#16 = true ∧
      0x0FFF#16 = ({ pendingAt 0x0FFF 0 true false with ticks := [] } : State).valueAt .word
        0x8000#16) :=
  ⟨⟨.inl ⟨rfl, rfl, rfl⟩, by decide, by decide, by decide⟩,
    .inr ⟨_, [], rfl, rfl, rfl, rfl⟩, by decide, by decide, by decide, by decide⟩

theorem witness_IllegalWordsStop_words :
    0x0FFF#16 = (ready 0x0FFF 0).valueAt .word (ready 0x0FFF 0).regs.pc ∧
    0x1380#16 = (ready 0x1380 0).valueAt .word (ready 0x1380 0).regs.pc ∧
    0x10C0#16 = (ready 0x10C0 0).valueAt .word (ready 0x10C0 0).regs.pc ∧
    0x11FF#16 = (ready 0x11FF 0).valueAt .word (ready 0x11FF 0).regs.pc ∧
    0x12FF#16 = (ready 0x12FF 0).valueAt .word (ready 0x12FF 0).regs.pc ∧
    0x1301#16 = (ready 0x1301 0).valueAt .word (ready 0x1301 0).regs.pc ∧
    0x1000#16 = (ready 0x1000 0).valueAt .word (ready 0x1000 0).regs.pc := by decide

theorem witness_ResetStep :
    ∃ tk rest, ({ demo 0x0018 with ticks := [⟨true, [.pins .p1 0xFF#8], false⟩] } : State).ticks =
        tk :: rest ∧ tk.reset = true ∧
      (({ demo 0x0018 with ticks := rest } : State).events tk.events).canRead .word
        (vectorAddress (({ demo 0x0018 with ticks := rest } : State).events
          tk.events).params.resetVector) = true :=
  ⟨_, _, rfl, rfl, by decide⟩

/-- A maskable source admitted, and none admitted; one source of each kind. -/
theorem witness_PriorityRule :
    (⟨2, none, true, .port .p1⟩ : IrqSource).request = .port .p1 ∧
    (⟨9, none, true, .timerOverflow⟩ : IrqSource).request = .timerOverflow ∧
    (⟨8, none, true, .capture 1 false⟩ : IrqSource).request = .capture 1 false ∧
    irq.request = .line 0 true ∧
    (pendingAt 0x4303 0 false false).requesting true = some irq ∧ irq.maskable = true ∧
    (pendingAt 0x4303 0 false false).requesting false = none := by decide

/-- The decoded instruction stands at PC. -/
theorem stands {i : Instr} {s : State} (iw : Word)
    (h : (fetchWord s).toOption.map Prod.fst = some iw) (hd : decode iw = .ok i) :
    instructionAt i s := by
  unfold instructionAt
  cases hf : fetchWord s with
  | error e => rw [hf] at h; cases h
  | ok p =>
    rw [hf] at h
    obtain ⟨a, t⟩ := p
    cases h
    exact ⟨a, t, rfl, hd⟩

theorem witness_GieDelay_set :
    executeOne (ready 0xD232 0) = .next (after (executeOne (ready 0xD232 0))) ∧
    instructionAt (.bis .word (.const .eight) (.reg .sr)) (ready 0xD232 0) ∧
    srGie (ready 0xD232 0).regs.sr = false ∧
    srGie (after (executeOne (ready 0xD232 0))).regs.sr = true ∧
    atBoundary (after (executeOne (ready 0xD232 0))) (after (executeOne (ready 0xD232 0))) false ∧
    (after (executeOne (ready 0xD232 0))).requesting false = none ∧
    srCpuOff (after (executeOne (ready 0xD232 0))).regs.sr = false :=
  ⟨next_after (by decide), stands 0xD232#16 (by decide) (by decide), by decide, by decide,
    .inl ⟨by decide, rfl, rfl⟩, by decide, by decide⟩

/-- `DINT` at 0x8000 and `NOP` behind it. -/
def dintNop : State :=
  { ready 0xC232 0x0008 with mem := [(0x8000, 0x32), (0x8001, 0xC2), (0x8002, 0x03), (0x8003, 0x43)] }

/-- What the first of the two leaves, after a boundary at which a pin of P1 has risen. -/
def dintNop1 : State :=
  ({ after (executeOne dintNop) with ticks := [] } : State).events [.pins .p1 0x01#8]

/-- `DINT` with one answer of the platform behind it: a pin rises between the two instructions. -/
theorem witness_DintWindow_events :
    let s : State := { dintNop with ticks := [⟨false, [.pins .p1 0x01#8], true⟩] }
    executeOne s = .next (after (executeOne s)) ∧
    instructionAt (.bic .word (.const .eight) (.reg .sr)) s ∧
    atBoundary (after (executeOne s)) dintNop1 true ∧
    executeOne dintNop1 = .next (after (executeOne dintNop1)) ∧
    instructionAt (.mov .word (.const .zero) (.reg .cg)) dintNop1 ∧
    srGie (after (executeOne s)).regs.sr = false ∧
    srGie (after (executeOne dintNop1)).regs.sr = false :=
  ⟨next_after (by decide), stands 0xC232#16 (by decide) (by decide),
    .inr ⟨⟨false, [.pins .p1 0x01#8], true⟩, [], by decide, rfl, rfl, by decide⟩,
    next_after (by decide), stands 0x4303#16 (by decide) (by decide), by decide, by decide⟩

theorem witness_DintWindow :
    executeOne dintNop = .next (after (executeOne dintNop)) ∧
    instructionAt (.bic .word (.const .eight) (.reg .sr)) dintNop ∧
    srGie dintNop.regs.sr = true ∧ srGie (after (executeOne dintNop)).regs.sr = false ∧
    atBoundary (after (executeOne dintNop)) (after (executeOne dintNop)) false ∧
    executeOne (after (executeOne dintNop)) = .next (after (executeOne (after (executeOne dintNop)))) ∧
    instructionAt (.mov .word (.const .zero) (.reg .cg)) (after (executeOne dintNop)) ∧
    srGie (after (executeOne (after (executeOne dintNop)))).regs.sr = false :=
  ⟨next_after (by decide), stands 0xC232#16 (by decide) (by decide), by decide, by decide,
    .inl ⟨by decide, rfl, rfl⟩, next_after (by decide), stands 0x4303#16 (by decide) (by decide),
    by decide⟩

theorem witness_GieDelay_reti :
    executeOne (ready 0x1300 0) = .next (after (executeOne (ready 0x1300 0))) ∧
    instructionAt .reti (ready 0x1300 0) ∧
    srGie (after (executeOne (ready 0x1300 0))).regs.sr = true :=
  ⟨next_after (by decide), stands 0x1300#16 (by decide) (by decide), by decide⟩

theorem witness_InterruptEntryResult :
    atBoundary (pendingAt 0x4303 0x0008 true false) (pendingAt 0x4303 0x0008 true false) false ∧
    Inv (pendingAt 0x4303 0x0008 true false) ∧
    (pendingAt 0x4303 0x0008 true false).requesting
      ((pendingAt 0x4303 0x0008 true false).maskableAccepted false) = some irq ∧
    (pendingAt 0x4303 0x0008 true false).canWrite .word 0x03FE#16 = true ∧
    (pendingAt 0x4303 0x0008 true false).canWrite .word 0x03FC#16 = true ∧
    ((((pendingAt 0x4303 0x0008 true false).setSp 0x03FC#16).storeAt .word 0x03FE#16
      0x8000#16).storeAt .word 0x03FC#16 0x0008#16).canRead .word irq.vector = true :=
  ⟨.inl ⟨rfl, rfl, rfl⟩, ⟨by decide, by decide, by decide, fun _ => by decide⟩, by decide,
    by decide, by decide, by decide⟩

/-- The machine after the entry of `irq`. -/
def served : State :=
  match interruptEntry irq true (pendingAt 0x4303 0x0008 true false) with
  | .ok t    => t
  | .error _ => State.reset

/-- The routine has changed memory elsewhere, its registers and the devices. -/
theorem witness_RetiUndoesEntry :
    ∃ t r : State, Inv (pendingAt 0x4303 0x0008 true false) ∧
      (pendingAt 0x4303 0x0008 true false).canWrite .word 0x03FE#16 = true ∧
      (pendingAt 0x4303 0x0008 true false).canWrite .word 0x03FC#16 = true ∧
      interruptEntry irq true (pendingAt 0x4303 0x0008 true false) = .ok t ∧
      r.regs.sp = t.regs.sp ∧ r.params = t.params ∧
      r.valueAt .word t.regs.sp = t.valueAt .word t.regs.sp ∧
      r.valueAt .word (t.regs.sp + 2#16) = t.valueAt .word (t.regs.sp + 2#16) ∧ r.mem ≠ t.mem :=
  ⟨served, served.storeAt .word 0x0200#16 0x1234#16, ⟨by decide, by decide, by decide,
    fun _ => by decide⟩, by decide, by decide, rfl, by decide, by decide, by decide, by decide,
    by decide⟩

/-- A line, a block whose flag is set, and a port. -/
theorem witness_FlagClearing :
    irq.request = .line 0 true ∧ irq.pending (pendingAt 0x4303 0 true false).dev = true ∧
    (⟨8, none, true, .capture 1 true⟩ : IrqSource).request = .capture 1 true ∧
    elementAt 1 Devices.powerUp.timer.blocks = some TimerBlock.powerUp ∧
    (⟨2, none, true, .port .p1⟩ : IrqSource).singleSource = false := by decide

theorem witness_IdleStep :
    atBoundary (ready 0x4303 0x0018) (ready 0x4303 0x0018) false ∧
    (ready 0x4303 0x0018).requesting ((ready 0x4303 0x0018).maskableAccepted false) = none ∧
    srCpuOff (ready 0x4303 0x0018).regs.sr = true :=
  ⟨.inl ⟨rfl, rfl, rfl⟩, by decide, by decide⟩

theorem witness_HaltedForever : halted (ready 0x4303 0x0010) = true := by decide

theorem witness_InvStep :
    Inv (ready 0x1205 0) ∧ step (ready 0x1205 0) = .next (after (step (ready 0x1205 0))) :=
  ⟨⟨by decide, by decide, by decide, fun _ => by decide⟩, next_after (by decide)⟩

/-- A map with the port P1, Timer_A at 0x0160, ROM from 0xC000 and a hole. -/
def mapped (sr : Word) : State :=
  { demo sr with
    params := { Config.defaults with
      memmap := [⟨0x0021, 0x0021, .device (.port .p1 .output)⟩, ⟨0x0020, 0x0020, .device (.port .p1 .input)⟩,
        ⟨0x0160, 0x0161, .device .tactl⟩, ⟨0x0162, 0x0163, .device (.tacctl 0)⟩,
        ⟨0x0200, 0x9FFF, .ram⟩, ⟨0xC000, 0xFFFF, .rom⟩] } }

theorem witness_TimerInvStep :
    TimerInv (mapped 0) ∧
    step { mapped 0 with regs := { (mapped 0).regs with pc := 0x0200#16 }
                         mem := [(0x0200, 0x03), (0x0201, 0x43)] } =
      .next (after (step { mapped 0 with regs := { (mapped 0).regs with pc := 0x0200#16 }
                                         mem := [(0x0200, 0x03), (0x0201, 0x43)] })) :=
  ⟨⟨by decide, by decide⟩, next_after (by decide)⟩

theorem witness_ReadAfterWrite :
    (demo 0).mem.wf = true ∧ (demo 0).canWrite .word 0xFFFE#16 = true ∧
    (demo 0).canWrite .byte 0xFFFF#16 = true := by decide

theorem witness_AccessFaults :
    (0x0201#16).getLsbD 0 = true ∧ (mapped 0).params.misaligned = .fault ∧
    (mapped 0).aligned .word 0xBFFE#16 = true ∧
    (mapped 0).kindAt (accessAt .word 0xBFFE#16) = .unmapped ∧
    (mapped 0).aligned .byte 0xFFFF#16 = true ∧
    (mapped 0).kindAt (accessAt .byte 0xFFFF#16) = .rom ∧
    memWrite .byte 0xFFFF#16 0x0001#16 (mapped 0) =
      .error (.writeToReadOnly 0xFFFF#16 (mapped 0)) := by decide

/-- A map with boundaries at odd addresses: a device, ROM and a hole above RAM or a device. -/
def split : State :=
  { State.reset with params := { Config.defaults with
      memmap := [⟨0x0300, 0x0300, .ram⟩, ⟨0x0301, 0x0301, .rom⟩,
        ⟨0x0302, 0x0302, .device (.port .p1 .output)⟩, ⟨0x0303, 0x0303, .rom⟩,
        ⟨0x0304, 0x0304, .device (.port .p1 .output)⟩, ⟨0x0305, 0x0305, .ram⟩,
        ⟨0x0306, 0x0306, .ram⟩, ⟨0x0307, 0x0307, .device (.port .p1 .output)⟩,
        ⟨0x0308, 0x0308, .device (.port .p1 .output)⟩, ⟨0x030A, 0x030A, .rom⟩] } }

theorem witness_AccessFaults_upper :
    split.aligned .word 0x0300#16 = true ∧
    split.kindAt (accessAt .word 0x0300#16) = .ram ∧
    split.kindAt (accessAt .word 0x0300#16 + 1#16) = .rom ∧
    split.kindAt (accessAt .word 0x0302#16) = .device (.port .p1 .output) ∧
    split.kindAt (accessAt .word 0x0302#16 + 1#16) = .rom ∧
    split.kindAt (accessAt .word 0x0308#16) = .device (.port .p1 .output) ∧
    split.kindAt (accessAt .word 0x0308#16 + 1#16) = .unmapped ∧
    split.kindAt (accessAt .word 0x030A#16) ≠ .unmapped ∧
    split.kindAt (accessAt .word 0x030A#16 + 1#16) = .unmapped := by decide

/-- The words at 0x0304 and 0x0306: each byte of `0x1234` goes to what the map has there (R55). -/
theorem test_split_word :
    (memWrite .word 0x0304#16 0x1234#16 split).toOption.map
      (fun t => (t.dev.p1.output, t.mem)) = some (0x34#8, [(0x0305, 0x12#8)]) ∧
    (memWrite .word 0x0306#16 0x1234#16 split).toOption.map
      (fun t => (t.dev.p1.output, t.mem)) = some (0x12#8, [(0x0306, 0x34#8)]) := by decide

theorem witness_DeviceOperand_split :
    (0x0304#16).getLsbD 0 = false ∧ split.kindAt 0x0304#16 = .device (.port .p1 .output) ∧
    split.kindAt (0x0304#16 + 1#16) = .ram ∧ (0x0306#16).getLsbD 0 = false ∧
    split.kindAt 0x0306#16 = .ram ∧
    split.kindAt (0x0306#16 + 1#16) = .device (.port .p1 .output) := by decide

/-- The fault of an outcome. -/
def faultOf : Host.Outcome State Fault Refusal → Option Fault
  | .fault f => some f
  | _ => none

/-- The outcomes of 96_derived_vectors.md 2.5: PC and all state as before the instruction. -/
theorem test_decode_faults :
    faultOf (step (ready 0x1380 0)) =
      some (.illegalInstruction 0x8000#16 0x1380#16 (ready 0x1380 0)) ∧
    faultOf (step (ready 0x1030 0)) =
      some (.unpredictable 0x8000#16 0x1030#16 (ready 0x1030 0)) := by decide

/-- What an instruction did before it faulted stays made (R222): R5 is stepped, PC past the extension
word of the destination, which is a hole of the map. -/
theorem test_fault_state :
    (match exec (.mov .word (.autoinc .r5) .absolute)
        { mapped 0 with mem := [(0x8003, 0xA0)] } with
      | .fault f => some (f.state.regs.r5, f.state.regs.pc)
      | _ => none) = some (0x0202, 0x8004) := by decide
/-- A word is one access: where only its low byte is RAM, neither byte is stored (R55). -/
theorem test_no_half_store :
    (match memWrite .word 0x0300#16 0x1234#16 split with
      | .error f => some (f.state.mem)
      | .ok _ => none) = some [] := by decide

theorem witness_PortRegisters :
    (∃ t, memWrite .byte 0x0021#16 0x12FF#16 (mapped 0) = .ok t) ∧
    (∃ t, memWrite .byte 0x0020#16 0x00FF#16 (mapped 0) = .ok t) ∧
    (mapped 0).kindAt 0x0021#16 = .device (.port .p1 .output) ∧
    (mapped 0).kindAt 0x0020#16 = .device (.port .p1 .input) ∧ (mapped 0).busTicks = [] ∧
    (0 : Nat) < 8 ∧ (7 : Nat) < 8 ∧ ((mapped 0).dev.port .p1).sel.getLsbD 7 = false ∧
    ((mapped 0).dev.port .p1).sel2.getLsbD 7 = false :=
  ⟨exists_ok (by decide), exists_ok (by decide), by decide, by decide, rfl, by decide, by decide, rfl,
    rfl⟩

/-- `MOV R5,&0160h` and the like, on TACTL. -/
theorem witness_DeviceOperand :
    Reg.r5 ≠ .pc ∧ Reg.r5 ≠ .cg ∧
    ({ mapped 0 with mem := [(0x8002, 0x60), (0x8003, 0x01)] } : State).canRead .word 0x8002#16 = true ∧
    0x0160#16 = ({ mapped 0 with mem := [(0x8002, 0x60), (0x8003, 0x01)] } : State).valueAt .word 0x8002#16 ∧
    (mapped 0).kindAt 0x0160#16 = .device .tactl ∧ (0x0160#16).getLsbD 0 = false ∧
    (mapped 0).kindAt (0x0160#16 + 1#16) = .device .tactl := by decide

theorem witness_TimerRegisters :
    (∃ t, memWrite .word 0x0160#16 0xFFFF#16 (mapped 0) = .ok t) ∧
    (∃ t, memWrite .word 0x0162#16 0xFFFF#16 (mapped 0) = .ok t) ∧
    (0x0160#16).getLsbD 0 = false ∧ (0x0162#16).getLsbD 0 = false ∧ (mapped 0).busTicks = [] ∧
    (mapped 0).kindAt 0x0160#16 = .device .tactl ∧
    (mapped 0).kindAt 0x0162#16 = .device (.tacctl 0) ∧
    (mapped 0).kindAt (0x0160#16 + 1#16) = .device .tactl ∧
    (mapped 0).kindAt (0x0162#16 + 1#16) = .device (.tacctl 0) ∧
    elementAt 0 (mapped 0).dev.timer.blocks = some TimerBlock.powerUp ∧
    true = (!(mapped 0).dev.timer.ctl.getLsbD 5 && !(mapped 0).dev.timer.ctl.getLsbD 4) ∧
    false = (!(0x0010#16).getLsbD 5 && !(0x0010#16).getLsbD 4) :=
  ⟨exists_ok (by decide), exists_ok (by decide), by decide, by decide, rfl, by decide, by decide, by decide,
    by decide, rfl, by decide, by decide⟩

/-- Timer_A as TACTL and the TACCTL of block 1 have it. -/
def timerAt (tactl tacctl1 : Word) : Devices :=
  { Devices.powerUp with timer := ⟨tactl, [TimerBlock.powerUp, { TimerBlock.powerUp with ctl := tacctl1 }]⟩ }

/-- A halted timer sets no flag and moves no output; in up mode it does (R241, R243, R244). -/
theorem test_timer_mode :
    (timerAt 0x0000 0x0020).event false .timerReturnsToZero = timerAt 0x0000 0x0020 ∧
    (timerAt 0x0000 0x0020).event false (.timerCountsTo 1) = timerAt 0x0000 0x0020 ∧
    (timerAt 0x0010 0x0020).event false .timerReturnsToZero = timerAt 0x0011 0x0020 ∧
    ((elementAt 1 ((timerAt 0x0010 0x0020).event false (.timerCountsTo 1)).timer.blocks).map
      TimerBlock.out) = some true := by decide
/-- No capture without CAP and CMx, so no COV (R242). -/
theorem test_capture_overflow :
    (timerAt 0x0010 0x4000).event false (.captureOverflow 1) = timerAt 0x0010 0x4000 ∧
    (timerAt 0x0010 0x0100).event false (.captureOverflow 1) = timerAt 0x0010 0x0100 ∧
    (timerAt 0x0000 0x4100).event false (.captureOverflow 1) = timerAt 0x0000 0x4102 := by decide

theorem witness_PortEdge : (0 : Nat) < 8 ∧ (7 : Nat) < 8 := by decide

theorem witness_DecodeEncode :
    Instr.wf (.rlc .byte .symbolic) = true ∧ Instr.wf (.xor .word (.const .minusOne) (.indexed .r15)) = true ∧
    Instr.wf (.jmp (-512#10)) = true := by decide

theorem witness_EncodeDecode :
    decode 0x1000#16 = .ok (.rrc .word (.reg .pc)) ∧
    decode 0xFFFF#16 = .ok (.and .byte (.autoinc .r15) (.indexed .r15)) := by decide

end Sys2Proof.Tests
end

section
/-! PROOF. The results of the Format I instructions but DADD (40_double_operand.md R123 to R128, R130 to
R134). What each instruction computes is said as a statement about numbers or bits; the frame of
Laws/Operands.lean delivers it. -/

namespace Sys2Proof.Proofs.DoubleOperand

open Sys2Proof.Machine

/-! ### The frames on operands that are ready -/

theorem formReady_iff {reads writes : Bool} {w : Width} {src : Src} {dst : Dst} {s : State} :
    formReady reads writes w src dst s = true ↔
      src.wf = true ∧ dst.wf = true ∧ (reads = true → dstDefined s.params.r3Dst dst = true) ∧
        operandsReady reads writes w src dst s = true := by
  cases reads <;> simp [formReady, and_assoc]

/-- An instruction that runs in the frame of R120 completes, on operands that are ready, with what it
computes from SR and the two operands. -/
theorem exec_of_twoOperand {i : Instr} {bad : Fault} {w : Width} {src : Src} {dst : Dst}
    {f : Word → Word → Word → Effect} {s : State} {r : Option Word} {fl : Option Flags}
    (hi : exec i s = toOutcome (twoOperand bad w src dst f s))
    (h : formReady true r.isSome w src dst s = true)
    (he : f s.regs.sr (srcValue w src s) (dstValue w src dst s) = ⟨r, fl⟩) :
    exec i s = .next (delivered w src dst fl r s) := by
  obtain ⟨hsrc, -, hdef, hops⟩ := formReady_iff.mp h
  rw [hi, toOutcome_next]
  exact twoOperand_plain (e := ⟨r, fl⟩) (hdef rfl) (by rw [srcAfter_sr w src s hsrc, he]) hops

/-! ### Addition (R124, R125) -/

/-- ADDC on n-bit operands: the sum modulo 2^n, the carry out of n bits, the overflow of the signed
sum. -/
theorem addcEffect_eq (w : Width) (c : Bool) {a b r : Word} (ha : a.toNat < 2 ^ w.bits)
    (hb : b.toNat < 2 ^ w.bits)
    (hr : r = BitVec.ofNat 16 ((a.toNat + b.toNat + c.toNat) % 2 ^ w.bits)) :
    addcEffect w c a b =
      ⟨some r, some { v := signedOverflow w (signedValue w a + signedValue w b + c.toNat)
                      n := w.msb r, z := decide (r = 0#16)
                      c := decide (2 ^ w.bits ≤ a.toNat + b.toNat + c.toNat) }⟩ := by
  have hv := addC_overflow w b a c hb ha
  rw [Int.add_comm (signedValue w b)] at hv
  rw [← hv, hr, Nat.add_comm a.toNat]
  rfl

/-- ADD is ADDC without a carry. -/
theorem addEffect_eq_addc (w : Width) (a b : Word) : addEffect w a b = addcEffect w false a b := rfl

/-! ### Subtraction (R126 to R128) -/

/-- A pending borrow is the carry's negation. -/
theorem carry_add_borrow (c : Bool) : (c.toNat : Int) + (!c).toNat = 1 := by cases c <;> rfl

/-- Adding the complement and the carry subtracts, the carry being the borrow's negation. -/
theorem sub_eq_add_complement (w : Width) (c : Bool) {a b : Word} (ha : a.toNat < 2 ^ w.bits) :
    ((b.toNat + (w.complement a).toNat + c.toNat : Nat) : Int) =
      (b.toNat : Int) - a.toNat - (!c).toNat + 2 ^ w.bits := by
  have hc := carry_add_borrow c
  rw [complement_toNat w a ha]
  push_cast [show a.toNat ≤ 2 ^ w.bits - 1 by omega, Nat.one_le_two_pow]
  linarith

/-- SUBC on n-bit operands: the difference less the borrow modulo 2^n, C where none was needed, the
overflow of the signed difference. -/
theorem subcEffect_eq (w : Width) (c : Bool) {a b r : Word} (ha : a.toNat < 2 ^ w.bits)
    (hb : b.toNat < 2 ^ w.bits)
    (hr : r = BitVec.ofInt 16 (((b.toNat : Int) - a.toNat - (!c).toNat) % 2 ^ w.bits)) :
    subcEffect w c a b =
      ⟨some r, some { v := signedOverflow w (signedValue w b - signedValue w a - (!c).toNat)
                      n := w.msb r, z := decide (r = 0#16)
                      c := decide (a.toNat + (!c).toNat ≤ b.toNat) }⟩ := by
  have hsum := sub_eq_add_complement w c (b := b) ha
  have hlt : (w.complement a).toNat < 2 ^ w.bits := trunc_lt _ _
  have hres : (addC w b (w.complement a) c).1 = r := by
    rw [hr, ← Int.add_emod_right, ← hsum]
    exact (BitVec.ofInt_natCast 16 _).symm
  have hv : (addC w b (w.complement a) c).2.v =
      signedOverflow w (signedValue w b - signedValue w a - (!c).toNat) := by
    rw [addC_overflow w b _ c hb hlt, signedValue_complement w a ha]
    congr 1
    linarith [carry_add_borrow c]
  have hc : (2 ^ w.bits ≤ b.toNat + (w.complement a).toNat + c.toNat) ↔
      a.toNat + (!c).toNat ≤ b.toNat := by
    zify at hsum ⊢
    rw [hsum]
    constructor <;> intro h <;> linarith
  rw [← hv, ← decide_eq_decide.mpr hc, ← hres]
  rfl

/-- SUB is SUBC without a borrow. -/
theorem subEffect_eq_subc (w : Width) (a b : Word) : subEffect w a b = subcEffect w true a b := rfl

/-- CMP is SUB without the store. -/
theorem cmpEffect_eq_sub (w : Width) (a b : Word) :
    cmpEffect w a b = ⟨none, (subEffect w a b).flags⟩ := rfl

/-- The difference of n-bit operands is 0 modulo 2^n exactly where they are equal. -/
theorem sub_eq_zero_iff (w : Width) {a b : Word} (ha : a.toNat < 2 ^ w.bits)
    (hb : b.toNat < 2 ^ w.bits) :
    BitVec.ofInt 16 (((b.toNat : Int) - a.toNat) % 2 ^ w.bits) = 0#16 ↔ a = b := by
  rw [← BitVec.toNat_inj, ← BitVec.toNat_inj, BitVec.toNat_ofInt]
  cases w with
  | word =>
    simp only [Width.bits, Nat.reducePow, Int.reducePow, BitVec.toNat_ofNat] at ha hb ⊢
    omega
  | byte =>
    simp only [Width.bits, Nat.reducePow, Int.reducePow, BitVec.toNat_ofNat] at ha hb ⊢
    omega

/-- SUB on n-bit operands; Z says that they are equal. -/
theorem subEffect_eq (w : Width) {a b r : Word} (ha : a.toNat < 2 ^ w.bits)
    (hb : b.toNat < 2 ^ w.bits)
    (hr : r = BitVec.ofInt 16 (((b.toNat : Int) - a.toNat) % 2 ^ w.bits)) :
    subEffect w a b =
      ⟨some r, some { v := signedOverflow w (signedValue w b - signedValue w a)
                      n := w.msb r, z := decide (a = b)
                      c := decide (a.toNat ≤ b.toNat) }⟩ := by
  have hz : decide (r = 0#16) = decide (a = b) :=
    decide_eq_decide.mpr (hr ▸ sub_eq_zero_iff w ha hb)
  rw [subEffect_eq_subc, subcEffect_eq w true ha hb (by simpa using hr), hz]
  simp

/-! ### Logic (R130 to R134) -/

/-- XOR: its result is 0 exactly where the operands are equal. -/
theorem xorEffect_eq (w : Width) (a b : Word) :
    xorEffect w a b =
      ⟨some (a ^^^ b), some { v := w.msb a && w.msb b, n := w.msb (a ^^^ b),
                              z := decide (a = b), c := decide (a ≠ b) }⟩ := by
  simp [xorEffect, logicFlags]

/-- AND with an n-bit value already truncates. -/
theorem trunc_and_of_lt (w : Width) (v : Word) {b : Word} (hb : b.toNat < 2 ^ w.bits) :
    w.trunc v &&& b = v &&& b := by
  have hself := trunc_of_lt w b hb
  cases w with
  | word => rfl
  | byte =>
    have hself : b &&& 0x00FF#16 = b := hself
    show v &&& 0x00FF#16 &&& b = v &&& b
    rw [BitVec.and_assoc, BitVec.and_comm 0x00FF#16, hself]

/-- BIC bit by bit. -/
theorem getLsbD_complement_and (w : Width) (a : Word) {b : Word} (hb : b.toNat < 2 ^ w.bits)
    (k : Nat) : (w.complement a &&& b).getLsbD k = (b.getLsbD k && !a.getLsbD k) := by
  rw [Width.complement, trunc_and_of_lt w _ hb, BitVec.getLsbD_and, BitVec.getLsbD_not]
  by_cases hk : k < 16
  · simp [hk, Bool.and_comm]
  · simp [hk, BitVec.getLsbD_of_ge b k (by omega)]

/-! ### The instructions -/

/-- Settles O1: MOV's frame delivers the source. -/
theorem movResult : Obligations.MovResult := by
  intro w src dst s h
  obtain ⟨-, -, -, hops⟩ := formReady_iff.mp h
  exact toOutcome_next.mpr (moveOperand_plain hops)

/-- Settles O2: ADDC by the adder's numbers, ADD as ADDC without a carry. -/
theorem addResult : Obligations.AddResult := by
  rintro w src dst s a b r c h rfl rfl hr
  have heff := addcEffect_eq w c (srcValue_lt w src s) (dstValue_lt w src dst s) hr
  constructor
  · rintro rfl
    exact exec_of_twoOperand rfl h (by simpa [addEffect_eq_addc] using heff)
  · rintro rfl
    exact exec_of_twoOperand rfl h heff

/-- Settles O3: SUBC as the sum with the complement, SUB as SUBC without a borrow. -/
theorem subResult : Obligations.SubResult := by
  rintro w src dst s a b r borrow h rfl rfl hr
  have ha := srcValue_lt w src s
  have hb := dstValue_lt w src dst s
  constructor
  · rintro rfl
    exact exec_of_twoOperand rfl h (subEffect_eq w ha hb (by simpa using hr))
  · rintro rfl
    exact exec_of_twoOperand rfl h (subcEffect_eq w _ ha hb hr)

/-- Settles O4: CMP as SUB without the store. -/
theorem cmpResult : Obligations.CmpResult := by
  rintro w src dst s a b r h rfl rfl hr
  have heff := subEffect_eq w (srcValue_lt w src s) (dstValue_lt w src dst s) hr
  exact exec_of_twoOperand rfl h (by rw [cmpEffect_eq_sub, heff])

/-- Settles O7: AND and BIT are their own statement; XOR's Z is equality of the operands. -/
theorem logicResult : Obligations.LogicResult := by
  rintro w src dst s a b r x rfl rfl rfl rfl
  refine ⟨fun h => ?bit, fun h => ⟨?and, ?xor⟩⟩
  case bit => exact exec_of_twoOperand rfl h rfl
  case and => exact exec_of_twoOperand rfl h rfl
  case xor => exact exec_of_twoOperand rfl h (xorEffect_eq w _ _)

/-- Settles O8: BIC's complement, masked by the destination, is the negation of every source bit. -/
theorem bitSetClearResult : Obligations.BitSetClearResult := by
  rintro w src dst s a b h rfl rfl
  constructor
  · exact ⟨_, getLsbD_complement_and w _ (dstValue_lt w src dst s), exec_of_twoOperand rfl h rfl⟩
  · refine ⟨srcValue w src s ||| dstValue w src dst s, fun k => ?_, exec_of_twoOperand rfl h rfl⟩
    rw [BitVec.getLsbD_or, Bool.or_comm]

end Sys2Proof.Proofs.DoubleOperand
end

section
/-! PROOF. The results of the Format II instructions but PUSH (41_single_operand.md R141 to R144, R146,
R147). What RRC, RRA, SWPB and SXT compute is said of the number their result stands for; the frame of
Laws/Operands.lean delivers it. CALL and RETI are the stack's push and pops in sequence. -/

namespace Sys2Proof.Proofs.SingleOperand

open Sys2Proof.Machine

/-! ### The frame on an operand that is ready -/

/-- An instruction that runs in the frame of R140 completes, on an operand that is ready, with what it
computes from SR and the operand. -/
theorem exec_of_oneOperand {i : Instr} {bad : Fault} {w : Width} {opd : Src}
    {f : Word → Word → Effect} {s : State} {r : Word} {fl : Option Flags}
    (hi : exec i s = toOutcome (oneOperand bad w opd f s)) (hwf : opd.wf = true)
    (h : opdReady w opd s = true) (he : f s.regs.sr (srcValue w opd s) = ⟨some r, fl⟩) :
    exec i s = .next (opdDelivered w opd fl r s) := by
  rw [hi, toOutcome_next]
  exact oneOperand_plain (by rw [srcAfter_sr w opd s hwf, he]) h

/-! ### Bits as numbers -/

/-- Bit 0 is the number's parity. -/
theorem getLsbD_zero_eq_odd (v : Word) : v.getLsbD 0 = decide (v.toNat % 2 = 1) :=
  Nat.testBit_zero v.toNat

theorem two_pow_bits (w : Width) : 2 ^ w.bits = 2 * 2 ^ (w.bits - 1) := by cases w <;> rfl

theorem bitAt_msb_toNat (w : Width) (b : Bool) :
    (bitAt b (w.bits - 1)).toNat = b.toNat * 2 ^ (w.bits - 1) := by
  cases w <;> cases b <;> rfl

/-- The low byte of a word as a number. -/
theorem lowByteMask_toNat (v : Word) : (v &&& 0x00FF#16).toNat = v.toNat % 256 :=
  trunc_toNat .byte v

/-! ### Shifts to the right (R141, R143) -/

/-- An n-bit value shifted right by one, with `b` entering at the MSB: what RRC and RRA store. -/
def shiftedRight (w : Width) (b : Bool) (v : Word) : Word := bitAt b (w.bits - 1) ||| (v >>> 1)

section Shift

variable {w : Width} {v : Word} (b : Bool) (hv : v.toNat < 2 ^ w.bits)
include hv

theorem half_lt : v.toNat / 2 < 2 ^ (w.bits - 1) := by
  have := two_pow_bits w
  omega

/-- The entering bit lies above the shifted value, so the two add up. -/
theorem shiftedRight_toNat :
    (shiftedRight w b v).toNat = b.toNat * 2 ^ (w.bits - 1) + v.toNat / 2 := by
  rw [shiftedRight, BitVec.toNat_or, bitAt_msb_toNat, BitVec.toNat_ushiftRight,
    Nat.shiftRight_eq_div_pow, pow_one, Nat.mul_comm]
  exact (Nat.two_pow_add_eq_or_of_lt (half_lt hv) _).symm

theorem shiftedRight_lt : (shiftedRight w b v).toNat < 2 ^ w.bits := by
  have hhalf := half_lt hv
  rw [shiftedRight_toNat b hv, two_pow_bits]
  cases b <;> simp only [Bool.toNat_true, Bool.toNat_false] <;> omega

/-- The entering bit is the result's sign. -/
theorem msb_shiftedRight : w.msb (shiftedRight w b v) = b := by
  have hhalf := half_lt hv
  rw [msb_eq w _ (shiftedRight_lt b hv), shiftedRight_toNat b hv]
  cases b with
  | true => simp
  | false => simpa using hhalf

/-- Shifting right with the sign kept halves the signed value, rounding down. -/
theorem signedValue_shiftedRight_msb :
    signedValue w (shiftedRight w (w.msb v) v) = signedValue w v / 2 := by
  have hpow : (2 : Int) ^ w.bits = 2 * 2 ^ (w.bits - 1) := by exact_mod_cast two_pow_bits w
  rw [signedValue, signedValue, msb_shiftedRight _ hv, shiftedRight_toNat _ hv, hpow]
  cases w.msb v with
  | true => push_cast [Bool.toNat_true]; simp only [if_true]; omega
  | false => simp

/-- RRC on an n-bit operand. -/
theorem rrcEffect_eq (p : RrcOverflow) :
    rrcEffect w p b v =
      ⟨some (shiftedRight w b v),
        some { v := decide (p = .legacy) && !w.msb v && b, n := b
               z := decide (shiftedRight w b v = 0#16), c := decide (v.toNat % 2 = 1) }⟩ := by
  have hn := msb_shiftedRight b hv
  unfold shiftedRight at hn ⊢
  cases p <;> simp [rrcEffect, hn, ← getLsbD_zero_eq_odd]

/-- RRA on an n-bit operand. -/
theorem rraEffect_eq :
    rraEffect w v =
      ⟨some (shiftedRight w (w.msb v) v),
        some { v := false, n := w.msb v, z := decide (shiftedRight w (w.msb v) v = 0#16)
               c := decide (v.toNat % 2 = 1) }⟩ := by
  have hn := msb_shiftedRight (w.msb v) hv
  unfold shiftedRight at hn ⊢
  simp [rraEffect, hn, ← getLsbD_zero_eq_odd]

end Shift

/-! ### Bytes of a word (R142, R144) -/

/-- SWPB: the low byte comes to the high place, the high byte to the low one. -/
theorem swpbEffect_eq (v : Word) :
    ∃ r : Word, r.toNat = (v.toNat % 256) * 256 + v.toNat / 256 ∧ swpbEffect v = ⟨some r, none⟩ := by
  refine ⟨_, ?_, rfl⟩
  have hhigh : v.toNat / 256 < 2 ^ 8 := by have := v.isLt; omega
  have hlow : v.toNat % 256 * 2 ^ 8 < 2 ^ 16 := by omega
  rw [BitVec.toNat_or, BitVec.toNat_shiftLeft, lowByteMask_toNat, BitVec.toNat_ushiftRight,
    Nat.shiftLeft_eq, Nat.mod_eq_of_lt hlow, Nat.shiftRight_eq_div_pow, Nat.mul_comm _ (2 ^ 8),
    ← Nat.two_pow_add_eq_or_of_lt hhigh, Nat.mul_comm]

/-- What SXT stores: the low byte, its sign in every bit of the high byte. -/
def signExtended (v : Word) : Word :=
  if v.getLsbD 7 then (v &&& 0x00FF#16) ||| 0xFF00#16 else v &&& 0x00FF#16

/-- Bit 7 says whether the low byte is at least 128. -/
theorem getLsbD_seven_eq (v : Word) : v.getLsbD 7 = decide (128 ≤ v.toNat % 256) := by
  rw [BitVec.getLsbD, Nat.testBit_eq_decide_div_mod_eq, decide_eq_decide]
  omega

theorem signExtended_toNat (v : Word) :
    (signExtended v).toNat = v.toNat % 256 + if 128 ≤ v.toNat % 256 then 0xFF00 else 0 := by
  have hlow : v.toNat % 256 < 2 ^ 8 := Nat.mod_lt _ (by decide)
  rw [signExtended, getLsbD_seven_eq]
  by_cases h : 128 ≤ v.toNat % 256
  · simp only [h, decide_true, if_true]
    rw [BitVec.toNat_or, lowByteMask_toNat, Nat.or_comm, Nat.add_comm]
    exact (Nat.two_pow_add_eq_or_of_lt hlow 0xFF).symm
  · simp only [h, decide_false, Bool.false_eq_true, if_false, lowByteMask_toNat, Nat.add_zero]

/-- SXT keeps the signed value of the low byte. -/
theorem signExtended_toInt (v : Word) :
    (signExtended v).toInt = signedValue .byte (Width.byte.trunc v) := by
  have hlow := trunc_toNat .byte v
  rw [signedValue_eq .byte _ (trunc_lt .byte v), hlow, BitVec.toInt_eq_toNat_cond,
    signExtended_toNat]
  simp only [Width.bits, Nat.reduceSub, Nat.reducePow, Int.reducePow]
  split_ifs <;> omega

theorem signExtended_msb (v : Word) : Width.word.msb (signExtended v) = v.getLsbD 7 := by
  rw [msb_eq .word _ (signExtended v).isLt, getLsbD_seven_eq, signExtended_toNat, decide_eq_decide]
  simp only [Width.bits, Nat.reduceSub, Nat.reducePow]
  split_ifs <;> omega

theorem signExtended_eq_zero_iff (v : Word) : signExtended v = 0#16 ↔ v.toNat % 256 = 0 := by
  rw [← BitVec.toNat_inj, signExtended_toNat, BitVec.toNat_ofNat, Nat.zero_mod]
  constructor
  · intro h
    omega
  · intro h
    simp [h]

/-- SXT: the status bits of a logic instruction are those of the low byte. -/
theorem sxtEffect_eq (v : Word) :
    sxtEffect v =
      ⟨some (signExtended v),
        some { v := false, n := v.getLsbD 7, z := decide (v.toNat % 256 = 0)
               c := decide (v.toNat % 256 ≠ 0) }⟩ := by
  have heff : sxtEffect v =
      ⟨some (signExtended v), some (logicFlags .word (signExtended v) false)⟩ := rfl
  rw [heff, logicFlags, signExtended_msb]
  simp only [ne_eq, signExtended_eq_zero_iff]

/-! ### The stack pointer (R25, R71) -/

theorem even_add_two {a : Word} (h : a.getLsbD 0 = false) : (a + 2#16).getLsbD 0 = false := by
  rw [getLsbD_zero_eq_odd, decide_eq_false_iff_not] at h ⊢
  bv_omega

theorem even_sub_two {a : Word} (h : a.getLsbD 0 = false) : (a - 2#16).getLsbD 0 = false := by
  rw [getLsbD_zero_eq_odd, decide_eq_false_iff_not] at h ⊢
  bv_omega

theorem setSp_setSp (s : State) (a b : Word) : (s.setSp a).setSp b = s.setSp b := rfl

/-- Reading a source leaves SP even: only an autoincrement of SP itself moves it. -/
theorem srcAfter_sp_even (w : Width) (src : Src) (s : State) (h : s.regs.sp.getLsbD 0 = false) :
    (srcAfter w src s).regs.sp.getLsbD 0 = false := by
  cases src with
  | autoinc r =>
    cases r with
    | sp => exact even_and _
    | _ => exact h
  | _ => exact h

/-- A push of a word at an even SP stores it two bytes lower. -/
theorem push_of_even {v : Word} {s : State} (hsp : s.regs.sp.getLsbD 0 = false)
    (h : s.canWrite .word (s.regs.sp - 2#16) = true) :
    push .word v s = .ok ((s.setSp (s.regs.sp - 2#16)).storeAt .word (s.regs.sp - 2#16) v) := by
  have heven := even_self _ (even_sub_two hsp)
  rw [push_plain (by rwa [heven]), heven]

/-- Two pops of plain words at an even SP answer those words, and SP is four higher. -/
theorem pop_pop_of_even {s : State} (hsp : s.regs.sp.getLsbD 0 = false)
    (h1 : s.canRead .word s.regs.sp = true) (h2 : s.canRead .word (s.regs.sp + 2#16) = true) :
    pop s = .ok (s.valueAt .word s.regs.sp, s.setSp (s.regs.sp + 2#16)) ∧
      pop (s.setSp (s.regs.sp + 2#16)) =
        .ok (s.valueAt .word (s.regs.sp + 2#16), s.setSp (s.regs.sp + 4#16)) := by
  have hmid : (s.setSp (s.regs.sp + 2#16)).regs.sp = s.regs.sp + 2#16 :=
    even_self _ (even_add_two hsp)
  refine ⟨pop_plain h1, ?_⟩
  rw [pop_plain (by rw [hmid]; exact h2), hmid, setSp_setSp, BitVec.add_assoc]
  rfl

/-! ### The instructions -/

/-- Settles O9: the carry shifted in above the halved operand. -/
theorem rrcResult : Obligations.RrcResult := by
  rintro w opd s a r c hwf h rfl rfl rfl
  have ha := srcValue_lt w opd s
  have hr : BitVec.ofNat 16 ((srC s.regs.sr).toNat * 2 ^ (w.bits - 1) + (srcValue w opd s).toNat / 2)
      = shiftedRight w (srC s.regs.sr) (srcValue w opd s) := by
    rw [← shiftedRight_toNat _ ha, BitVec.ofNat_toNat, BitVec.setWidth_eq]
  rw [hr]
  exact exec_of_oneOperand rfl hwf h (rrcEffect_eq _ ha _)

/-- Settles O10: the sign shifted in halves the signed operand. -/
theorem rraResult : Obligations.RraResult := by
  rintro w opd s a hwf h rfl
  have ha := srcValue_lt w opd s
  exact ⟨_, shiftedRight_lt _ ha, signedValue_shiftedRight_msb ha,
    exec_of_oneOperand rfl hwf h (rraEffect_eq ha)⟩

/-- Settles O11: the two bytes exchanged, and the low byte extended by its sign. -/
theorem swapExtendResult : Obligations.SwapExtendResult := by
  rintro opd s a hwf h rfl
  obtain ⟨r, hr, heff⟩ := swpbEffect_eq (srcValue .word opd s)
  exact ⟨⟨r, hr, exec_of_oneOperand rfl hwf h heff⟩,
    ⟨_, signExtended_toInt _, exec_of_oneOperand rfl hwf h (sxtEffect_eq _)⟩⟩

/-- Settles O13: SP is still even after the operand, an autoincrement of SP included. -/
theorem callResult : Obligations.CallResult := by
  rintro opd s s1 - hsrc hsp rfl hw
  have hexec : exec (.call opd) s = execCall opd s := rfl
  have hpush := push_of_even (v := (srcAfter .word opd s).regs.pc) (srcAfter_sp_even _ _ _ hsp) hw
  simp only [hexec, execCall, toOutcome_next, readSrc_plain hsrc, hpush, ok_bind, pure_eq_ok]

/-- Settles O14: the first pop answers SR, the second PC. -/
theorem retiResult : Obligations.RetiResult := by
  intro s hsp h1 h2
  obtain ⟨hsr, hpc⟩ := pop_pop_of_even hsp h1 h2
  have hexec : exec .reti s = toOutcome (returnFromInterrupt s) := rfl
  simp only [hexec, toOutcome_next, returnFromInterrupt, hsr, hpc, ok_bind, pure_eq_ok]

end Sys2Proof.Proofs.SingleOperand
end

section
/-! PROOF. The results of the eight jumps (42_jumps.md R160 to R168). All go through the one frame `jumpIf`;
its bit-vector sum is the signed target, which is even as PC is, so the PC write drops no bit. -/

namespace Sys2Proof.Proofs.Jumps

open Sys2Proof.Machine
open Sys2Proof.Proofs.SingleOperand (getLsbD_zero_eq_odd)

/-! ### The target (R95, R160) -/

/-- The sum of bit vectors a taken jump writes is the sum of numbers modulo 2^16. -/
theorem pc_add_offset_eq_jumpTarget (off : BitVec 10) (s : State) :
    s.regs.pc + 2#16 * off.signExtend 16 = jumpTarget off s := by
  have hpc : s.regs.pc = BitVec.ofInt 16 s.regs.pc.toNat := by simp
  have htwo : 2#16 = BitVec.ofInt 16 2 := rfl
  have hoff : off.signExtend 16 = BitVec.ofInt 16 off.toInt := rfl
  rw [jumpTarget, BitVec.ofInt_add, BitVec.ofInt_mul, ← hpc, ← htwo, ← hoff]

/-- Twice an offset keeps an even address even. -/
theorem even_add_two_mul {a : Word} (d : Word) (h : a.getLsbD 0 = false) :
    (a + 2#16 * d).getLsbD 0 = false := by
  rw [getLsbD_zero_eq_odd, decide_eq_false_iff_not] at h ⊢
  bv_omega

theorem jumpTarget_even (off : BitVec 10) {s : State} (h : s.regs.pc.getLsbD 0 = false) :
    (jumpTarget off s).getLsbD 0 = false :=
  pc_add_offset_eq_jumpTarget off s ▸ even_add_two_mul _ h

/-! ### The frame (R160) -/

/-- From an even PC the jumps' frame is its specification, whatever the condition. -/
theorem jumpIf_eq_jumped (taken : Bool) (off : BitVec 10) {s : State}
    (h : s.regs.pc.getLsbD 0 = false) : jumpIf taken off s = jumped taken off s := by
  cases taken with
  | false => rfl
  | true =>
    have hpc : s.setPc (jumpTarget off s) = s.setRegs { s.regs with pc := jumpTarget off s } := by
      rw [State.setPc, even_self _ (jumpTarget_even off h)]
    simpa only [jumpIf, jumped, if_true, pc_add_offset_eq_jumpTarget] using hpc

/-- An instruction that is the jumps' frame under a condition completes as that jump. -/
theorem exec_of_jumpIf {i : Instr} {taken : Bool} {off : BitVec 10} {s : State}
    (hi : exec i s = .next (jumpIf taken off s)) (h : s.regs.pc.getLsbD 0 = false) :
    exec i s = .next (jumped taken off s) := by
  rw [hi, jumpIf_eq_jumped taken off h]

/-! ### The instructions -/

/-- JGE's condition N = V is that N and V do not differ. -/
theorem execJge_eq_not_xor (off : BitVec 10) (s : State) :
    execJge off s = .next (jumpIf (!(xor (srN s.regs.sr) (srV s.regs.sr))) off s) := by
  rw [execJge, ← Bool.bne_eq_xor, bne, Bool.not_not]

/-- Settles O15: each jump is the frame under its page's condition. -/
theorem jumpResult : Obligations.JumpResult := by
  intro off s hpc
  refine ⟨?jne, ?jeq, ?jnc, ?jc, ?jn, ?jge, ?jl, ?jmp⟩
  case jge => exact exec_of_jumpIf (execJge_eq_not_xor off s) hpc
  all_goals exact exec_of_jumpIf rfl hpc

end Sys2Proof.Proofs.Jumps
end

section
/-! PROOF. The results of the emulated instructions but ADC, SBC, DADC and POP (43_emulated.md R182 to
R186, R188 to R195, R197 to R199, R201 to R204). Each is its core instruction on operands of a special
kind, and the lemmas are about these: a small constant, -1, the destination itself, PC, SR. -/

namespace Sys2Proof.Proofs.Emulated

open Sys2Proof.Machine
open Sys2Proof.Proofs.DoubleOperand Sys2Proof.Proofs.SingleOperand

/-! ### A constant source (R33) -/

/-- A core instruction on a constant and a sole destination completes with what it computes from them:
a constant has no side effect, whichever it is. -/
theorem exec_of_constSource {i : Instr} {bad : Fault} {w : Width} {k : Const} {dst : Dst}
    {f : Word → Word → Word → Effect} {s : State} {r : Option Word} {fl : Option Flags}
    (hi : exec i s = toOutcome (twoOperand bad w (.const k) dst f s))
    (h : soleReady true r.isSome w dst s = true)
    (he : f s.regs.sr (w.trunc (constValue k)) (soleValue w dst s) = ⟨r, fl⟩) :
    exec i s = .next (soleDelivered w dst fl r s) :=
  exec_of_twoOperand (src := .const k) hi h he

theorem soleValue_lt (w : Width) (dst : Dst) (s : State) : (soleValue w dst s).toNat < 2 ^ w.bits :=
  dstValue_lt w _ dst s

theorem trunc_constZero (w : Width) : w.trunc (constValue .zero) = 0#16 := by cases w <;> rfl

theorem trunc_constOne_toNat (w : Width) : (w.trunc (constValue .one)).toNat = 1 := by
  cases w <;> rfl

theorem trunc_constTwo_toNat (w : Width) : (w.trunc (constValue .two)).toNat = 2 := by
  cases w <;> rfl

/-! ### A small number added or subtracted (R124, R127, R128) -/

/-- Every result modulo 2^n is a word. -/
theorem exists_toNat_eq_mod (w : Width) (m : Nat) : ∃ r : Word, r.toNat = m % 2 ^ w.bits := by
  refine ⟨BitVec.ofNat 16 (m % 2 ^ w.bits), ?_⟩
  rw [BitVec.toNat_ofNat]
  exact Nat.mod_eq_of_lt (Nat.lt_of_lt_of_le (Nat.mod_lt _ (by positivity)) (bits_le w))

/-- A word is its number. -/
theorem eq_ofNat_of_toNat_eq {r : Word} {m : Nat} (h : r.toNat = m) : r = BitVec.ofNat 16 m := by
  rw [← h, BitVec.ofNat_toNat, BitVec.setWidth_eq]

/-- Between 0 and 2m, m alone is 0 modulo m. -/
theorem mod_eq_zero_iff {x m : Nat} (hpos : 0 < x) (hlt : x < 2 * m) : x % m = 0 ↔ x = m := by
  by_cases hge : m ≤ x
  · rw [Nat.mod_eq_sub_mod hge, Nat.mod_eq_of_lt (by omega)]
    omega
  · rw [Nat.mod_eq_of_lt (by omega)]
    omega

/-- 1 and 2 are numbers below 2^(n-1). -/
theorem two_lt_half (w : Width) : 2 < 2 ^ (w.bits - 1) := by cases w <;> decide

section SmallNumber

variable {w : Width} {k d : Word} {n : Nat} (hk : k.toNat = n) (hn : n < 2 ^ (w.bits - 1))
include hk hn

/-- A number below 2^(n-1) is not negative. -/
theorem signedValue_of_lt_half : signedValue w k = n := by
  have hfull := two_pow_bits w
  rw [signedValue_eq w k (by omega), if_neg (by omega), hk]

variable (hd : d.toNat < 2 ^ w.bits)
include hd

/-- Adding a number that is not negative overflows from the positive numbers to the negative ones. -/
theorem signedOverflow_add_of_lt_half :
    signedOverflow w (signedValue w k + signedValue w d) =
      decide (d.toNat < 2 ^ (w.bits - 1) ∧ 2 ^ (w.bits - 1) ≤ d.toNat + n) := by
  have hfull := two_pow_bits w
  rw [signedValue_of_lt_half hk hn, signedValue_eq w d hd, signedOverflow, ← Bool.decide_or,
    decide_eq_decide]
  zify at hd hn hfull ⊢
  split_ifs <;> omega

/-- Subtracting a number that is not negative overflows from the negative numbers to the positive
ones. -/
theorem signedOverflow_sub_of_lt_half :
    signedOverflow w (signedValue w d - signedValue w k) =
      decide (2 ^ (w.bits - 1) ≤ d.toNat ∧ d.toNat < 2 ^ (w.bits - 1) + n) := by
  have hfull := two_pow_bits w
  rw [signedValue_of_lt_half hk hn, signedValue_eq w d hd, signedOverflow, ← Bool.decide_or,
    decide_eq_decide]
  zify at hd hn hfull ⊢
  split_ifs <;> omega

variable {r : Word} {v z c : Prop} [Decidable v] [Decidable z] [Decidable c]

/-- Adding a positive number: V on passing from the positive numbers to the negative ones, Z on
reaching 2^n exactly, C on reaching it. -/
theorem addEffect_of_lt_half (hpos : 0 < n) (hr : r.toNat = (d.toNat + n) % 2 ^ w.bits)
    (hv : v ↔ d.toNat < 2 ^ (w.bits - 1) ∧ 2 ^ (w.bits - 1) ≤ d.toNat + n)
    (hz : z ↔ d.toNat + n = 2 ^ w.bits) (hc : c ↔ 2 ^ w.bits ≤ d.toNat + n) :
    addEffect w k d =
      ⟨some r, some { v := decide v, n := w.msb r, z := decide z, c := decide c }⟩ := by
  have hfull := two_pow_bits w
  have hlt : k.toNat < 2 ^ w.bits := by omega
  have hr' : r = BitVec.ofNat 16 ((k.toNat + d.toNat + false.toNat) % 2 ^ w.bits) := by
    rw [hk, Nat.add_comm n]
    exact eq_ofNat_of_toNat_eq hr
  rw [addEffect_eq_addc, addcEffect_eq w false hlt hd hr']
  have hv' : signedOverflow w (signedValue w k + signedValue w d + false.toNat) = decide v := by
    simpa [hv] using signedOverflow_add_of_lt_half hk hn hd
  have hz' : r = 0#16 ↔ z := by
    rw [← BitVec.toNat_inj, hr, hz]
    exact mod_eq_zero_iff (by omega) (by omega)
  have hc' : 2 ^ w.bits ≤ k.toNat + d.toNat + false.toNat ↔ c := by
    rw [hc, hk, Nat.add_comm n]; rfl
  simp only [hv', hz', hc']

/-- Subtracting a number that is not negative: V on passing from the negative numbers to the positive
ones, Z on reaching 0, C where no borrow is needed. -/
theorem subEffect_of_lt_half (hr : r.toNat = (d.toNat + (2 ^ w.bits - n)) % 2 ^ w.bits)
    (hv : v ↔ 2 ^ (w.bits - 1) ≤ d.toNat ∧ d.toNat < 2 ^ (w.bits - 1) + n)
    (hz : z ↔ d.toNat = n) (hc : c ↔ n ≤ d.toNat) :
    subEffect w k d =
      ⟨some r, some { v := decide v, n := w.msb r, z := decide z, c := decide c }⟩ := by
  have hfull := two_pow_bits w
  have hlt : k.toNat < 2 ^ w.bits := by omega
  have hr' : r = BitVec.ofInt 16 (((d.toNat : Int) - k.toNat) % 2 ^ w.bits) := by
    have hsum : (d.toNat : Int) - k.toNat + 2 ^ w.bits = (d.toNat + (2 ^ w.bits - n) : Nat) := by
      zify [show n ≤ 2 ^ w.bits by omega, hk]
      omega
    rw [← Int.add_emod_right, hsum, eq_ofNat_of_toNat_eq hr]
    exact (BitVec.ofInt_natCast 16 _).symm
  rw [subEffect_eq w hlt hd hr']
  have hv' : signedOverflow w (signedValue w d - signedValue w k) = decide v := by
    rw [signedOverflow_sub_of_lt_half hk hn hd, decide_eq_decide, hv]
  have hz' : k = d ↔ z := by rw [← BitVec.toNat_inj, hk, hz, eq_comm]
  have hc' : k.toNat ≤ d.toNat ↔ c := by rw [hc, hk]
  simp only [hv', hz', hc']

end SmallNumber

/-- Comparing with 0: no borrow, no overflow, and the difference is the operand. -/
theorem cmpEffect_zero (w : Width) {d : Word} (hd : d.toNat < 2 ^ w.bits) :
    cmpEffect w 0#16 d =
      ⟨none, some { v := false, n := w.msb d, z := decide (d = 0#16), c := true }⟩ := by
  have hr : d.toNat = (d.toNat + (2 ^ w.bits - 0)) % 2 ^ w.bits := by
    rw [Nat.sub_zero, Nat.add_mod_right, Nat.mod_eq_of_lt hd]
  have hv : False ↔ 2 ^ (w.bits - 1) ≤ d.toNat ∧ d.toNat < 2 ^ (w.bits - 1) + 0 := by
    rw [false_iff]
    omega
  have hz : d = 0#16 ↔ d.toNat = 0 := BitVec.toNat_inj.symm
  have hc : True ↔ 0 ≤ d.toNat := iff_of_true trivial (Nat.zero_le _)
  rw [cmpEffect_eq_sub, subEffect_of_lt_half rfl (by positivity) hd hr hv hz hc]
  rfl

/-! ### The complement (R133) -/

theorem trunc_xor (w : Width) (a b : Word) : w.trunc (a ^^^ b) = w.trunc a ^^^ w.trunc b := by
  cases w with
  | word => rfl
  | byte => exact BitVec.eq_of_toNat_eq Nat.and_xor_distrib_right

/-- Exclusive or with -1 complements an n-bit value. -/
theorem trunc_minusOne_xor (w : Width) {d : Word} (hd : d.toNat < 2 ^ w.bits) :
    w.trunc (constValue .minusOne) ^^^ d = w.complement d := by
  have hnot : constValue .minusOne ^^^ d = ~~~d := BitVec.allOnes_xor
  rw [Width.complement, ← hnot, trunc_xor, trunc_of_lt w d hd]

theorem trunc_minusOne_toNat (w : Width) :
    (w.trunc (constValue .minusOne)).toNat = 2 ^ w.bits - 1 := by cases w <;> rfl

theorem msb_trunc_minusOne (w : Width) : w.msb (w.trunc (constValue .minusOne)) = true := by
  cases w <;> rfl

/-! ### An operand added to itself (R198, R199) -/

theorem half_eq_two_mul (w : Width) : 2 ^ (w.bits - 1) = 2 * 2 ^ (w.bits - 2) := by cases w <;> rfl

/-- Doubling with a carry: V on the two middle quarters of the operand's range, C its MSB. -/
theorem addcEffect_self (w : Width) (c : Bool) {d r : Word} (hd : d.toNat < 2 ^ w.bits)
    (hr : r.toNat = (2 * d.toNat + c.toNat) % 2 ^ w.bits) :
    addcEffect w c d d =
      ⟨some r, some { v := decide (2 ^ (w.bits - 2) ≤ d.toNat ∧ d.toNat < 3 * 2 ^ (w.bits - 2))
                      n := w.msb r, z := decide (r = 0#16), c := w.msb d }⟩ := by
  have hfull := two_pow_bits w
  have hhalf := half_eq_two_mul w
  have hc1 := Bool.toNat_le c
  have hr' : r = BitVec.ofNat 16 ((d.toNat + d.toNat + c.toNat) % 2 ^ w.bits) := by
    rw [← Nat.two_mul]
    exact eq_ofNat_of_toNat_eq hr
  have hv : signedOverflow w (signedValue w d + signedValue w d + c.toNat) =
      decide (2 ^ (w.bits - 2) ≤ d.toNat ∧ d.toNat < 3 * 2 ^ (w.bits - 2)) := by
    rw [signedValue_eq w d hd, signedOverflow, ← Bool.decide_or, decide_eq_decide]
    zify at hd hfull hhalf ⊢
    split_ifs <;> omega
  have hc : decide (2 ^ w.bits ≤ d.toNat + d.toNat + c.toNat) = w.msb d := by
    rw [msb_eq w d hd, decide_eq_decide]
    omega
  rw [addcEffect_eq w c hd hd hr', hv, hc]

/-! ### A destination that is PC (R23) -/

/-- MOV to PC goes to its source. -/
theorem exec_mov_pc {src : Src} {s : State} (hwf : src.wf = true)
    (hsrc : srcReady .word src s = true) :
    exec (.mov .word src (.reg .pc)) s =
      .next ((srcAfter .word src s).setPc (srcValue .word src s)) := by
  refine movResult .word src (.reg .pc) s ?_
  simp [formReady, operandsReady, hwf, hsrc, Dst.wf, dstFetchable, dstPlace, Loc.writable]

/-! ### A destination that is SR (R27) -/

/-- A word whose reserved bits are 0 where they are hardwired is stored in SR as it is. -/
theorem srStored_of_clean {p : SrReserved} {v : Word}
    (h : p = .hardwired0 → v &&& 0xFE00#16 = 0#16) : srStored p v = v := by
  cases p with
  | storage => rfl
  | hardwired0 =>
    calc v &&& 0x01FF#16 = v &&& 0xFE00#16 ||| v &&& 0x01FF#16 := by rw [h rfl, BitVec.zero_or]
      _ = v &&& (0xFE00#16 ||| 0x01FF#16) := BitVec.and_or_distrib_left.symm
      _ = v := BitVec.and_allOnes

section StatusRegister

variable {i : Instr} {k : Const} {s : State}
  (h : s.params.srReserved = .hardwired0 → s.regs.sr &&& 0xFE00#16 = 0#16)
include h

/-- BIC of a constant from SR. -/
theorem exec_of_bicSr (hi : exec i s = execBic .word (.const k) (.reg .sr) s) :
    exec i s = .next (s.setRegs { s.regs with sr := s.regs.sr &&& ~~~constValue k }) := by
  have hsr : srStored s.params.srReserved (s.regs.sr &&& ~~~constValue k) =
      s.regs.sr &&& ~~~constValue k :=
    srStored_of_clean fun hp => and_clean _ _ _ (h hp)
  rw [exec_of_constSource (w := .word) (dst := .reg .sr) hi rfl rfl, ← hsr, BitVec.and_comm]
  rfl

/-- BIS of a constant without reserved bits into SR. -/
theorem exec_of_bisSr (hi : exec i s = execBis .word (.const k) (.reg .sr) s)
    (hk : constValue k &&& 0xFE00#16 = 0#16) :
    exec i s = .next (s.setRegs { s.regs with sr := s.regs.sr ||| constValue k }) := by
  have hsr : srStored s.params.srReserved (s.regs.sr ||| constValue k) =
      s.regs.sr ||| constValue k :=
    srStored_of_clean fun hp => or_clean _ _ _ hk (h hp)
  rw [exec_of_constSource (w := .word) (dst := .reg .sr) hi rfl rfl, ← hsr, BitVec.or_comm]
  rfl

end StatusRegister

/-! ### The instructions -/

/-- Settles O19: INC and INCD as ADD of a small constant. -/
theorem incrementResult : Obligations.IncrementResult := by
  rintro w dst s d h rfl
  have hd := soleValue_lt w dst s
  have hhalf := two_lt_half w
  have hfull := two_pow_bits w
  obtain ⟨r1, hr1⟩ := exists_toNat_eq_mod w ((soleValue w dst s).toNat + 1)
  obtain ⟨r2, hr2⟩ := exists_toNat_eq_mod w ((soleValue w dst s).toNat + 2)
  refine ⟨⟨r1, hr1, exec_of_constSource rfl h ?inc⟩, ⟨r2, hr2, exec_of_constSource rfl h ?incd⟩⟩
  case inc =>
    exact addEffect_of_lt_half (trunc_constOne_toNat w) (by omega) hd (by omega) hr1 (by omega)
      (by omega) (by omega)
  case incd =>
    exact addEffect_of_lt_half (trunc_constTwo_toNat w) (by omega) hd (by omega) hr2 (by omega)
      (by omega) (by omega)

/-- Settles O20: DEC and DECD as SUB of a small constant. -/
theorem decrementResult : Obligations.DecrementResult := by
  rintro w dst s d h rfl
  have hd := soleValue_lt w dst s
  have hhalf := two_lt_half w
  obtain ⟨r1, hr1⟩ := exists_toNat_eq_mod w ((soleValue w dst s).toNat + (2 ^ w.bits - 1))
  obtain ⟨r2, hr2⟩ := exists_toNat_eq_mod w ((soleValue w dst s).toNat + (2 ^ w.bits - 2))
  refine ⟨⟨r1, hr1, exec_of_constSource rfl h ?dec⟩, ⟨r2, hr2, exec_of_constSource rfl h ?decd⟩⟩
  case dec =>
    exact subEffect_of_lt_half (trunc_constOne_toNat w) (by omega) hd hr1 (by omega) (by omega)
      (by omega)
  case decd =>
    exact subEffect_of_lt_half (trunc_constTwo_toNat w) (by omega) hd hr2 (by omega) (by omega)
      (by omega)

/-- Settles O21: XOR with -1 is the complement, CLR is MOV, TST is SUB of 0 without the store. -/
theorem invClrTstResult : Obligations.InvClrTstResult := by
  rintro w dst s d rfl
  have hd := soleValue_lt w dst s
  refine ⟨fun h => ?inv, fun h => ?clr, fun h => ?tst⟩
  case inv =>
    refine ⟨_, complement_toNat w _ hd, exec_of_constSource rfl h ?_⟩
    have hz : w.trunc (constValue .minusOne) = soleValue w dst s ↔
        (soleValue w dst s).toNat = 2 ^ w.bits - 1 := by
      rw [← BitVec.toNat_inj, trunc_minusOne_toNat, eq_comm]
    simp only [xorEffect_eq, trunc_minusOne_xor w hd, msb_trunc_minusOne, Bool.true_and, ne_eq, hz]
  case clr =>
    have hmov := movResult w (.const .zero) dst s h
    rwa [show srcValue w (.const .zero) s = 0#16 from trunc_constZero w] at hmov
  case tst =>
    refine exec_of_constSource rfl h ?_
    rw [trunc_constZero]
    exact cmpEffect_zero w hd

/-- Settles O22: RLC as ADDC of an operand to itself, RLA as RLC without a carry. -/
theorem rotateLeftResult : Obligations.RotateLeftResult := by
  rintro w dst s d c - h hsrc hdst rfl
  have hd : d.toNat < 2 ^ w.bits := hsrc ▸ srcValue_lt w dst.asSrc s
  obtain ⟨r1, hr1⟩ := exists_toNat_eq_mod w (2 * d.toNat)
  obtain ⟨r2, hr2⟩ := exists_toNat_eq_mod w (2 * d.toNat + (srC s.regs.sr).toNat)
  refine ⟨⟨r1, hr1, exec_of_twoOperand rfl h ?rla⟩, ⟨r2, hr2, exec_of_twoOperand rfl h ?rlc⟩⟩
  case rla =>
    rw [← hsrc, ← hdst, addEffect_eq_addc]
    exact addcEffect_self w false hd hr1
  case rlc =>
    rw [← hsrc, ← hdst]
    exact addcEffect_self w _ hd hr2

/-- Settles O25: each is a MOV; RET is BR from `@SP+`. -/
theorem branchReturnNop : Obligations.BranchReturnNop := by
  intro s
  refine ⟨fun src hwf hsrc => ?br, fun h => ?ret, ?nop⟩
  case br => exact exec_mov_pc hwf hsrc
  case ret => exact exec_mov_pc (src := .autoinc .sp) rfl h
  case nop => exact movResult .word (.const .zero) (.reg .cg) s rfl

/-- Settles O26: BIC and BIS on SR, whose reserved bits stay as they are. -/
theorem statusBitResult : Obligations.StatusBitResult := by
  intro s h
  refine ⟨?clrc, ?clrz, ?clrn, ?dint, ?setc, ?setz, ?setn, ?eint⟩
  case clrc => exact exec_of_bicSr (k := .one) h rfl
  case clrz => exact exec_of_bicSr (k := .two) h rfl
  case clrn => exact exec_of_bicSr (k := .four) h rfl
  case dint => exact exec_of_bicSr (k := .eight) h rfl
  case setc => exact exec_of_bisSr (k := .one) h rfl rfl
  case setz => exact exec_of_bisSr (k := .two) h rfl rfl
  case setn => exact exec_of_bisSr (k := .four) h rfl rfl
  case eint => exact exec_of_bisSr (k := .eight) h rfl rfl

end Sys2Proof.Proofs.Emulated
end

section
/-! PROOF. What an interrupt entry does to the flags of the sources (60_exceptions.md R225, R232). The
acknowledgement changes one line or one block of a single-source request, and is the identity for the
rest; what it leaves is read off the element it changes. -/

namespace Sys2Proof.Proofs.FlagClearing

open Sys2Proof.Machine

/-! ### The bit cleared -/

/-- A line with its flag cleared. -/
def lineCleared (l : Line) : Line := { l with flag := false }

/-- A block with CCIFG, TACCTLx bit 0, cleared (R242). -/
def ccifgCleared (b : TimerBlock) : TimerBlock := { b with ctl := b.ctl &&& 0xFFFE#16 }

/-- The mask of bit 0 keeps every other bit. -/
theorem getLsbD_evenMask {k : Nat} (v : Word) (hk : k ≠ 0) :
    (v &&& 0xFFFE#16).getLsbD k = v.getLsbD k := by
  have hmask : 0xFFFE#16 = ~~~BitVec.twoPow 16 0 := rfl
  rw [hmask, BitVec.getLsbD_and, BitVec.getLsbD_not, BitVec.getLsbD_twoPow]
  by_cases hlt : k < 16
  · simp [hlt, hk.symm]
  · simp [BitVec.getLsbD_of_ge v k (by omega)]

theorem ccifg_ccifgCleared (b : TimerBlock) : (ccifgCleared b).ccifg = false := even_and b.ctl

/-! ### The acknowledgement, request by request (R232) -/

section Acknowledge

variable {q : IrqSource} {k x : Nat} {d : Devices}

theorem acknowledge_of_line (hq : q.request = .line k true) :
    q.acknowledge d = { d with lines := setLine (lineCleared (d.line k)) k d.lines } := by
  simp only [IrqSource.acknowledge, hq, lineCleared]

theorem acknowledge_of_capture (hq : q.request = .capture x true) :
    q.acknowledge d = { d with timer := d.timer.updateBlock x ccifgCleared } := by
  simp only [IrqSource.acknowledge, hq]
  rfl

/-- A single-source request is one of a line or of a block. -/
theorem singleSource_iff (q : IrqSource) : q.singleSource = true ↔
    (∃ k, q.request = .line k true) ∨ ∃ x, q.request = .capture x true := by
  unfold IrqSource.singleSource
  cases q.request <;> simp

/-- A multi-source vector's flags stay for the routine to clear. -/
theorem acknowledge_of_multiSource (hq : q.singleSource = false) : q.acknowledge d = d := by
  unfold IrqSource.singleSource at hq
  unfold IrqSource.acknowledge
  cases hr : q.request with
  | port p => rfl
  | timerOverflow => rfl
  | capture x single =>
    obtain rfl : single = false := by simpa only [hr] using hq
    rfl
  | line k single =>
    obtain rfl : single = false := by simpa only [hr] using hq
    rfl

/-- The lines after the acknowledgement of line `k`. -/
theorem line_acknowledge (hq : q.request = .line k true) (j : Nat) :
    (q.acknowledge d).line j = if j = k then lineCleared (d.line k) else d.line j := by
  rw [acknowledge_of_line hq]
  exact line_setLine _ k j d.lines

/-- The blocks after the acknowledgement of block `x`. -/
theorem elementAt_acknowledge (hq : q.request = .capture x true) (y : Nat) :
    elementAt y (q.acknowledge d).timer.blocks =
      if y = x then (elementAt x d.timer.blocks).map ccifgCleared
      else elementAt y d.timer.blocks := by
  rw [acknowledge_of_capture hq]
  exact elementAt_updateAt ccifgCleared x y d.timer.blocks

/-- A single-source request that has been acknowledged is no longer pending. -/
theorem pending_acknowledge (hq : q.singleSource = true) : q.pending (q.acknowledge d) = false := by
  rcases (singleSource_iff q).mp hq with ⟨k, hr⟩ | ⟨x, hr⟩
  · have hl : (q.acknowledge d).line k = lineCleared (d.line k) := by
      rw [line_acknowledge hr, if_pos rfl]
    simp only [IrqSource.pending, hr, hl, lineCleared, Bool.false_and]
  · have hb : elementAt x (q.acknowledge d).timer.blocks =
        (elementAt x d.timer.blocks).map ccifgCleared := by
      rw [elementAt_acknowledge hr, if_pos rfl]
    simp only [IrqSource.pending, hr, hb]
    cases elementAt x d.timer.blocks with
    | none => rfl
    | some b => simp only [Option.map_some, ccifg_ccifgCleared, Bool.false_and]

end Acknowledge

/-! ### The statement -/

/-- Settles O45: by the kind of the request, from the one line or block the acknowledgement changes. -/
theorem flagClearing : Obligations.FlagClearing := by
  rintro q d e rfl
  refine ⟨fun k hq => ?line, fun x hq => ?capture, pending_acknowledge, acknowledge_of_multiSource,
    singleSource_iff q⟩
  case line =>
    have hk : (q.acknowledge d).line k = lineCleared (d.line k) := by
      rw [line_acknowledge hq, if_pos rfl]
    have hother : ∀ j, j ≠ k → (q.acknowledge d).line j = d.line j := fun j hj => by
      rw [line_acknowledge hq, if_neg hj]
    refine ⟨by rw [hk]; rfl, by rw [hk]; rfl, hother, ?_⟩
    rw [acknowledge_of_line hq]
    exact ⟨rfl, rfl, rfl⟩
  case capture =>
    have hother : ∀ y, y ≠ x →
        elementAt y (q.acknowledge d).timer.blocks = elementAt y d.timer.blocks := fun y hy => by
      rw [elementAt_acknowledge hq, if_neg hy]
    refine ⟨fun b hb => ⟨b.ctl &&& 0xFFFE#16, ?_, even_and b.ctl,
      fun k hk => getLsbD_evenMask b.ctl hk⟩, hother, ?_⟩
    · rw [elementAt_acknowledge hq, if_pos rfl, hb]
      rfl
    · rw [acknowledge_of_capture hq]
      exact ⟨length_updateAt _ _ _, rfl, rfl, rfl, rfl⟩

end Sys2Proof.Proofs.FlagClearing
end

section
/-! PROOF. Decoding and encoding are inverse to each other (30_encoding.md R82 to R101,
43_emulated.md R180). The fields of an encoded word are the numbers it was put together from, the
operand tables R88 and R89 are read both ways, and an opcode names its instruction in one table for
each format. -/

namespace Sys2Proof.Proofs.Encoding

open Sys2Proof.Machine
open Sys2Proof.Proofs.Emulated (eq_ofNat_of_toNat_eq)

/-! ### Registers, widths and operand forms (R21, R83, R88, R89) -/

theorem Reg.num_lt (r : Reg) : r.num < 16 := by cases r <;> decide

theorem Width.num_lt (w : Width) : w.num < 2 := by cases w <;> decide

theorem Src.mode_lt (src : Src) : src.mode < 4 := by
  cases src with
  | const c => cases c <;> simp only [Src.mode] <;> decide
  | _ => simp only [Src.mode]; decide

theorem Dst.mode_lt (dst : Dst) : dst.mode < 2 := by
  cases dst <;> simp only [Dst.mode] <;> decide

theorem Reg.ofNum_num (r : Reg) : Reg.ofNum r.num = r := by cases r <;> rfl

theorem Width.ofNum_num (w : Width) : Width.ofNum w.num = w := by cases w <;> rfl

theorem Reg.num_ofNum {n : Nat} (h : n < 16) : (Reg.ofNum n).num = n := by interval_cases n <;> rfl

theorem Width.num_ofNum {n : Nat} (h : n < 2) : (Width.ofNum n).num = n := by
  interval_cases n <;> rfl

/-- R88 read from the form to the fields and back. -/
theorem Src.ofFields_mode_register {src : Src} (h : src.wf = true) :
    Src.ofFields src.mode src.register = src := by
  cases src with
  | const c => cases c <;> rfl
  | reg r => cases r <;> first | rfl | cases h
  | indexed r => cases r <;> first | rfl | cases h
  | indirect r => cases r <;> first | rfl | cases h
  | autoinc r => cases r <;> first | rfl | cases h
  | symbolic => rfl
  | absolute => rfl
  | immediate => rfl

/-- R88 read from the fields to the form and back: each pair of fields has one form. -/
theorem Src.fields_ofFields {as : Nat} (r : Reg) (h : as < 4) :
    (Src.ofFields as r).mode = as ∧ (Src.ofFields as r).register = r ∧
      (Src.ofFields as r).wf = true := by
  interval_cases as <;> cases r <;> exact ⟨rfl, rfl, rfl⟩

/-- R89 read from the form to the fields and back. -/
theorem Dst.ofFields_mode_register {dst : Dst} (h : dst.wf = true) :
    Dst.ofFields dst.mode dst.register = dst := by
  cases dst with
  | indexed r => cases r <;> first | rfl | cases h
  | _ => rfl

/-- R89 read from the fields to the form and back. -/
theorem Dst.fields_ofFields {ad : Nat} (r : Reg) (h : ad < 2) :
    (Dst.ofFields ad r).mode = ad ∧ (Dst.ofFields ad r).register = r ∧
      (Dst.ofFields ad r).wf = true := by
  interval_cases ad <;> cases r <;> exact ⟨rfl, rfl, rfl⟩

/-! ### The fields of a word -/

theorem field_lt (iw : Word) (hi lo : Nat) : field iw hi lo < 2 ^ (hi - lo + 1) :=
  Nat.mod_lt _ (by positivity)

/-- A Format I word is put together from its six fields, and no bit lies outside them (R83). -/
theorem double_fields (iw : Word) :
    iw.toNat = field iw 15 12 * 0x1000 + field iw 11 8 * 0x100 + field iw 7 7 * 0x80
      + field iw 6 6 * 0x40 + field iw 5 4 * 0x10 + field iw 3 0 := by
  have := iw.isLt
  simp only [field, Nat.reduceSub, Nat.reduceAdd, Nat.reducePow]
  omega

/-- A Format II word is put together from its fields (R85). -/
theorem single_fields (iw : Word) :
    iw.toNat = field iw 15 12 * 0x1000 + field iw 11 10 * 0x400 + field iw 9 7 * 0x80
      + field iw 6 6 * 0x40 + field iw 5 4 * 0x10 + field iw 3 0 := by
  have := iw.isLt
  simp only [field, Nat.reduceSub, Nat.reduceAdd, Nat.reducePow]
  omega

/-- The low seven bits of a Format II word (R85, R101). -/
theorem field_six_zero (iw : Word) :
    field iw 6 0 = field iw 6 6 * 0x40 + field iw 5 4 * 0x10 + field iw 3 0 := by
  simp only [field, Nat.reduceSub, Nat.reduceAdd, Nat.reducePow]
  omega

/-- A Format III word is put together from its fields; the format takes two values of the opcode
field, which the condition's top bit tells apart (R87). -/
theorem jump_fields {iw : Word} (h : field iw 15 12 = 2 ∨ field iw 15 12 = 3) :
    iw.toNat = 0x2000 + field iw 12 10 * 0x400 + field iw 9 0 := by
  simp only [field, Nat.reduceSub, Nat.reduceAdd, Nat.reducePow] at h ⊢
  omega

section EncodedFields

variable (op : Nat) (w : Width) (src : Src) (dst : Dst)

/-- The fields of an encoded Format I word. -/
theorem fields_encodeDouble (hop : op < 16) :
    field (encodeDouble op w src dst) 15 12 = op ∧
    field (encodeDouble op w src dst) 11 8 = src.register.num ∧
    field (encodeDouble op w src dst) 7 7 = dst.mode ∧
    field (encodeDouble op w src dst) 6 6 = w.num ∧
    field (encodeDouble op w src dst) 5 4 = src.mode ∧
    field (encodeDouble op w src dst) 3 0 = dst.register.num := by
  have hs := Reg.num_lt src.register
  have hd := Reg.num_lt dst.register
  have hw := Width.num_lt w
  have has := Src.mode_lt src
  have had := Dst.mode_lt dst
  simp only [field, encodeDouble, BitVec.toNat_ofNat, Nat.reduceSub, Nat.reduceAdd, Nat.reducePow]
  omega

/-- The fields of an encoded Format II word. -/
theorem fields_encodeSingle (hop : op < 8) :
    field (encodeSingle (0x1000 + op * 0x80) w src) 15 12 = 1 ∧
    field (encodeSingle (0x1000 + op * 0x80) w src) 11 10 = 0 ∧
    field (encodeSingle (0x1000 + op * 0x80) w src) 9 7 = op ∧
    field (encodeSingle (0x1000 + op * 0x80) w src) 6 6 = w.num ∧
    field (encodeSingle (0x1000 + op * 0x80) w src) 5 4 = src.mode ∧
    field (encodeSingle (0x1000 + op * 0x80) w src) 3 0 = src.register.num := by
  have hs := Reg.num_lt src.register
  have hw := Width.num_lt w
  have has := Src.mode_lt src
  simp only [field, encodeSingle, BitVec.toNat_ofNat, Nat.reduceSub, Nat.reduceAdd, Nat.reducePow]
  omega

/-- The fields of an encoded Format III word. -/
theorem fields_encodeJump (off : BitVec 10) (hop : op < 8) :
    (field (encodeJump (0x2000 + op * 0x400) off) 15 12 = 2 ∨
      field (encodeJump (0x2000 + op * 0x400) off) 15 12 = 3) ∧
    field (encodeJump (0x2000 + op * 0x400) off) 12 10 = op ∧
    field (encodeJump (0x2000 + op * 0x400) off) 9 0 = off.toNat := by
  have hoff := off.isLt
  simp only [field, encodeJump, BitVec.toNat_ofNat, Nat.reduceSub, Nat.reduceAdd, Nat.reducePow]
    at hoff ⊢
  omega

end EncodedFields

/-! ### The formats (R82) -/

theorem decode_of_double {iw : Word} (h : 4 ≤ field iw 15 12) :
    decode iw = .ok (decodeDouble iw) := by
  unfold decode
  split <;> first | rfl | omega

theorem decode_of_jump {iw : Word} (h : field iw 15 12 = 2 ∨ field iw 15 12 = 3) :
    decode iw = .ok (decodeJump iw) := by
  rcases h with h | h <;> simp only [decode, h]

theorem decode_of_single {iw : Word} (h : field iw 15 12 = 1) : decode iw = decodeSingle iw := by
  simp only [decode, h]

theorem decode_of_zero {iw : Word} (h : field iw 15 12 = 0) : decode iw = .error .unassigned := by
  simp only [decode, h]

/-! ### Format I (R83, R84) -/

/-- The Format I instruction of an opcode. -/
def doubleOf (op : Nat) (w : Width) (src : Src) (dst : Dst) : Instr :=
  match op with
  | 4  => .mov w src dst
  | 5  => .add w src dst
  | 6  => .addc w src dst
  | 7  => .subc w src dst
  | 8  => .sub w src dst
  | 9  => .cmp w src dst
  | 10 => .dadd w src dst
  | 11 => .bit w src dst
  | 12 => .bic w src dst
  | 13 => .bis w src dst
  | 14 => .xor w src dst
  | _  => .and w src dst

theorem decodeDouble_eq (iw : Word) :
    decodeDouble iw = doubleOf (field iw 15 12) (Width.ofNum (field iw 6 6))
      (Src.ofFields (field iw 5 4) (Reg.ofNum (field iw 11 8)))
      (Dst.ofFields (field iw 7 7) (Reg.ofNum (field iw 3 0))) := rfl

theorem doubleOf_core (op : Nat) (w : Width) (src : Src) (dst : Dst) :
    (doubleOf op w src dst).core = doubleOf op w src dst := by
  unfold doubleOf
  split <;> rfl

theorem doubleOf_wf (op : Nat) (w : Width) (src : Src) (dst : Dst) :
    (doubleOf op w src dst).wf = (src.wf && dst.wf) := by
  unfold doubleOf
  split <;> rfl

theorem encode_doubleOf {op : Nat} (h4 : 4 ≤ op) (h16 : op < 16) (w : Width) (src : Src)
    (dst : Dst) : encode (doubleOf op w src dst) = encodeDouble op w src dst := by
  interval_cases op <;> rfl

/-- A Format I word with well-formed operands decodes to the instruction of its opcode. -/
theorem decode_encodeDouble {op : Nat} (h4 : 4 ≤ op) (h16 : op < 16) (w : Width) {src : Src}
    {dst : Dst} (h : (src.wf && dst.wf) = true) :
    decode (encodeDouble op w src dst) = .ok (doubleOf op w src dst) := by
  obtain ⟨hsrc, hdst⟩ := (Bool.and_eq_true _ _).mp h
  obtain ⟨hop, hs, had, hw, has, hd⟩ := fields_encodeDouble op w src dst h16
  rw [decode_of_double (by omega), decodeDouble_eq, hop, hs, had, hw, has, hd, Reg.ofNum_num,
    Reg.ofNum_num, Width.ofNum_num, Src.ofFields_mode_register hsrc,
    Dst.ofFields_mode_register hdst]

/-- A Format I word is the encoding of what it decodes to. -/
theorem encode_decodeDouble {iw : Word} (h : 4 ≤ field iw 15 12) :
    encode (decodeDouble iw) = iw ∧ (decodeDouble iw).wf = true ∧
      (decodeDouble iw).core = decodeDouble iw := by
  obtain ⟨hsm, hsr, hsw⟩ := Src.fields_ofFields (Reg.ofNum (field iw 11 8)) (field_lt iw 5 4)
  obtain ⟨hdm, hdr, hdw⟩ := Dst.fields_ofFields (Reg.ofNum (field iw 3 0)) (field_lt iw 7 7)
  rw [decodeDouble_eq]
  refine ⟨?encode, by rw [doubleOf_wf, hsw, hdw]; rfl, doubleOf_core _ _ _ _⟩
  rw [encode_doubleOf h (field_lt iw 15 12), encodeDouble, hsm, hsr, hdm, hdr,
    Reg.num_ofNum (field_lt iw 11 8), Reg.num_ofNum (field_lt iw 3 0),
    Width.num_ofNum (field_lt iw 6 6)]
  exact (eq_ofNat_of_toNat_eq (double_fields iw)).symm

/-! ### Format II (R85, R86, R100, R101) -/

/-- The Format II instruction with an operand that an opcode and a B/W bit stand for. -/
def singleOf (op : Nat) (w : Width) (opd : Src) : Except DecodeError Instr :=
  match op with
  | 0 => .ok (.rrc w opd)
  | 1 => wordOnly w (.swpb opd)
  | 2 => .ok (.rra w opd)
  | 3 => wordOnly w (.sxt opd)
  | 4 => .ok (.push w opd)
  | _ => wordOnly w (.call opd)

theorem decodeSingle_of_operand {iw : Word} (h0 : field iw 11 10 = 0) (h6 : field iw 9 7 < 6) :
    decodeSingle iw = singleOf (field iw 9 7) (Width.ofNum (field iw 6 6))
      (Src.ofFields (field iw 5 4) (Reg.ofNum (field iw 3 0))) := by
  unfold decodeSingle
  rw [h0]
  generalize field iw 9 7 = op at h6
  interval_cases op <;> rfl

theorem decodeSingle_of_reti {iw : Word} (h0 : field iw 11 10 = 0) (h6 : field iw 9 7 = 6) :
    decodeSingle iw = if field iw 6 0 = 0 then .ok .reti else .error .retiOperandBits := by
  simp only [decodeSingle, h0, h6]

theorem decodeSingle_of_unassigned {iw : Word} (h : field iw 11 10 ≠ 0 ∨ field iw 9 7 = 7) :
    decodeSingle iw = .error .unassigned := by
  unfold decodeSingle
  split <;> first | rfl | omega

/-- An instruction of the table is the encoding its opcode gives, and a word-only one is a word. -/
theorem singleOf_ok {op : Nat} (h6 : op < 6) {w : Width} {opd : Src} {i : Instr}
    (h : singleOf op w opd = .ok i) :
    encode i = encodeSingle (0x1000 + op * 0x80) w opd ∧ i.wf = opd.wf ∧ i.core = i := by
  cases w <;> interval_cases op <;> cases h <;> exact ⟨rfl, rfl, rfl⟩

/-- A Format II word with a well-formed operand decodes to what its opcode stands for. -/
theorem decode_encodeSingle {op : Nat} (h6 : op < 6) (w : Width) {opd : Src}
    (h : opd.wf = true) :
    decode (encodeSingle (0x1000 + op * 0x80) w opd) = singleOf op w opd := by
  obtain ⟨hfmt, hzero, hop, hw, has, hr⟩ := fields_encodeSingle op w opd (by omega)
  rw [decode_of_single hfmt, decodeSingle_of_operand hzero (by omega), hop, hw, has, hr,
    Reg.ofNum_num, Width.ofNum_num, Src.ofFields_mode_register h]

/-- A Format II word that decodes is the encoding of what it decodes to. -/
theorem encode_of_decodeSingle {iw : Word} {i : Instr} (hfmt : field iw 15 12 = 1)
    (h : decodeSingle iw = .ok i) : encode i = iw ∧ i.wf = true ∧ i.core = i := by
  have hsum := single_fields iw
  have hlow := field_six_zero iw
  have hop : field iw 9 7 < 8 := field_lt iw 9 7
  by_cases hbad : field iw 11 10 ≠ 0 ∨ field iw 9 7 = 7
  · rw [decodeSingle_of_unassigned hbad] at h
    cases h
  obtain ⟨hzero, hseven⟩ := not_or.mp hbad
  rw [not_not] at hzero
  by_cases h6 : field iw 9 7 < 6
  · rw [decodeSingle_of_operand hzero h6] at h
    obtain ⟨hm, hr, hw⟩ := Src.fields_ofFields (Reg.ofNum (field iw 3 0)) (field_lt iw 5 4)
    obtain ⟨henc, hwf, hcore⟩ := singleOf_ok h6 h
    refine ⟨?_, hwf.trans hw, hcore⟩
    rw [henc, encodeSingle, hm, hr, Reg.num_ofNum (field_lt iw 3 0),
      Width.num_ofNum (field_lt iw 6 6)]
    rw [hfmt, hzero, Nat.one_mul, Nat.zero_mul, Nat.add_zero] at hsum
    exact (eq_ofNat_of_toNat_eq hsum).symm
  · rw [decodeSingle_of_reti hzero (by omega)] at h
    split at h
    · cases h
      exact ⟨(eq_ofNat_of_toNat_eq (by omega)).symm, rfl, rfl⟩
    · cases h

/-! ### Format III (R87) -/

/-- The jump of a condition field. -/
def jumpOf (cond : Nat) (off : BitVec 10) : Instr :=
  match cond with
  | 0 => .jne off
  | 1 => .jeq off
  | 2 => .jnc off
  | 3 => .jc off
  | 4 => .jn off
  | 5 => .jge off
  | 6 => .jl off
  | _ => .jmp off

theorem decodeJump_eq (iw : Word) :
    decodeJump iw = jumpOf (field iw 12 10) (BitVec.ofNat 10 (field iw 9 0)) := rfl

theorem jumpOf_core (cond : Nat) (off : BitVec 10) :
    (jumpOf cond off).wf = true ∧ (jumpOf cond off).core = jumpOf cond off := by
  unfold jumpOf
  split <;> exact ⟨rfl, rfl⟩

theorem encode_jumpOf {cond : Nat} (h8 : cond < 8) (off : BitVec 10) :
    encode (jumpOf cond off) = encodeJump (0x2000 + cond * 0x400) off := by
  interval_cases cond <;> rfl

theorem decode_encodeJump {cond : Nat} (h8 : cond < 8) (off : BitVec 10) :
    decode (encodeJump (0x2000 + cond * 0x400) off) = .ok (jumpOf cond off) := by
  obtain ⟨hfmt, hcond, hoff⟩ := fields_encodeJump cond off h8
  rw [decode_of_jump hfmt, decodeJump_eq, hcond, hoff, BitVec.ofNat_toNat,
    BitVec.setWidth_eq]

theorem encode_decodeJump {iw : Word} (h : field iw 15 12 = 2 ∨ field iw 15 12 = 3) :
    encode (decodeJump iw) = iw ∧ (decodeJump iw).wf = true ∧
      (decodeJump iw).core = decodeJump iw := by
  rw [decodeJump_eq]
  refine ⟨?_, jumpOf_core _ _⟩
  have hoff : (BitVec.ofNat 10 (field iw 9 0)).toNat = field iw 9 0 := by
    rw [BitVec.toNat_ofNat]
    exact Nat.mod_eq_of_lt (field_lt iw 9 0)
  rw [encode_jumpOf (field_lt iw 12 10), encodeJump, hoff]
  exact (eq_ofNat_of_toNat_eq (jump_fields h)).symm

/-! ### The words without an instruction (R98, R100, R101) -/

/-- The words no instruction is assigned to: the empty cells of the instruction map (R98), B/W = 1
on SWPB, SXT and CALL (R100), RETI with operand bits (R101). -/
def Unassigned (iw : Word) : Prop :=
  iw.toNat < 0x1000 ∨ (0x1380 ≤ iw.toNat ∧ iw.toNat < 0x2000) ∨
    (0x10C0 ≤ iw.toNat ∧ iw.toNat ≤ 0x10FF) ∨ (0x11C0 ≤ iw.toNat ∧ iw.toNat ≤ 0x11FF) ∨
    (0x12C0 ≤ iw.toNat ∧ iw.toNat ≤ 0x12FF) ∨ (0x1301 ≤ iw.toNat ∧ iw.toNat ≤ 0x137F)

/-- Of the instructions with one operand those with an odd opcode have no byte form (R100). -/
theorem exists_singleOf_iff {op : Nat} (h6 : op < 6) {b : Nat} (h2 : b < 2) (opd : Src) :
    (∃ i, singleOf op (Width.ofNum b) opd = .ok i) ↔ ¬ (op % 2 = 1 ∧ b = 1) := by
  interval_cases b <;> interval_cases op <;> simp [singleOf, wordOnly, Width.ofNum]

/-- A Format II word decodes exactly where it is assigned. -/
theorem exists_decodeSingle_iff {iw : Word} (hfmt : field iw 15 12 = 1) :
    (∃ i, decodeSingle iw = .ok i) ↔ ¬ Unassigned iw := by
  have hsum := single_fields iw
  have hlow := field_six_zero iw
  have hop : field iw 9 7 < 8 := field_lt iw 9 7
  have hbw : field iw 6 6 < 2 := field_lt iw 6 6
  have has : field iw 5 4 < 4 := field_lt iw 5 4
  have hreg : field iw 3 0 < 16 := field_lt iw 3 0
  have hmid : field iw 11 10 < 4 := field_lt iw 11 10
  unfold Unassigned
  by_cases hbad : field iw 11 10 ≠ 0 ∨ field iw 9 7 = 7
  · simp only [decodeSingle_of_unassigned hbad, reduceCtorEq, exists_false, false_iff, not_not]
    omega
  obtain ⟨hzero, hseven⟩ := not_or.mp hbad
  rw [not_not] at hzero
  by_cases h6 : field iw 9 7 < 6
  · rw [decodeSingle_of_operand hzero h6, exists_singleOf_iff h6 hbw]
    omega
  · rw [decodeSingle_of_reti hzero (by omega)]
    by_cases hbits : field iw 6 0 = 0
    · simp only [hbits, if_true, Except.ok.injEq, exists_eq', true_iff]
      omega
    · simp only [hbits, if_false, reduceCtorEq, exists_false, false_iff, not_not]
      omega

/-- The four values the opcode field's format takes (R82). -/
theorem format_cases (iw : Word) : field iw 15 12 = 0 ∨ field iw 15 12 = 1 ∨
    (field iw 15 12 = 2 ∨ field iw 15 12 = 3) ∨ 4 ≤ field iw 15 12 := by omega

/-- A word decodes exactly where it is assigned. -/
theorem exists_decode_iff (iw : Word) : (∃ i, decode iw = .ok i) ↔ ¬ Unassigned iw := by
  have hfield : field iw 15 12 = iw.toNat / 0x1000 % 16 := rfl
  have hlt := iw.isLt
  rcases format_cases iw with h0 | h1 | hj | h4
  · simp only [decode_of_zero h0, reduceCtorEq, exists_false, false_iff, not_not, Unassigned]
    omega
  · rw [decode_of_single h1]
    exact exists_decodeSingle_iff h1
  · simp only [decode_of_jump hj, Except.ok.injEq, exists_eq', true_iff, Unassigned]
    omega
  · simp only [decode_of_double h4, Except.ok.injEq, exists_eq', true_iff, Unassigned]
    omega

/-- An unassigned word decodes to an error. -/
theorem decode_of_unassigned {iw : Word} (h : Unassigned iw) : ∃ e, decode iw = .error e := by
  cases hd : decode iw with
  | error e => exact ⟨e, rfl⟩
  | ok i => exact absurd h ((exists_decode_iff iw).mp ⟨i, hd⟩)

/-! ### Both directions -/

/-- Decoding the word of a well-formed core instruction gives the instruction. -/
theorem decode_encode_core {i : Instr} (h : i.wf = true) (hcore : i.core = i) :
    decode (encode i) = .ok i := by
  cases i with
  | mov w s d => exact decode_encodeDouble (op := 4) (by decide) (by decide) w h
  | add w s d => exact decode_encodeDouble (op := 5) (by decide) (by decide) w h
  | addc w s d => exact decode_encodeDouble (op := 6) (by decide) (by decide) w h
  | subc w s d => exact decode_encodeDouble (op := 7) (by decide) (by decide) w h
  | sub w s d => exact decode_encodeDouble (op := 8) (by decide) (by decide) w h
  | cmp w s d => exact decode_encodeDouble (op := 9) (by decide) (by decide) w h
  | dadd w s d => exact decode_encodeDouble (op := 10) (by decide) (by decide) w h
  | bit w s d => exact decode_encodeDouble (op := 11) (by decide) (by decide) w h
  | bic w s d => exact decode_encodeDouble (op := 12) (by decide) (by decide) w h
  | bis w s d => exact decode_encodeDouble (op := 13) (by decide) (by decide) w h
  | xor w s d => exact decode_encodeDouble (op := 14) (by decide) (by decide) w h
  | and w s d => exact decode_encodeDouble (op := 15) (by decide) (by decide) w h
  | rrc w s => exact decode_encodeSingle (op := 0) (by decide) w h
  | swpb s => exact decode_encodeSingle (op := 1) (by decide) .word h
  | rra w s => exact decode_encodeSingle (op := 2) (by decide) w h
  | sxt s => exact decode_encodeSingle (op := 3) (by decide) .word h
  | push w s => exact decode_encodeSingle (op := 4) (by decide) w h
  | call s => exact decode_encodeSingle (op := 5) (by decide) .word h
  | reti => rfl
  | jne off => exact decode_encodeJump (cond := 0) (by decide) off
  | jeq off => exact decode_encodeJump (cond := 1) (by decide) off
  | jnc off => exact decode_encodeJump (cond := 2) (by decide) off
  | jc off => exact decode_encodeJump (cond := 3) (by decide) off
  | jn off => exact decode_encodeJump (cond := 4) (by decide) off
  | jge off => exact decode_encodeJump (cond := 5) (by decide) off
  | jl off => exact decode_encodeJump (cond := 6) (by decide) off
  | jmp off => exact decode_encodeJump (cond := 7) (by decide) off
  | _ => cases hcore

/-- Every well-formed instruction has a well-formed core form with the same word. -/
theorem coreForm (i : Instr) : Laws.CoreForm.Statement i := by
  cases i with
  | br s => exact Laws.CoreForm.br s
  | rla w d => exact Laws.CoreForm.rla w d
  | rlc w d => exact Laws.CoreForm.rlc w d
  | _ => exact fun h => ⟨h, rfl, rfl⟩

/-- Settles O59: an instruction has the word of its core form, and that decodes to the core form. -/
theorem decodeEncode : Obligations.DecodeEncode := by
  intro i h
  obtain ⟨hwf, hcore, henc⟩ := coreForm i h
  rw [← henc]
  exact decode_encode_core hwf hcore

/-- Settles O60: format by format, a word is put together again from its fields. -/
theorem encodeDecode : Obligations.EncodeDecode := by
  intro iw i h
  rcases format_cases iw with h0 | h1 | hj | h4
  · rw [decode_of_zero h0] at h
    cases h
  · rw [decode_of_single h1] at h
    exact encode_of_decodeSingle h1 h
  · rw [decode_of_jump hj] at h
    cases h
    exact encode_decodeJump hj
  · rw [decode_of_double h4] at h
    cases h
    exact encode_decodeDouble h4

/-- Settles O58: closed words, decoded by evaluation. -/
theorem decodeWords : Obligations.DecodeWords := by
  unfold Obligations.DecodeWords
  decide

end Sys2Proof.Proofs.Encoding
end

section
/-! PROOF. What every instruction leaves alone (10_state.md R20 to R27, R42; 40_double_operand.md
R120; 41_single_operand.md R140, R145). An instruction is one of seven frames; what a frame keeps is
said once of each, as a relation that composes along the operations the frame is made of. -/

namespace Sys2Proof.Proofs.Frames

open Sys2Proof.Machine
open Sys2Proof.Proofs.Encoding
open Sys2Proof.Proofs.SingleOperand (even_add_two)

/-! ### Core instructions (R180) -/

/-- Settles O17: each arm of an emulated instruction is its core instruction's meaning. -/
theorem emulatedIsCore : Obligations.EmulatedIsCore := by
  intro i s
  cases i <;> rfl

theorem core_core (i : Instr) : i.core.core = i.core := by cases i <;> rfl

/-! ### Registers written (R20, R27) -/

/-- From `s` to `t` only the registers of a list are written, and of SR, if it is not listed, only
the status bits, and these only if `flags` says so. -/
structure Writes (regs : List Reg) (flags : Bool) (s t : State) : Prop where
  reg  : ∀ r, r ≠ .sr → r ∉ regs → t.reg r = s.reg r
  mode : .sr ∉ regs → modeBits t.regs.sr = modeBits s.regs.sr
  sr   : .sr ∉ regs → flags = false → t.regs.sr = s.regs.sr

section Writes

variable {l : List Reg} {b : Bool} {s t u : State}

theorem Writes.of_regs (h : t.regs = s.regs) : Writes l b s t :=
  ⟨fun r _ _ => State.reg_congr h r, fun _ => by rw [h], fun _ _ => by rw [h]⟩

theorem Writes.trans (h : Writes l b s t) (k : Writes l b t u) : Writes l b s u :=
  ⟨fun r hr hl => (k.reg r hr hl).trans (h.reg r hr hl), fun hl => (k.mode hl).trans (h.mode hl),
    fun hl hb => (k.sr hl hb).trans (h.sr hl hb)⟩

/-- A register write writes that register. -/
theorem Writes.setReg (s : State) {r : Reg} (v : Word) (hr : r ∈ l) :
    Writes l b s (s.setReg r v) := by
  have hne : ∀ q, q ∉ l → q ≠ r := fun q hq he => hq (he ▸ hr)
  have hsr : .sr ∉ l → (s.setReg r v).regs.sr = s.regs.sr := fun hn =>
    State.reg_setReg_other s r .sr v (hne _ hn)
  exact ⟨fun q _ hq => State.reg_setReg_other s r q v (hne q hq), fun hn => by rw [hsr hn],
    fun hn _ => hsr hn⟩

theorem Writes.setPc (s : State) (v : Word) (h : .pc ∈ l) : Writes l b s (s.setPc v) :=
  .setReg s (r := .pc) v h

/-- The status bits are not among the mode bits (R26). -/
theorem modeBits_withFlags (sr : Word) (f : Flags) : modeBits (withFlags sr f) = modeBits sr := by
  rcases f with ⟨v, n, z, c⟩
  have hbits : (bitAt v 8 ||| bitAt n 2 ||| bitAt z 1 ||| bitAt c 0) &&& 0xFEF8#16 = 0#16 := by
    cases v <;> cases n <;> cases z <;> cases c <;> decide
  have hself : sr &&& 0xFEF8#16 &&& 0xFEF8#16 = sr &&& 0xFEF8#16 := by
    rw [BitVec.and_assoc, BitVec.and_self]
  rw [modeBits, modeBits, withFlags, BitVec.and_comm, BitVec.and_or_distrib_left,
    BitVec.and_comm 0xFEF8#16, BitVec.and_comm 0xFEF8#16, hself, hbits, BitVec.or_zero]

/-- The flags of an effect are written by an instruction that writes flags. -/
theorem Writes.withEffectFlags (s : State) {f : Option Flags} (hf : f.isSome = true → b = true) :
    Writes l b s (withEffectFlags f s) := by
  cases f with
  | none => exact .of_regs rfl
  | some f =>
    refine ⟨fun r hr _ => ?_, fun _ => modeBits_withFlags _ f, fun _ hb => ?_⟩
    · cases r <;> first | rfl | exact absurd rfl hr
    · rw [hf rfl] at hb
      cases hb

end Writes

/-! ### Operations (R81, R90, R91) -/

/-- The register a place is. -/
def locNamed : Loc → List Reg
  | .reg r => [r]
  | .mem _ => []

section Operations

variable {l : List Reg} {b : Bool} {w : Width} {src : Src} {dst : Dst} {bad : Fault} {loc : Loc}
  {v : Word} {s t : State}

theorem srcAfter_writes (w : Width) (s : State) (hpc : .pc ∈ l) (hl : srcSteps src ⊆ l) :
    Writes l b s (srcAfter w src s) := by
  cases src with
  | reg r => exact .of_regs rfl
  | indirect r => exact .of_regs rfl
  | const c => exact .of_regs rfl
  | autoinc r => exact .setReg _ _ (hl List.mem_cons_self)
  | _ => exact .setPc _ _ hpc

theorem readSrc_writes (h : readSrc w src s = .ok (v, t)) (hpc : .pc ∈ l) (hl : srcSteps src ⊆ l) :
    Writes l b s t :=
  (srcAfter_writes w s hpc hl).trans (.of_regs (readSrc_ok h).1)

theorem operandLoc_writes (h : operandLoc bad w src s = .ok (loc, t)) (hpc : .pc ∈ l)
    (hl : srcSteps src ⊆ l) : Writes l b s t :=
  (srcAfter_writes w s hpc hl).trans (.of_regs (operandLoc_ok h).1)

theorem dstLoc_writes (h : dstLoc bad dst s = .ok (loc, t)) (hpc : .pc ∈ l) : Writes l b s t := by
  have hafter : Writes l b s (dstAfter dst s) := by
    cases dst with
    | reg r => exact .of_regs rfl
    | unlisted => exact .of_regs rfl
    | _ => exact .setPc _ _ hpc
  exact hafter.trans (.of_regs (dstLoc_ok h).1)

theorem locNamed_of_dstLoc (h : dstLoc bad dst s = .ok (loc, t)) :
    locNamed loc ⊆ l ++ dstNamed dst := by
  obtain ⟨-, -, -, hreg⟩ := dstLoc_ok h
  cases loc with
  | mem a => exact List.nil_subset _
  | reg r =>
    obtain rfl := (hreg r).mp rfl
    exact List.subset_append_right _ _

theorem locNamed_of_operandLoc (h : operandLoc bad w src s = .ok (loc, t)) :
    locNamed loc ⊆ l ++ srcNamed src := by
  obtain ⟨-, -, -, hreg⟩ := operandLoc_ok h
  cases loc with
  | mem a => exact List.nil_subset _
  | reg r =>
    obtain rfl := (hreg r).mp rfl
    exact List.subset_append_right _ _

theorem readLoc_writes (h : readLoc w loc s = .ok (v, t)) : Writes l b s t :=
  .of_regs (readLoc_quiet h).only.regs

theorem writeLoc_writes (h : writeLoc w loc v s = .ok t) (hl : locNamed loc ⊆ l) :
    Writes l b s t := by
  cases loc with
  | reg r => cases h; exact .setReg _ _ (hl List.mem_cons_self)
  | mem a => exact .of_regs (memWrite_stores h).regs

/-- What an effect writes: the place if it has a result, the status bits if it has flags. -/
theorem applyEffect_writes {e : Effect} (h : applyEffect w loc e s = .ok t)
    (hl : e.result.isSome = true → locNamed loc ⊆ l) (hf : e.flags.isSome = true → b = true) :
    Writes l b s t := by
  rw [applyEffect_eq] at h
  cases hr : e.result with
  | none =>
    rw [hr] at h
    cases h
    exact .withEffectFlags s hf
  | some r =>
    rw [hr] at h
    exact (Writes.withEffectFlags s hf).trans (writeLoc_writes h (hl (hr ▸ rfl)))

theorem push_writes (h : push w v s = .ok t) (hsp : .sp ∈ l) : Writes l b s t :=
  (Writes.setReg s (r := .sp) _ hsp).trans (.of_regs (push_ok h).regs)

theorem pop_writes (h : pop s = .ok (v, t)) (hsp : .sp ∈ l) : Writes l b s t := by
  obtain ⟨u, -, hq, rfl⟩ := pop_ok h
  exact (Writes.of_regs hq.only.regs).trans (.setReg u (r := .sp) _ hsp)

end Operations

/-! ### The frames -/

/-- The frames an instruction runs in, with what it is made of: whether it stores a result, whether
it writes the status bits. -/
inductive Frame where
  | move (w : Width) (src : Src) (dst : Dst)
  | double (w : Width) (src : Src) (dst : Dst) (stores flags : Bool)
  | single (w : Width) (opd : Src) (flags : Bool)
  | push (w : Width) (opd : Src)
  | call (opd : Src)
  | reti
  | jump (off : BitVec 10)

/-- The state `t` is what a frame leaves of `s`. DADD alone runs after two free values have been
drawn. -/
inductive Frame.Runs : Frame → State → State → Prop
  | move {w src dst s t bad} : moveOperand bad w src dst s = .ok t → Runs (.move w src dst) s t
  | double {w src dst stores flags s s0 t bad f} : s0 = s ∨ s0 = s.draw.2.draw.2 →
      (∀ sr a b, (f sr a b).result.isSome = stores ∧ (f sr a b).flags.isSome = flags) →
      twoOperand bad w src dst f s0 = .ok t → Runs (.double w src dst stores flags) s t
  | single {w opd flags s t bad f} :
      (∀ sr a, (f sr a).result.isSome = true ∧ (f sr a).flags.isSome = flags) →
      oneOperand bad w opd f s = .ok t → Runs (.single w opd flags) s t
  | push {w opd v s s1 t} : readSrc w opd s = .ok (v, s1) → Machine.push w v s1 = .ok t →
      Runs (.push w opd) s t
  | call {opd v s s1 s2} : readSrc .word opd s = .ok (v, s1) →
      Machine.push .word s1.regs.pc s1 = .ok s2 → Runs (.call opd) s (s2.setPc v)
  | reti {s t} : returnFromInterrupt s = .ok t → Runs .reti s t
  | jump {off s} (taken : Bool) : Runs (.jump off) s (jumpIf taken off s)

/-- The registers a frame may write beside PC and the status bits. -/
def Frame.writes : Frame → List Reg
  | .move _ src dst          => srcSteps src ++ dstNamed dst
  | .double _ src dst true _ => srcSteps src ++ dstNamed dst
  | .double _ src _ false _  => srcSteps src
  | .single _ opd _          => srcSteps opd ++ srcNamed opd
  | .push _ opd              => .sp :: srcSteps opd
  | .call opd                => .sp :: srcSteps opd
  | .reti                    => [.sp, .sr]
  | .jump _                  => []

/-- Whether a frame writes the status bits. -/
def Frame.flags : Frame → Bool
  | .double _ _ _ _ flags => flags
  | .single _ _ flags     => flags
  | _                     => false

/-- Whether a frame leaves PC at the following instruction unless it writes PC. -/
def Frame.sequential : Frame → Bool
  | .call _ => false
  | .reti   => false
  | .jump _ => false
  | _       => true

/-- The extension words of a frame's operands (R96). -/
def Frame.ext : Frame → Nat
  | .move _ src dst       => src.ext + dst.mode
  | .double _ src dst _ _ => src.ext + dst.mode
  | .single _ opd _       => opd.ext
  | .push _ opd           => opd.ext
  | .call opd             => opd.ext
  | .reti                 => 0
  | .jump _               => 0

/-- An instruction is a frame: its meaning runs in it, and its syntax says the same of it. -/
structure Frame.Fits (fr : Frame) (i : Instr) : Prop where
  runs       : ∀ {s t : State}, exec i s = .next t → fr.Runs s t
  writes     : coreWrites i = fr.writes
  flags      : coreWritesFlags i = fr.flags
  sequential : coreSequential i = fr.sequential
  length     : i.wf = true → i.length = 1 + fr.ext

/-! ### Lengths (R96) -/

/-- The extension word of a source form, from its fields (R96). -/
theorem ext_eq {src : Src} (h : src.wf = true) :
    (if (src.mode = 1 ∧ src.register.num ≠ 3) ∨ (src.mode = 3 ∧ src.register.num = 0) then 1 else 0)
      = src.ext := by
  cases src with
  | const c => cases c <;> rfl
  | indexed r => cases r <;> first | rfl | cases h
  | autoinc r => cases r <;> first | rfl | cases h
  | reg r => rfl
  | indirect r => rfl
  | symbolic => rfl
  | absolute => rfl
  | immediate => rfl

theorem lengthOfWord_encodeDouble {op : Nat} (h4 : 4 ≤ op) (h16 : op < 16) (w : Width) {src : Src}
    (dst : Dst) (h : src.wf = true) :
    lengthOfWord (encodeDouble op w src dst) = 1 + (src.ext + dst.mode) := by
  obtain ⟨hop, hs, had, -, has, -⟩ := fields_encodeDouble op w src dst h16
  unfold lengthOfWord
  simp only [hop, hs, had, has, ext_eq h]
  split <;> omega

theorem lengthOfWord_encodeSingle {op : Nat} (h8 : op < 8) (w : Width) {opd : Src}
    (h : opd.wf = true) :
    lengthOfWord (encodeSingle (0x1000 + op * 0x80) w opd) = 1 + opd.ext := by
  obtain ⟨hfmt, -, -, -, has, hr⟩ := fields_encodeSingle op w opd h8
  simp only [lengthOfWord, hfmt, has, hr, ext_eq h]

theorem lengthOfWord_encodeJump {cond : Nat} (h8 : cond < 8) (off : BitVec 10) :
    lengthOfWord (encodeJump (0x2000 + cond * 0x400) off) = 1 := by
  obtain ⟨hfmt | hfmt, -, -⟩ := fields_encodeJump cond off h8 <;> simp only [lengthOfWord, hfmt]

/-! ### Every instruction is a frame -/

/-- DADD has a result and status bits, BCD operands or not (R129). -/
theorem daddEffect_isSome (w : Width) (c : Bool) (x y a b : Word) :
    (daddEffect w c x y a b).result.isSome = true ∧
      (daddEffect w c x y a b).flags.isSome = true := by
  unfold daddEffect
  split <;> exact ⟨rfl, rfl⟩

section Fits

variable {i : Instr} {w : Width} {src : Src} {dst : Dst} {flags : Bool}

/-- A Format I instruction that reads its destination; `n` is what it does before its operands. -/
theorem Frame.Fits.doubleAfter {stores : Bool} {bad : State → Fault}
    {f : State → Word → Word → Word → Effect} (n : State → State)
    (hn : ∀ s, n s = s ∨ n s = s.draw.2.draw.2) (op : Nat) (hop : 4 ≤ op ∧ op < 16)
    (hi : ∀ s, exec i s = toOutcome (twoOperand (bad s) w src dst (f s) (n s)))
    (hf : ∀ s sr a b, (f s sr a b).result.isSome = stores ∧ (f s sr a b).flags.isSome = flags)
    (henc : encode i = encodeDouble op w src dst) (hwf : i.wf = (src.wf && dst.wf))
    (hw : coreWrites i = (Frame.double w src dst stores flags).writes)
    (hfl : coreWritesFlags i = flags) (hseq : coreSequential i = true) :
    (Frame.double w src dst stores flags).Fits i where
  runs {s t} h := by
    rw [hi s, toOutcome_next] at h
    exact .double (hn s) (hf s) h
  writes := hw
  flags := hfl
  sequential := hseq
  length h := by
    rw [hwf, Bool.and_eq_true] at h
    rw [Instr.length, henc, lengthOfWord_encodeDouble hop.1 hop.2 w dst h.1]
    rfl

/-- A Format I instruction that reads its destination and does nothing before its operands. -/
theorem Frame.Fits.double {stores : Bool} {bad : State → Fault}
    {f : State → Word → Word → Word → Effect} (op : Nat) (hop : 4 ≤ op ∧ op < 16)
    (hi : ∀ s, exec i s = toOutcome (twoOperand (bad s) w src dst (f s) s))
    (hf : ∀ s sr a b, (f s sr a b).result.isSome = stores ∧ (f s sr a b).flags.isSome = flags)
    (henc : encode i = encodeDouble op w src dst) (hwf : i.wf = (src.wf && dst.wf))
    (hw : coreWrites i = (Frame.double w src dst stores flags).writes)
    (hfl : coreWritesFlags i = flags) (hseq : coreSequential i = true) :
    (Frame.double w src dst stores flags).Fits i :=
  .doubleAfter id (fun _ => .inl rfl) op hop hi hf henc hwf hw hfl hseq

/-- An instruction that reads and writes back its one operand. -/
theorem Frame.Fits.single {opd : Src} {bad : State → Fault} {f : State → Word → Word → Effect}
    (op : Nat) (hop : op < 8) (hi : ∀ s, exec i s = toOutcome (oneOperand (bad s) w opd (f s) s))
    (hf : ∀ s sr a, (f s sr a).result.isSome = true ∧ (f s sr a).flags.isSome = flags)
    (henc : encode i = encodeSingle (0x1000 + op * 0x80) w opd)
    (hwf : i.wf = opd.wf) (hw : coreWrites i = srcSteps opd ++ srcNamed opd)
    (hfl : coreWritesFlags i = flags) (hseq : coreSequential i = true) :
    (Frame.single w opd flags).Fits i where
  runs {s t} h := by
    rw [hi s, toOutcome_next] at h
    exact .single (hf s) h
  writes := hw
  flags := hfl
  sequential := hseq
  length h := by
    rw [Instr.length, henc, lengthOfWord_encodeSingle hop w (hwf ▸ h)]
    rfl

theorem Frame.Fits.jump {off : BitVec 10} (cond : Nat) (hcond : cond < 8) (taken : State → Bool)
    (hi : ∀ s, exec i s = .next (jumpIf (taken s) off s))
    (henc : encode i = encodeJump (0x2000 + cond * 0x400) off) (hw : coreWrites i = [])
    (hfl : coreWritesFlags i = false) (hseq : coreSequential i = false) :
    (Frame.jump off).Fits i where
  runs {s t} h := by
    rw [hi s] at h
    cases h
    exact .jump (taken s)
  writes := hw
  flags := hfl
  sequential := hseq
  length _ := by
    rw [Instr.length, henc, lengthOfWord_encodeJump hcond]
    rfl

theorem Frame.Fits.mov (w : Width) (src : Src) (dst : Dst) :
    (Frame.move w src dst).Fits (.mov w src dst) where
  runs h := .move (toOutcome_next.mp h)
  writes := rfl
  flags := rfl
  sequential := rfl
  length h := by
    have hwf : src.wf = true ∧ dst.wf = true := (Bool.and_eq_true _ _).mp h
    exact lengthOfWord_encodeDouble (op := 4) (by decide) (by decide) w dst hwf.1

theorem Frame.Fits.push (w : Width) (opd : Src) : (Frame.push w opd).Fits (.push w opd) where
  runs {s t} h := by
    have hp : (if opd = .reg .sp then _ else _) = Except.ok t := toOutcome_next.mp h
    split at hp
    · cases hp
    · obtain ⟨⟨v, s1⟩, h1, h2⟩ := bind_eq_ok.mp hp
      exact .push h1 h2
  writes := rfl
  flags := rfl
  sequential := rfl
  length h := lengthOfWord_encodeSingle (op := 4) (by decide) w h

theorem Frame.Fits.call (opd : Src) : (Frame.call opd).Fits (.call opd) where
  runs {s t} h := by
    obtain ⟨⟨v, s1⟩, h1, hrest⟩ := bind_eq_ok.mp (toOutcome_next.mp h)
    obtain ⟨s2, h2, h3⟩ := bind_eq_ok.mp hrest
    cases h3
    exact .call h1 h2
  writes := rfl
  flags := rfl
  sequential := rfl
  length h := lengthOfWord_encodeSingle (op := 5) (by decide) .word h

theorem Frame.Fits.reti : Frame.reti.Fits .reti where
  runs h := .reti (toOutcome_next.mp h)
  writes := rfl
  flags := rfl
  sequential := rfl
  length _ := rfl

end Fits

/-- Every core instruction is a frame. -/
theorem exists_frame {i : Instr} (h : i.core = i) : ∃ fr : Frame, fr.Fits i := by
  cases i with
  | mov w s d => exact ⟨_, .mov w s d⟩
  | add w s d =>
    exact ⟨.double w s d true true, .double 5 (by decide) (fun _ => rfl)
      (fun _ _ _ _ => ⟨rfl, rfl⟩) rfl rfl rfl rfl rfl⟩
  | addc w s d =>
    exact ⟨.double w s d true true, .double 6 (by decide) (fun _ => rfl)
      (fun _ _ _ _ => ⟨rfl, rfl⟩) rfl rfl rfl rfl rfl⟩
  | subc w s d =>
    exact ⟨.double w s d true true, .double 7 (by decide) (fun _ => rfl)
      (fun _ _ _ _ => ⟨rfl, rfl⟩) rfl rfl rfl rfl rfl⟩
  | sub w s d =>
    exact ⟨.double w s d true true, .double 8 (by decide) (fun _ => rfl)
      (fun _ _ _ _ => ⟨rfl, rfl⟩) rfl rfl rfl rfl rfl⟩
  | cmp w s d =>
    exact ⟨.double w s d false true, .double 9 (by decide) (fun _ => rfl)
      (fun _ _ _ _ => ⟨rfl, rfl⟩) rfl rfl rfl rfl rfl⟩
  | dadd w s d =>
    exact ⟨.double w s d true true, .doubleAfter (fun s => s.draw.2.draw.2) (fun _ => .inr rfl) 10
      (by decide) (fun _ => rfl) (fun _ _ _ _ => daddEffect_isSome _ _ _ _ _ _) rfl rfl rfl rfl rfl⟩
  | bit w s d =>
    exact ⟨.double w s d false true, .double 11 (by decide) (fun _ => rfl)
      (fun _ _ _ _ => ⟨rfl, rfl⟩) rfl rfl rfl rfl rfl⟩
  | bic w s d =>
    exact ⟨.double w s d true false, .double 12 (by decide) (fun _ => rfl)
      (fun _ _ _ _ => ⟨rfl, rfl⟩) rfl rfl rfl rfl rfl⟩
  | bis w s d =>
    exact ⟨.double w s d true false, .double 13 (by decide) (fun _ => rfl)
      (fun _ _ _ _ => ⟨rfl, rfl⟩) rfl rfl rfl rfl rfl⟩
  | xor w s d =>
    exact ⟨.double w s d true true, .double 14 (by decide) (fun _ => rfl)
      (fun _ _ _ _ => ⟨rfl, rfl⟩) rfl rfl rfl rfl rfl⟩
  | and w s d =>
    exact ⟨.double w s d true true, .double 15 (by decide) (fun _ => rfl)
      (fun _ _ _ _ => ⟨rfl, rfl⟩) rfl rfl rfl rfl rfl⟩
  | rrc w o =>
    exact ⟨.single w o true, .single 0 (by decide) (fun _ => rfl)
      (fun _ _ _ => ⟨rfl, rfl⟩) rfl rfl rfl rfl rfl⟩
  | swpb o =>
    exact ⟨.single .word o false, .single 1 (by decide) (fun _ => rfl)
      (fun _ _ _ => ⟨rfl, rfl⟩) rfl rfl rfl rfl rfl⟩
  | rra w o =>
    exact ⟨.single w o true, .single 2 (by decide) (fun _ => rfl)
      (fun _ _ _ => ⟨rfl, rfl⟩) rfl rfl rfl rfl rfl⟩
  | sxt o =>
    exact ⟨.single .word o true, .single 3 (by decide) (fun _ => rfl)
      (fun _ _ _ => ⟨rfl, rfl⟩) rfl rfl rfl rfl rfl⟩
  | push w o => exact ⟨_, .push w o⟩
  | call o => exact ⟨_, .call o⟩
  | reti => exact ⟨_, .reti⟩
  | jne off =>
    exact ⟨.jump off, .jump 0 (by decide) (fun s => !srZ s.regs.sr) (fun _ => rfl) rfl rfl rfl rfl⟩
  | jeq off =>
    exact ⟨.jump off, .jump 1 (by decide) (fun s => srZ s.regs.sr) (fun _ => rfl) rfl rfl rfl rfl⟩
  | jnc off =>
    exact ⟨.jump off, .jump 2 (by decide) (fun s => !srC s.regs.sr) (fun _ => rfl) rfl rfl rfl rfl⟩
  | jc off =>
    exact ⟨.jump off, .jump 3 (by decide) (fun s => srC s.regs.sr) (fun _ => rfl) rfl rfl rfl rfl⟩
  | jn off =>
    exact ⟨.jump off, .jump 4 (by decide) (fun s => srN s.regs.sr) (fun _ => rfl) rfl rfl rfl rfl⟩
  | jge off =>
    exact ⟨.jump off, .jump 5 (by decide) (fun s => srN s.regs.sr == srV s.regs.sr) (fun _ => rfl)
      rfl rfl rfl rfl⟩
  | jl off =>
    exact ⟨.jump off, .jump 6 (by decide) (fun s => srN s.regs.sr != srV s.regs.sr) (fun _ => rfl)
      rfl rfl rfl rfl⟩
  | jmp off =>
    exact ⟨.jump off, .jump 7 (by decide) (fun _ => true) (fun _ => rfl) rfl rfl rfl rfl⟩
  | _ => cases h

/-- Every instruction that completes ran in a frame that fits its core form. -/
theorem exec_runs {i : Instr} {s t : State} (h : exec i s = .next t) :
    ∃ fr : Frame, fr.Fits i.core ∧ fr.Runs s t := by
  obtain ⟨fr, hfr⟩ := exists_frame (core_core i)
  exact ⟨fr, hfr, hfr.runs (emulatedIsCore i s ▸ h)⟩

/-! ### What the frames keep -/

theorem Keeps.draw (s : State) : Keeps s s.draw.2 := Quiet.keeps ⟨.draw s, id⟩

/-- A frame keeps what belongs to the step, and both invariants. -/
theorem Frame.Runs.keeps {fr : Frame} {s t : State} (h : fr.Runs s t) : Keeps s t := by
  cases h with
  | move h => exact moveOperand_keeps h
  | double hs _ h =>
    rcases hs with rfl | rfl
    · exact twoOperand_keeps h
    · exact ((Keeps.draw _).trans (Keeps.draw _)).trans (twoOperand_keeps h)
  | single _ h => exact oneOperand_keeps h
  | push h1 h2 => exact (readSrc_ok h1).2.2.trans (push_keeps h2)
  | call h1 h2 => exact ((readSrc_ok h1).2.2.trans (push_keeps h2)).trans (.setPc _ _)
  | reti h => exact returnFromInterrupt_keeps h
  | jump taken =>
    unfold jumpIf
    split
    · exact .setPc _ _
    · exact .refl _

/-- What a frame writes: PC, the registers it names, the status bits. -/
theorem Frame.Runs.written {fr : Frame} {s t : State} (h : fr.Runs s t) :
    Writes (.pc :: fr.writes) fr.flags s t := by
  have hpc : Reg.pc ∈ Reg.pc :: fr.writes := List.mem_cons_self
  have named : ∀ {l : List Reg}, l ⊆ fr.writes → l ⊆ .pc :: fr.writes := fun hl =>
    List.subset_cons_of_subset _ hl
  cases h with
  | move h =>
    obtain ⟨-, a, s1, loc, s2, h1, h2, h3⟩ := moveOperand_ok h
    exact ((readSrc_writes h1 hpc (named (List.subset_append_left _ _))).trans
      (dstLoc_writes h2 hpc)).trans (writeLoc_writes h3 (named (locNamed_of_dstLoc h2)))
  | @double w src dst stores flags s s0 t bad f hs hf h =>
    obtain ⟨-, a, s1, loc, s2, b, s3, h1, h2, h3, h4⟩ := twoOperand_ok h
    obtain ⟨hres, hfl⟩ := hf s3.regs.sr a b
    have hregs : s0.regs = s.regs := by rcases hs with rfl | rfl <;> rfl
    have hsrc : srcSteps src ⊆ (Frame.double w src dst stores flags).writes := by
      cases stores with
      | false => exact List.Subset.refl _
      | true => exact List.subset_append_left _ _
    have hloc : stores = true →
        locNamed loc ⊆ (Frame.double w src dst stores flags).writes := by
      rintro rfl
      exact locNamed_of_dstLoc h2
    exact ((((Writes.of_regs hregs).trans (readSrc_writes h1 hpc (named hsrc))).trans
      (dstLoc_writes h2 hpc)).trans (readLoc_writes h3)).trans
        (applyEffect_writes h4 (fun e => named (hloc (hres ▸ e))) (fun e => hfl ▸ e))
  | single hf h =>
    obtain ⟨loc, s1, v, s2, h1, h2, h3⟩ := oneOperand_ok h
    obtain ⟨-, hfl⟩ := hf s2.regs.sr v
    exact ((operandLoc_writes h1 hpc (named (List.subset_append_left _ _))).trans
      (readLoc_writes h2)).trans
        (applyEffect_writes h3 (fun _ => named (locNamed_of_operandLoc h1)) (fun e => hfl ▸ e))
  | push h1 h2 =>
    exact (readSrc_writes h1 hpc (named (List.subset_cons_self _ _))).trans
      (push_writes h2 (named (List.Subset.refl _) List.mem_cons_self))
  | call h1 h2 =>
    exact ((readSrc_writes h1 hpc (named (List.subset_cons_self _ _))).trans
      (push_writes h2 (named (List.Subset.refl _) List.mem_cons_self))).trans (.setPc _ _ hpc)
  | reti h =>
    obtain ⟨⟨sr, s1⟩, h1, h⟩ := bind_eq_ok.mp h
    obtain ⟨⟨pc, s2⟩, h2, h⟩ := bind_eq_ok.mp h
    cases h
    have hsp : Reg.sp ∈ Reg.pc :: Frame.reti.writes := by decide
    exact (((pop_writes h1 hsp).trans (pop_writes h2 hsp)).trans
      (.setReg _ (r := .sr) _ (by decide))).trans (.setPc _ _ hpc)
  | jump taken =>
    unfold jumpIf
    split
    · exact .setPc _ _ hpc
    · exact .of_regs rfl

/-- What an instruction writes: PC, the registers of its core form, the status bits. -/
theorem exec_writes {i : Instr} {s t : State} (h : exec i s = .next t) :
    Writes (.pc :: writes i) (writesFlags i) s t := by
  obtain ⟨fr, hfr, hrun⟩ := exec_runs h
  rw [writes, writesFlags, hfr.writes, hfr.flags]
  exact hrun.written

/-- What every instruction keeps: what belongs to the step, and both invariants. -/
theorem exec_keeps {i : Instr} {s t : State} (h : exec i s = .next t) : Keeps s t := by
  obtain ⟨fr, -, hrun⟩ := exec_runs h
  exact hrun.keeps

/-- Settles O28: every operation of an instruction keeps what belongs to the step. -/
theorem stepOwnedFrame : Obligations.StepOwnedFrame := fun _ _ _ h => (exec_keeps h).owned

/-- Settles O29: what an instruction writes, PC and SR set aside. -/
theorem registerFrame : Obligations.RegisterFrame := by
  intro i s t r h hpc hsr hr
  exact (exec_writes h).reg r hsr (List.not_mem_cons_of_ne_of_not_mem hpc hr)

/-- SR is none of an instruction's registers, PC counted with them. -/
theorem sr_notMem {l : List Reg} (h : .sr ∉ l) : Reg.sr ∉ Reg.pc :: l :=
  List.not_mem_cons_of_ne_of_not_mem (by decide) h

/-- Settles O30: a write of the status bits leaves the mode bits. -/
theorem modeBitsFrame : Obligations.ModeBitsFrame := fun _ _ _ h hsr =>
  (exec_writes h).mode (sr_notMem hsr)

/-- Settles O31: without a status bit of its own an instruction does not reach SR. -/
theorem statusFrame : Obligations.StatusFrame := fun _ _ _ h hsr hfl =>
  (exec_writes h).sr (sr_notMem hsr) hfl

/-! ### The program counter (R24, R96) -/

/-- An even PC two further per extension word. -/
theorem srcAfter_pc {w : Width} {src : Src} {s : State} (heven : s.regs.pc.getLsbD 0 = false)
    (hn : .pc ∉ srcSteps src) :
    (srcAfter w src s).regs.pc = s.regs.pc + BitVec.ofNat 16 (2 * src.ext) := by
  have hnext : (s.regs.pc + 2#16) &&& 0xFFFE#16 = s.regs.pc + 2#16 :=
    even_self _ (even_add_two heven)
  have hsame : s.regs.pc = s.regs.pc + BitVec.ofNat 16 (2 * 0) := (BitVec.add_zero _).symm
  cases src with
  | reg r => exact hsame
  | indirect r => exact hsame
  | const c => exact hsame
  | autoinc r =>
    have hne : Reg.pc ≠ r := fun he => hn (by rw [he]; exact List.mem_cons_self)
    exact (State.reg_setReg_other s r .pc _ hne).trans hsame
  | _ => exact hnext

theorem dstAfter_pc {dst : Dst} {s : State} (heven : s.regs.pc.getLsbD 0 = false)
    (hd : dst ≠ .unlisted) :
    (dstAfter dst s).regs.pc = s.regs.pc + BitVec.ofNat 16 (2 * dst.mode) := by
  have hnext : (s.regs.pc + 2#16) &&& 0xFFFE#16 = s.regs.pc + 2#16 :=
    even_self _ (even_add_two heven)
  cases dst with
  | reg r => exact (BitVec.add_zero _).symm
  | unlisted => exact absurd rfl hd
  | _ => exact hnext

theorem even_add_words (n : Nat) {a : Word} (h : a.getLsbD 0 = false) :
    (a + BitVec.ofNat 16 (2 * n)).getLsbD 0 = false := by
  rw [BitVec.ofNat_mul]
  exact Jumps.even_add_two_mul _ h

/-- PC after both operands of a Format I instruction have been evaluated. -/
theorem operands_pc {bad : Fault} {w : Width} {src : Src} {dst : Dst} {a : Word} {loc : Loc}
    {s s1 s2 : State} (heven : s.regs.pc.getLsbD 0 = false) (hn : .pc ∉ srcSteps src)
    (h1 : readSrc w src s = .ok (a, s1)) (h2 : dstLoc bad dst s1 = .ok (loc, s2)) :
    s2.regs.pc = s.regs.pc + BitVec.ofNat 16 (2 * (src.ext + dst.mode)) := by
  have hd : dst ≠ .unlisted := by rintro rfl; cases h2
  have hp1 : s1.regs.pc = s.regs.pc + BitVec.ofNat 16 (2 * src.ext) := by
    rw [(readSrc_ok h1).1, srcAfter_pc heven hn]
  have heven1 : s1.regs.pc.getLsbD 0 = false := hp1 ▸ even_add_words _ heven
  rw [(dstLoc_ok h2).1, dstAfter_pc heven1 hd, hp1, BitVec.add_assoc, ← BitVec.ofNat_add,
    Nat.mul_add]

/-- A frame that does not write PC leaves it past the extension words of its operands. -/
theorem Frame.Runs.pc {fr : Frame} {s t : State} (h : fr.Runs s t) (hseq : fr.sequential = true)
    (hn : .pc ∉ fr.writes) (heven : s.regs.pc.getLsbD 0 = false) :
    t.regs.pc = s.regs.pc + BitVec.ofNat 16 (2 * fr.ext) := by
  have kept : ∀ {u v : State}, Writes fr.writes true u v → v.regs.pc = u.regs.pc := fun k =>
    k.reg .pc (by decide) hn
  cases h with
  | move h =>
    obtain ⟨-, a, s1, loc, s2, h1, h2, h3⟩ := moveOperand_ok h
    rw [kept (writeLoc_writes h3 (locNamed_of_dstLoc h2))]
    exact operands_pc heven (fun m => hn (List.mem_append_left _ m)) h1 h2
  | @double w src dst stores flags s s0 t bad f hs hf h =>
    obtain ⟨-, a, s1, loc, s2, b, s3, h1, h2, h3, h4⟩ := twoOperand_ok h
    obtain ⟨hres, -⟩ := hf s3.regs.sr a b
    have hregs : s0.regs = s.regs := by rcases hs with rfl | rfl <;> rfl
    have hsrc : .pc ∉ srcSteps src := by
      cases stores with
      | false => exact hn
      | true => exact fun m => hn (List.mem_append_left _ m)
    have hloc : stores = true →
        locNamed loc ⊆ (Frame.double w src dst stores flags).writes := by
      rintro rfl
      exact locNamed_of_dstLoc h2
    rw [kept (applyEffect_writes h4 (fun e => hloc (hres ▸ e)) (fun _ => rfl)),
      (readLoc_quiet h3).only.regs, ← hregs]
    exact operands_pc (hregs ▸ heven) hsrc h1 h2
  | single hf h =>
    obtain ⟨loc, s1, v, s2, h1, h2, h3⟩ := oneOperand_ok h
    rw [kept (applyEffect_writes h3 (fun _ => locNamed_of_operandLoc h1) (fun _ => rfl)),
      (readLoc_quiet h2).only.regs, (operandLoc_ok h1).1]
    exact srcAfter_pc heven (fun m => hn (List.mem_append_left _ m))
  | push h1 h2 =>
    rw [kept (push_writes h2 List.mem_cons_self), (readSrc_ok h1).1]
    exact srcAfter_pc heven (List.not_mem_of_not_mem_cons hn)
  | call h1 h2 => cases hseq
  | reti h => cases hseq
  | jump taken => cases hseq

/-- Settles O32: the words an instruction fetches are the extension words its length counts. -/
theorem pcAdvance : Obligations.PcAdvance := by
  intro i s t hwf hseq heven h
  obtain ⟨hcwf, -, henc⟩ := coreForm i hwf
  obtain ⟨fr, hfr, hrun⟩ := exec_runs h
  rw [sequential, Bool.and_eq_true, decide_eq_true_eq, hfr.sequential, writes, hfr.writes] at hseq
  have hlen : i.length = 1 + fr.ext := by rw [Instr.length, ← henc]; exact hfr.length hcwf
  rw [hlen, Nat.add_sub_cancel_left]
  exact hrun.pc hseq.1 hseq.2 heven

/-! ### Memory (R54, R55, R71, R120, R140) -/

theorem byteAt_congr {s t : State} (h : t.mem = s.mem) (x : Word) : t.byteAt x = s.byteAt x := by
  rw [State.byteAt, State.byteAt, h]

/-- The fault of an undefined form does not reach what a defined one answers. -/
theorem dstLoc_bad {bad bad' : Fault} {dst : Dst} {s : State} {p : Loc × State}
    (h : dstLoc bad dst s = .ok p) : dstLoc bad' dst s = .ok p := by
  cases dst with
  | unlisted => cases h
  | _ => exact h

theorem operandLoc_bad {bad bad' : Fault} {w : Width} {opd : Src} {s : State} {p : Loc × State}
    (h : operandLoc bad w opd s = .ok p) : operandLoc bad' w opd s = .ok p := by
  cases opd with
  | immediate => cases h
  | const c => cases h
  | _ => exact h

section Bytes

variable {w : Width} {loc : Loc} {s s1 s2 t : State} {x : Word}
  (hx : ∀ ea, loc = .mem ea → x ∉ accessBytes w ea)
include hx

/-- A write to a place changes no byte outside it. -/
theorem writeLoc_byteAt {v : Word} (h : writeLoc w loc v s = .ok t) : t.byteAt x = s.byteAt x := by
  cases loc with
  | reg r => cases h; exact byteAt_congr (State.setReg_mem _ _ _) x
  | mem a => exact (memWrite_stores h).other x (hx a rfl)

theorem applyEffect_byteAt {e : Effect} (h : applyEffect w loc e s = .ok t) :
    t.byteAt x = s.byteAt x := by
  have hflags : (withEffectFlags e.flags s).byteAt x = s.byteAt x := by cases e.flags <;> rfl
  rw [applyEffect_eq] at h
  split at h
  · exact (writeLoc_byteAt hx h).trans hflags
  · cases h; exact hflags

variable {bad bad' : Fault} {src opd : Src} {dst : Dst} {a : Word}

theorem twoOperand_byteAt {f : Word → Word → Word → Effect}
    (h : twoOperand bad' w src dst f s = .ok t) (h1 : readSrc w src s = .ok (a, s1))
    (h2 : dstLoc bad dst s1 = .ok (loc, s2)) :
    t.byteAt x = s.byteAt x := by
  obtain ⟨-, a', s1', loc', s2', b, s3, k1, k2, k3, k4⟩ := twoOperand_ok h
  cases k1.symm.trans h1
  cases (dstLoc_bad k2).symm.trans h2
  rw [applyEffect_byteAt hx k4, byteAt_congr (readLoc_quiet k3).only.mem,
    byteAt_congr (dstLoc_ok h2).2.1, byteAt_congr (readSrc_ok h1).2.1]

theorem moveOperand_byteAt (h : moveOperand bad' w src dst s = .ok t)
    (h1 : readSrc w src s = .ok (a, s1)) (h2 : dstLoc bad dst s1 = .ok (loc, s2)) :
    t.byteAt x = s.byteAt x := by
  obtain ⟨-, a', s1', loc', s2', k1, k2, k3⟩ := moveOperand_ok h
  cases k1.symm.trans h1
  cases (dstLoc_bad k2).symm.trans h2
  rw [writeLoc_byteAt hx k3, byteAt_congr (dstLoc_ok h2).2.1, byteAt_congr (readSrc_ok h1).2.1]

theorem oneOperand_byteAt {f : Word → Word → Effect} (h : oneOperand bad' w opd f s = .ok t)
    (h1 : operandLoc bad w opd s = .ok (loc, s1)) : t.byteAt x = s.byteAt x := by
  obtain ⟨loc', s1', v, s2', k1, k2, k3⟩ := oneOperand_ok h
  cases (operandLoc_bad k1).symm.trans h1
  rw [applyEffect_byteAt hx k3, byteAt_congr (readLoc_quiet k2).only.mem,
    byteAt_congr (operandLoc_ok h1).2.1]

end Bytes

/-- A Format I instruction that stores nothing changes no byte. -/
theorem twoOperand_byteAt_of_none {bad : Fault} {w : Width} {src : Src} {dst : Dst}
    {f : Word → Word → Word → Effect} {s t : State} (x : Word)
    (hf : ∀ sr a b, (f sr a b).result = none) (h : twoOperand bad w src dst f s = .ok t) :
    t.byteAt x = s.byteAt x := by
  obtain ⟨-, a, s1, loc, s2, b, s3, h1, h2, h3, h4⟩ := twoOperand_ok h
  rw [applyEffect_eq, hf] at h4
  cases h4
  have hflags : ∀ fl, (withEffectFlags fl s3).byteAt x = s3.byteAt x := fun fl => by
    cases fl <;> rfl
  rw [hflags, byteAt_congr (readLoc_quiet h3).only.mem, byteAt_congr (dstLoc_ok h2).2.1,
    byteAt_congr (readSrc_ok h1).2.1]

/-- Settles O33: MOV by its own frame, DADD after its two free values. -/
theorem memoryFrameStoring : Obligations.MemoryFrameStoring := by
  intro w src dst s s0 t s1 s2 a loc bad i x hi h h1 h2 hx
  rcases hi with ⟨rfl, hi⟩ | ⟨rfl, rfl⟩
  · rcases hi with rfl | rfl | rfl | rfl | rfl | rfl | rfl | rfl | rfl
    case inl => exact moveOperand_byteAt hx (toOutcome_next.mp h) h1 h2
    all_goals exact twoOperand_byteAt hx (toOutcome_next.mp h) h1 h2
  · exact twoOperand_byteAt (s := s.draw.2.draw.2) hx (toOutcome_next.mp h) h1 h2

/-- Settles O34: the four instructions are one frame. -/
theorem memoryFrameSingle : Obligations.MemoryFrameSingle := by
  intro w opd s t s1 loc bad i x hi h h1 hx
  rcases hi with rfl | rfl | ⟨rfl, rfl | rfl⟩ <;>
    exact oneOperand_byteAt hx (toOutcome_next.mp h) h1

/-- Settles O35: the push is the only store of both. -/
theorem memoryFrameStack : Obligations.MemoryFrameStack := by
  intro w opd s t s1 a i x hi h h1 hx
  have slot : ∀ {v : Word} {u : State}, push w v s1 = .ok u → u.byteAt x = s.byteAt x := fun h2 =>
    ((push_ok h2).other x hx).trans (byteAt_congr (readSrc_ok h1).2.1 x)
  rcases hi with rfl | ⟨rfl, rfl⟩
  · cases (Frame.Fits.push w opd).runs h with
    | push k1 k2 =>
      cases k1.symm.trans h1
      exact slot k2
  · cases (Frame.Fits.call opd).runs h with
    | call k1 k2 =>
      cases k1.symm.trans h1
      have hbytes := slot k2
      exact hbytes

/-- Two pops change no byte. -/
theorem returnFromInterrupt_byteAt {s t : State} (x : Word) (h : returnFromInterrupt s = .ok t) :
    t.byteAt x = s.byteAt x := by
  obtain ⟨⟨sr, s1⟩, h1, h⟩ := bind_eq_ok.mp h
  obtain ⟨⟨pc, s2⟩, h2, h⟩ := bind_eq_ok.mp h
  cases h
  obtain ⟨u1, -, hq1, rfl⟩ := pop_ok h1
  obtain ⟨u2, -, hq2, rfl⟩ := pop_ok h2
  exact (byteAt_congr hq2.only.mem x).trans (byteAt_congr hq1.only.mem x)

theorem jumpIf_byteAt (taken : Bool) (off : BitVec 10) (s : State) (x : Word) :
    (jumpIf taken off s).byteAt x = s.byteAt x := by cases taken <;> rfl

/-- Settles O36: CMP and BIT have no result, RETI only loads, a jump touches PC alone. -/
theorem memoryFrameNone : Obligations.MemoryFrameNone := by
  intro i s t x hi h
  rcases hi with ⟨w, src, dst, rfl | rfl⟩ | rfl | ⟨off, hj⟩
  · exact twoOperand_byteAt_of_none x (fun _ _ _ => rfl) (toOutcome_next.mp h)
  · exact twoOperand_byteAt_of_none x (fun _ _ _ => rfl) (toOutcome_next.mp h)
  · exact returnFromInterrupt_byteAt x (toOutcome_next.mp h)
  · rcases hj with rfl | rfl | rfl | rfl | rfl | rfl | rfl | rfl <;> cases h <;>
      exact jumpIf_byteAt _ _ _ _

/-! ### Forms no source defines (R99, R102, R145) -/

theorem twoOperand_undefined {bad : Fault} {w : Width} {src : Src} {dst : Dst}
    {f : Word → Word → Word → Effect} {s : State}
    (h : dst = .unlisted ∨ dst = .reg .cg ∧ s.params.r3Dst = .fault) :
    twoOperand bad w src dst f s = .error bad := by
  have hd : dstDefined s.params.r3Dst dst = false := by
    rcases h with rfl | ⟨rfl, hp⟩
    · rfl
    · rw [hp]; rfl
  rw [twoOperand, hd]
  rfl

theorem oneOperand_undefined {bad : Fault} {w : Width} {opd : Src} {f : Word → Word → Effect}
    {s : State} (h : opdHasPlace opd = false) : oneOperand bad w opd f s = .error bad := by
  cases opd with
  | immediate => rfl
  | const c => rfl
  | _ => cases h

/-- Settles O27: each frame stops before its first operand access. -/
theorem undefinedFormsStop : Obligations.UndefinedFormsStop := by
  intro w src dst s i h
  rcases h with ⟨hp, rfl | rfl | rfl | rfl⟩ | ⟨rfl, rfl⟩ | ⟨hd, hi⟩ | rfl
  case inr.inr.inl =>
    rcases hi with rfl | rfl | rfl | rfl | rfl | rfl | rfl | rfl | rfl | rfl | rfl
    case inr.inr.inr.inr.inr.inl =>
      exact congrArg toOutcome (twoOperand_undefined (s := s.draw.2.draw.2) hd)
    all_goals exact congrArg toOutcome (twoOperand_undefined hd)
  case inr.inl => rfl
  case inr.inr.inr => rfl
  all_goals exact congrArg toOutcome (oneOperand_undefined hp)

end Sys2Proof.Proofs.Frames
end

section
/-! PROOF. The step (60_exceptions.md R226 to R240, 70_reset_and_hazards.md R260 to R264): what a
boundary can come to, what every step keeps, and what the step does where nothing is accepted. -/

namespace Sys2Proof.Proofs.Step

open Sys2Proof.Machine
open Sys2Proof.Proofs.Encoding Sys2Proof.Proofs.Frames

/-! ### What a boundary comes to (R226) -/

/-- What an instruction that completes as a step has done: a word fetched, decoded and executed. -/
theorem executeOne_next {s t : State} (h : executeOne s = .next t) :
    ∃ iw u i v, fetchWord s = .ok (iw, u) ∧ decode iw = .ok i ∧ exec i u = .next v ∧
      t = finish i (srGie s.regs.sr) v := by
  unfold executeOne at h
  split at h
  · cases h
  · rename_i iw u hfetch
    split at h
    · cases h
    · rename_i i hdec
      obtain ⟨v, hexec, rfl⟩ := mapNext_next.mp (decodeFaultHolds_next.mp h)
      exact ⟨iw, u, i, v, hfetch, hdec, hexec, rfl⟩

/-- A step that completes is a reset, an interrupt entry, an idle step or an instruction. -/
theorem boundary_next {r a : Bool} {s t : State} (h : boundary r a s = .next t) :
    resetOp s = .ok t ∨
    (∃ q m u, interruptEntry q m s = .ok u ∧ t = u.addCycles interruptCycles) ∨
    t = idleStep s ∨ executeOne s = .next t := by
  unfold boundary at h
  split at h
  · exact .inl (toOutcome_next.mp h)
  · split at h
    · obtain ⟨u, hu, rfl⟩ := mapNext_next.mp h
      exact .inr (.inl ⟨_, _, u, toOutcome_next.mp hu, rfl⟩)
    · split at h
      · cases h
        exact .inr (.inr (.inl rfl))
      · exact .inr (.inr (.inr h))

/-- The platform's turn changes devices, and takes its answer off the script. -/
theorem DeviceOnly.of_atBoundary {s u : State} {a : Bool} (h : atBoundary s u a) :
    ∃ rest, DeviceOnly { s with ticks := rest } u := by
  rcases h with ⟨-, -, rfl⟩ | ⟨tk, rest, -, -, -, rfl⟩
  · exact ⟨u.ticks, .refl u⟩
  · exact ⟨rest, .events _ _⟩

/-- Where no reset is requested, the step is the boundary after the platform's turn. -/
theorem step_of_atBoundary {s u : State} {a : Bool} (h : atBoundary s u a) :
    step s = boundary false a u := by
  rcases h with ⟨ht, rfl, rfl⟩ | ⟨tk, rest, ht, hr, rfl, rfl⟩
  · simp only [step, cycle, ht]
  · simp only [step, cycle, ht, hr]

/-- Where nothing is accepted the step idles or runs one instruction. -/
theorem step_of_none {s u : State} {a : Bool} (h : atBoundary s u a)
    (hreq : u.requesting (u.maskableAccepted a) = none) :
    step s = if srCpuOff u.regs.sr then .next (idleStep u) else executeOne u := by
  rw [step_of_atBoundary h, boundary, hreq]
  rfl

/-- A plain word at PC that decodes is run with PC past it. -/
theorem executeOne_plain {s : State} {i : Instr} (hr : s.canRead .word s.regs.pc = true)
    (hd : decode (s.valueAt .word s.regs.pc) = .ok i) :
    executeOne s = decodeFaultHolds s
      (mapNext (finish i (srGie s.regs.sr)) (exec i (s.setPc (s.regs.pc + 2#16)))) := by
  simp only [executeOne, fetchWord_plain hr, hd]

/-- A plain word at PC that does not decode stops the step. -/
theorem executeOne_illegal {s : State} {e : DecodeError} (hr : s.canRead .word s.regs.pc = true)
    (hd : decode (s.valueAt .word s.regs.pc) = .error e) :
    executeOne s = .fault (.illegalInstruction s.regs.pc (s.valueAt .word s.regs.pc) s) := by
  simp only [executeOne, fetchWord_plain hr, hd]

/-! ### The GIE history (R228) -/

theorem historyAfter_of_ne {i : Instr} (h : i ≠ .reti) (old : Bool) (s : State) :
    historyAfter i old s = s.setHistory old s.g1 := by
  unfold historyAfter
  split
  · exact absurd rfl h
  · rfl

/-- The history after an instruction that completed: GIE before it and the newest entry, or after
RETI the restored GIE twice. -/
theorem history_of_executeOne {s t : State} {i : Instr} (h : executeOne s = .next t)
    (hi : instructionAt i s) :
    (i ≠ .reti → t.g1 = srGie s.regs.sr ∧ t.g2 = s.g1) ∧
    (i = .reti → t.g1 = srGie t.regs.sr ∧ t.g2 = srGie t.regs.sr) := by
  obtain ⟨iw, u, i', v, hfetch, hdec, hexec, rfl⟩ := executeOne_next h
  obtain ⟨iw', u', hfetch', hdec'⟩ := hi
  cases hfetch.symm.trans hfetch'
  cases hdec.symm.trans hdec'
  have hg1 : v.g1 = s.g1 := (exec_keeps hexec).owned.g1.trans (fetchWord_keeps hfetch).owned.g1
  constructor
  · intro hne
    rw [finish, historyAfter_of_ne hne]
    exact ⟨rfl, hg1⟩
  · rintro rfl
    exact ⟨rfl, rfl⟩

/-- The gate of R228 in one formula. -/
theorem maskableAccepted_eq (s : State) (a : Bool) :
    s.maskableAccepted a = if srGie s.regs.sr then s.g1 else (s.g1 || s.g2) && a := by
  unfold State.maskableAccepted gieGate
  cases srGie s.regs.sr <;> cases s.g1 <;> cases s.g2 <;> rfl

/-- The gate looks at SR and the history alone. -/
theorem maskableAccepted_congr {s t : State} (h : DeviceOnly s t) (a : Bool) :
    t.maskableAccepted a = s.maskableAccepted a := by
  rw [maskableAccepted_eq, maskableAccepted_eq, h.regs, h.g1, h.g2]

/-! ### The invariants -/

/-- Both invariants are kept from `s` to `t`. -/
structure KeepsInv (s t : State) : Prop where
  inv   : Inv s → Inv t
  timer : TimerInv s → TimerInv t

theorem KeepsInv.trans {s t u : State} (h : KeepsInv s t) (k : KeepsInv t u) : KeepsInv s u :=
  ⟨fun i => k.inv (h.inv i), fun i => k.timer (h.timer i)⟩

theorem KeepsInv.of_keeps {s t : State} (h : Keeps s t) : KeepsInv s t := ⟨h.inv, h.timer⟩

theorem KeepsInv.setHistory (s : State) (a b : Bool) : KeepsInv s (s.setHistory a b) := ⟨id, id⟩

theorem KeepsInv.addCycles (s : State) (n : Nat) : KeepsInv s (s.addCycles n) := ⟨id, id⟩

theorem KeepsInv.setTicks (s : State) (l : List Tick) : KeepsInv s { s with ticks := l } := ⟨id, id⟩

theorem KeepsInv.events (es : List PlatformEvent) (s : State) : KeepsInv s (s.events es) :=
  ⟨Inv.deviceOnly (.events es s), TimerInv.events es s⟩

theorem KeepsInv.freeRegs (l : List Reg) (s : State) : KeepsInv s (State.freeRegs l s) := by
  induction l generalizing s with
  | nil => exact ⟨id, id⟩
  | cons r l ih => exact (KeepsInv.of_keeps ((Keeps.draw s).trans (.setReg _ r _))).trans (ih _)

/-- A reset clears the timer's registers, whatever they held. -/
theorem KeepsInv.setDev_puc (s : State) : KeepsInv s (s.setDev s.dev.puc) :=
  ⟨id, fun _ => TimerClean.puc s.dev⟩

theorem resetOp_keepsInv {s t : State} (h : resetOp s = .ok t) : KeepsInv s t := by
  obtain ⟨⟨start, u⟩, hread, h⟩ := bind_eq_ok.mp h
  cases h
  have hcpu : KeepsInv s ((u.setPc start).setSr 0#16) :=
    .of_keeps (((memRead_quiet hread).keeps.trans (.setPc _ _)).trans (.setSr _ _))
  exact (((hcpu.trans (.setHistory _ _ _)).trans (.freeRegs _ _)).trans (.setDev_puc _)).trans
    (.addCycles _ _)

theorem finish_keepsInv (i : Instr) (old : Bool) (s : State) : KeepsInv s (finish i old s) := by
  refine KeepsInv.trans (t := historyAfter i old s) ?_ (.addCycles _ _)
  unfold historyAfter
  split <;> exact .setHistory _ _ _

theorem executeOne_keepsInv {s t : State} (h : executeOne s = .next t) : KeepsInv s t := by
  obtain ⟨iw, u, i, v, hfetch, -, hexec, rfl⟩ := executeOne_next h
  exact (KeepsInv.of_keeps ((fetchWord_keeps hfetch).trans (exec_keeps hexec))).trans
    (finish_keepsInv _ _ _)

theorem boundary_keepsInv {r a : Bool} {s t : State} (h : boundary r a s = .next t) :
    KeepsInv s t := by
  rcases boundary_next h with h | ⟨q, m, u, hu, rfl⟩ | rfl | h
  · exact resetOp_keepsInv h
  · obtain ⟨v, hv, rfl⟩ := interruptEntry_ok hu
    exact ((KeepsInv.of_keeps hv).trans (.setHistory _ _ _)).trans (.addCycles _ _)
  · exact .setHistory _ _ _
  · exact executeOne_keepsInv h

/-- Every step keeps both invariants. -/
theorem step_keepsInv {s t : State} (h : step s = .next t) : KeepsInv s t := by
  unfold step cycle at h
  split at h
  · exact boundary_keepsInv h
  · exact ((KeepsInv.setTicks _ _).trans (.events _ _)).trans (boundary_keepsInv h)

/-- Settles O48: the invariant of the CPU along every kind of step. -/
theorem invStep : Obligations.InvStep := fun _ _ hs h => (step_keepsInv h).inv hs

/-- Settles O49: the invariant of the timer along every kind of step. -/
theorem timerInvStep : Obligations.TimerInvStep := fun _ _ hs h => (step_keepsInv h).timer hs

/-- Settles O50: a closed state, by evaluation. -/
theorem resetMeetsInvariants : Obligations.ResetMeetsInvariants := by
  unfold Obligations.ResetMeetsInvariants Machine.Inv TimerInv
  decide

/-! ### Instructions, idling, halting -/

/-- Settles O37: the step runs one instruction, and its fetch is plain. -/
theorem stepRunsDecoded : Obligations.StepRunsDecoded := by
  intro s u i a hb hreq hon hread hdec
  rw [step_of_none hb hreq, hon, executeOne_plain hread hdec]
  rfl

/-- Settles O38: the ranges are those of `Unassigned`. -/
theorem illegalWordsStop : Obligations.IllegalWordsStop := by
  rintro s u iw a hb hreq hon hread rfl
  refine ⟨fun hill => ?_, (exists_decode_iff _).mpr⟩
  obtain ⟨e, hdec⟩ := decode_of_unassigned hill
  rw [step_of_none hb hreq, hon, executeOne_illegal hread hdec]
  rfl

/-- A halted CPU's step changes nothing: the history it would move on is already clear. -/
theorem step_of_halted {s : State} (h : halted s = true) : step s = .next s := by
  simp only [halted, Bool.and_eq_true, Bool.not_eq_true', List.isEmpty_iff,
    Option.isNone_iff_eq_none] at h
  obtain ⟨⟨⟨⟨⟨hoff, hgie⟩, hg1⟩, hg2⟩, hticks⟩, hreq⟩ := h
  have hgate : s.maskableAccepted false = false := by simp [maskableAccepted_eq, hgie]
  have hidle : idleStep s = s := by
    have hsame : s.setHistory s.g1 s.g2 = s := rfl
    rw [hg1, hg2] at hsame
    rw [idleStep, hgie, hg1, hsame]
  rw [step_of_none (a := false) (.inl ⟨hticks, rfl, rfl⟩) (by rw [hgate, hreq]), hoff, hidle]
  rfl

/-- Settles O47, by induction on the number of steps. -/
theorem haltedForever : Obligations.HaltedForever := by
  intro s n h
  induction n with
  | zero => rfl
  | succ n ih =>
    have hstep : Sys2Proof.core.step s = .next s := step_of_halted h
    simp only [Host.Core.run, hstep]
    exact ih

/-! ### The gate of the GIE history (R227, R228) -/

/-- Settles O41: the gate on the history the instruction leaves. -/
theorem gieDelay : Obligations.GieDelay := by
  intro s t i a h hi
  obtain ⟨hother, hreti⟩ := history_of_executeOne h hi
  constructor
  · intro hne hold hnew
    have hg1 : t.g1 = false := (hother hne).1.trans hold
    have hgate : ∀ b, t.maskableAccepted b = false := fun b => by
      rw [maskableAccepted_eq, hnew, hg1]
      rfl
    refine ⟨hgate a, fun u hb hreq hon => ?_⟩
    obtain ⟨rest, hdev⟩ := DeviceOnly.of_atBoundary hb
    have hclosed : u.maskableAccepted a = false :=
      (maskableAccepted_congr hdev a).trans (hgate a)
    rw [step_of_none hb (by rw [hclosed, hreq]), hon]
    rfl
  · intro hr
    obtain ⟨hg1, hg2⟩ := hreti hr
    rw [maskableAccepted_eq, hg1, hg2]
    cases srGie t.regs.sr <;> rfl

/-- Settles O42: the window lasts while the history holds a set GIE. -/
theorem dintWindow : Obligations.DintWindow := by
  constructor
  · intro s t i a h hi hne hold hnew
    obtain ⟨hg1, -⟩ := (history_of_executeOne h hi).1 hne
    rw [maskableAccepted_eq, hnew, hg1, hold]
    rfl
  · intro s t t1 u i j b a h hi hine hb h' hj hjne ht hu
    obtain ⟨hg1, -⟩ := (history_of_executeOne h hi).1 hine
    obtain ⟨hg1', hg2'⟩ := (history_of_executeOne h' hj).1 hjne
    obtain ⟨rest, hdev⟩ := DeviceOnly.of_atBoundary hb
    have hclear : srGie t1.regs.sr = false := by rw [hdev.regs]; exact ht
    have hsecond : t1.g1 = srGie s.regs.sr := hdev.g1.trans hg1
    rw [maskableAccepted_eq, hu, hg1', hg2', hclear, hsecond]
    rfl

/-! ### Reset (R260 to R264) -/

/-- A register that is not on the list keeps its value. -/
theorem freeRegs_reg {q : Reg} {l : List Reg} (hq : q ∉ l) (s : State) :
    (State.freeRegs l s).reg q = s.reg q := by
  induction l generalizing s with
  | nil => rfl
  | cons r l ih =>
    obtain ⟨hne, hl⟩ := not_or.mp (mt List.mem_cons.mpr hq)
    exact (ih hl _).trans ((State.reg_setReg_other _ r q _ hne).trans (State.reg_congr rfl q))

/-- The registers a reset leaves unspecified are neither PC nor SR, and SP comes out even. -/
theorem freeRegs_unspecified (s : State) :
    (State.freeRegs unspecifiedRegs s).regs.pc = s.regs.pc ∧
    (State.freeRegs unspecifiedRegs s).regs.sr = s.regs.sr ∧
    (State.freeRegs unspecifiedRegs s).regs.sp.getLsbD 0 = false := by
  have hsp : (State.freeRegs unspecifiedRegs s).reg .sp = (s.freeReg .sp).reg .sp :=
    freeRegs_reg (by decide) (s.freeReg .sp)
  refine ⟨freeRegs_reg (q := .pc) (by decide) s, freeRegs_reg (q := .sr) (by decide) s, ?_⟩
  exact (congrArg (fun v : Word => v.getLsbD 0) hsp).trans (even_and _)

/-- Outside the register file a reset's free values change the count of them alone. -/
theorem freeRegs_frame (l : List Reg) (s : State) :
    StepOwned s (State.freeRegs l s) ∧ (State.freeRegs l s).mem = s.mem ∧
      (State.freeRegs l s).dev = s.dev := by
  induction l generalizing s with
  | nil => exact ⟨(Keeps.refl s).owned, rfl, rfl⟩
  | cons r l ih =>
    obtain ⟨howned, hmem, hdev⟩ := ih (s.freeReg r)
    exact ⟨((Keeps.draw s).trans (.setReg _ r _)).owned.trans howned,
      hmem.trans (State.setReg_mem _ _ _), hdev.trans (State.setReg_dev _ _ _)⟩

/-- The CPU after a reset with the vector's word read: PC there, SR and the history cleared. -/
def clearedCpu (start : Word) (s : State) : State :=
  ((s.setPc start).setSr 0#16).setHistory false false

theorem srStored_zero (p : SrReserved) : srStored p 0#16 = 0#16 := by cases p <;> rfl

/-- A reset from a plain vector completes. -/
theorem resetOp_plain {s : State}
    (h : s.canRead .word (vectorAddress s.params.resetVector) = true) :
    resetOp s = .ok (((State.freeRegs unspecifiedRegs
      (clearedCpu (s.valueAt .word (vectorAddress s.params.resetVector)) s)).setDev
        s.dev.puc).addCycles resetCycles) := by
  obtain ⟨-, -, hdev⟩ := freeRegs_frame unspecifiedRegs
    (clearedCpu (s.valueAt .word (vectorAddress s.params.resetVector)) s)
  have hdev' : (clearedCpu (s.valueAt .word (vectorAddress s.params.resetVector)) s).dev = s.dev :=
    rfl
  rw [resetOp, memRead_plain h, ← hdev', ← hdev]
  rfl

/-- What a reset leaves of a port (R264). -/
theorem port_puc (d : Devices) (p : PortId) : d.puc.port p = (d.port p).puc := by cases p <;> rfl

/-- Settles O39: the reset in closed form, read off field by field. -/
theorem resetStep : Obligations.ResetStep := by
  rintro s u tk rest hticks hreset rfl hread
  have hstep : step s = toOutcome (resetOp (State.events { s with ticks := rest } tk.events)) := by
    simp only [step, cycle, hticks, hreset, boundary, if_true]
  have hrest := (DeviceOnly.events tk.events { s with ticks := rest }).ticks
  generalize State.events { s with ticks := rest } tk.events = u at hread hstep hrest ⊢
  rw [resetOp_plain hread] at hstep
  generalize u.valueAt .word (vectorAddress u.params.resetVector) = start at hstep ⊢
  obtain ⟨hpc, hsr, hsp⟩ := freeRegs_unspecified (clearedCpu start u)
  obtain ⟨howned, hmem, -⟩ := freeRegs_frame unspecifiedRegs (clearedCpu start u)
  refine ⟨_, hstep, hpc, hsr.trans (srStored_zero _), hsp, howned.g1, howned.g2, hmem,
    howned.params, howned.ticks.trans hrest, fun p => ?ports, rfl, fun b hb => ?blocks,
    List.length_map _, rfl⟩
  case ports =>
    simp only [State.addCycles_dev, State.setDev_dev, port_puc, Port.puc, and_self]
  case blocks =>
    obtain ⟨c, -, rfl⟩ := List.mem_map.mp hb
    rfl

/-- Settles O51: a closed state, by evaluation, port by port. -/
theorem resetState : Obligations.ResetState := by
  refine ⟨rfl, rfl, rfl, rfl, fun p => ?ports, rfl, ?blocks⟩
  case ports => cases p <;> exact ⟨rfl, rfl, rfl, rfl, rfl, rfl⟩
  case blocks => decide

/-- Settles O46. Last in its namespace, where its name covers the model's `idleStep`. -/
theorem idleStep : Obligations.IdleStep := by
  intro s u a hb hreq hoff
  rw [step_of_none hb hreq, hoff]
  rfl

end Sys2Proof.Proofs.Step
end

section
/-! PROOF. Decimal addition (40_double_operand.md R129, 43_emulated.md R187). The digit loop adds
BCD numbers: its digits are BCD, and with the carry they stand for the sum. -/

namespace Sys2Proof.Proofs.Decimal

open Sys2Proof.Machine
open Sys2Proof.Proofs.DoubleOperand Sys2Proof.Proofs.Emulated

/-! ### The digit loop (R129) -/

theorem bcdValue_lt {m a : Nat} (h : isBcd m a = true) : bcdValue m a < 10 ^ m := by
  induction m generalizing a with
  | zero => exact Nat.one_pos
  | succ m ih =>
    simp only [isBcd, Bool.and_eq_true, decide_eq_true_eq] at h
    have hrest := ih h.2
    rw [bcdValue, Nat.pow_succ]
    omega

theorem bcd_zero (m : Nat) : isBcd m 0 = true ∧ bcdValue m 0 = 0 := by
  induction m with
  | zero => exact ⟨rfl, rfl⟩
  | succ m ih => simp [isBcd, bcdValue, ih]

/-- The digit loop on BCD numbers: its digits are BCD, its carry is at most 1, and together they stand
for the sum. -/
theorem daddDigits_bcd {m a b c : Nat} (ha : isBcd m a = true) (hb : isBcd m b = true)
    (hc : c ≤ 1) :
    isBcd m (daddDigits m a b c).1 = true ∧ (daddDigits m a b c).1 < 16 ^ m ∧
      (daddDigits m a b c).2 ≤ 1 ∧
      bcdValue m (daddDigits m a b c).1 + 10 ^ m * (daddDigits m a b c).2 =
        bcdValue m a + bcdValue m b + c := by
  induction m generalizing a b c with
  | zero => simp [isBcd, daddDigits, bcdValue, hc]
  | succ m ih =>
    simp only [isBcd, Bool.and_eq_true, decide_eq_true_eq] at ha hb
    obtain ⟨carry, hcarry⟩ : ∃ k, k = if 10 ≤ a % 16 + b % 16 + c then 1 else 0 := ⟨_, rfl⟩
    obtain ⟨digit, hdigit⟩ : ∃ d, d = if 10 ≤ a % 16 + b % 16 + c then a % 16 + b % 16 + c - 10
        else a % 16 + b % 16 + c := ⟨_, rfl⟩
    have hstep : daddDigits (m + 1) a b c =
        (digit + 16 * (daddDigits m (a / 16) (b / 16) carry).1,
          (daddDigits m (a / 16) (b / 16) carry).2) := by
      rw [hcarry, hdigit]; rfl
    have hle : carry ≤ 1 := by rw [hcarry]; split <;> omega
    have hlt : digit < 10 := by rw [hdigit]; split <;> omega
    have hsum : digit + 10 * carry = a % 16 + b % 16 + c := by
      rw [hcarry, hdigit]; split <;> omega
    obtain ⟨hbcd, hfit, hout, hvalue⟩ := ih ha.2 hb.2 hle
    rw [hstep]
    generalize daddDigits m (a / 16) (b / 16) carry = rest at hbcd hfit hout hvalue ⊢
    have hmod : (digit + 16 * rest.1) % 16 = digit := by omega
    have hdiv : (digit + 16 * rest.1) / 16 = rest.1 := by omega
    refine ⟨?_, ?_, hout, ?_⟩
    · simp only [isBcd, hmod, hdiv, hbcd, hlt, decide_true, Bool.and_self]
    · rw [Nat.pow_succ]
      omega
    · simp only [bcdValue, hmod, hdiv]
      rw [Nat.pow_succ, Nat.mul_comm (10 ^ m) 10, Nat.mul_assoc]
      omega

theorem sixteen_pow_bcdDigits (w : Width) : 16 ^ bcdDigits w = 2 ^ w.bits := by cases w <;> rfl

/-- DADD on BCD operands: the BCD sum modulo 10^m, C where it does not fit. -/
theorem daddEffect_bcd (w : Width) (c : Bool) (open1 open2 : Word) {a b : Word}
    (ha : isBcd (bcdDigits w) a.toNat = true) (hb : isBcd (bcdDigits w) b.toNat = true) :
    ∃ r : Word, isBcd (bcdDigits w) r.toNat = true ∧ r.toNat < 2 ^ w.bits ∧
      bcdValue (bcdDigits w) r.toNat =
        (bcdValue (bcdDigits w) a.toNat + bcdValue (bcdDigits w) b.toNat + c.toNat)
          % 10 ^ bcdDigits w ∧
      daddEffect w c open1 open2 a b = ⟨some r,
        some { v := open1.getLsbD 0, n := w.msb r, z := decide (r = 0#16)
               c := decide (10 ^ bcdDigits w ≤
                bcdValue (bcdDigits w) a.toNat + bcdValue (bcdDigits w) b.toNat + c.toNat) }⟩ := by
  obtain ⟨hbcd, hfit, hout, hvalue⟩ := daddDigits_bcd ha hb (Bool.toNat_le c)
  have heff : daddEffect w c open1 open2 a b = ⟨some (BitVec.ofNat 16
        (daddDigits (bcdDigits w) a.toNat b.toNat c.toNat).1),
      some { v := open1.getLsbD 0
             n := w.msb (BitVec.ofNat 16 (daddDigits (bcdDigits w) a.toNat b.toNat c.toNat).1)
             z := decide (BitVec.ofNat 16
              (daddDigits (bcdDigits w) a.toNat b.toNat c.toNat).1 = 0#16)
             c := decide ((daddDigits (bcdDigits w) a.toNat b.toNat c.toNat).2 = 1) }⟩ := by
    simp only [daddEffect, ha, hb, Bool.and_self, if_true]
  rw [heff]
  generalize daddDigits (bcdDigits w) a.toNat b.toNat c.toNat = sum at hbcd hfit hout hvalue ⊢
  rw [sixteen_pow_bcdDigits] at hfit
  have hr : (BitVec.ofNat 16 sum.1).toNat = sum.1 := by
    rw [BitVec.toNat_ofNat]
    exact Nat.mod_eq_of_lt (Nat.lt_of_lt_of_le hfit (bits_le w))
  have hlt := bcdValue_lt hbcd
  refine ⟨BitVec.ofNat 16 sum.1, by rwa [hr], by rwa [hr], ?_, ?_⟩
  · rw [hr, ← hvalue, Nat.add_mul_mod_self_left, Nat.mod_eq_of_lt hlt]
  · have hcarry : sum.2 = 1 ↔ 10 ^ bcdDigits w ≤
        bcdValue (bcdDigits w) a.toNat + bcdValue (bcdDigits w) b.toNat + c.toNat := by
      rw [← hvalue]
      obtain h0 | h1 : sum.2 = 0 ∨ sum.2 = 1 := by omega
      · rw [h0]; omega
      · rw [h1]; omega
    simp only [hcarry]

/-- DADD on operands that are not BCD: a free value of the operand's width, and free status bits. -/
theorem daddEffect_open {w : Width} (c : Bool) (open1 open2 : Word) {a b : Word}
    (h : (isBcd (bcdDigits w) a.toNat && isBcd (bcdDigits w) b.toNat) = false) :
    ∃ f, daddEffect w c open1 open2 a b = ⟨some (w.trunc open2), some f⟩ := by
  rw [daddEffect, h]
  exact ⟨_, rfl⟩

/-! ### Two free values (log entry 1) -/

/-- The state in which DADD evaluates its operands: two free values have been drawn. -/
def drawn (s : State) : State := { s with freeCount := s.freeCount + 2 }

section Drawn

variable (w : Width) (src : Src) (dst : Dst) (s : State)

theorem srcAfter_drawn : srcAfter w src (drawn s) = drawn (srcAfter w src s) := by
  cases src with
  | autoinc r => cases r <;> rfl
  | _ => rfl

theorem dstAfter_drawn : dstAfter dst (drawn s) = drawn (dstAfter dst s) := by cases dst <;> rfl

theorem dstPlace_drawn : dstPlace dst (drawn s) = dstPlace dst s := by cases dst <;> rfl

theorem operandsReady_drawn (reads writes : Bool) :
    operandsReady reads writes w src dst (drawn s) = operandsReady reads writes w src dst s := by
  have hsrc : srcReady w src (drawn s) = srcReady w src s := by cases src <;> rfl
  have hdst : ∀ u, dstFetchable dst (drawn u) = dstFetchable dst u := fun u => by
    cases dst <;> rfl
  have hread : ∀ (loc : Loc) u, loc.readable w (drawn u) = loc.readable w u := fun loc u => by
    cases loc <;> rfl
  have hwrite : ∀ (loc : Loc) u, loc.writable w (drawn u) = loc.writable w u := fun loc u => by
    cases loc <;> rfl
  simp only [operandsReady, srcAfter_drawn, dstAfter_drawn, dstPlace_drawn, hsrc, hdst, hread,
    hwrite]

theorem srcValue_drawn : srcValue w src (drawn s) = srcValue w src s := by cases src <;> rfl

theorem dstValue_drawn : dstValue w src dst (drawn s) = dstValue w src dst s := by
  have hvalue : ∀ (loc : Loc) u, loc.value w (drawn u) = loc.value w u := fun loc u => by
    cases loc <;> rfl
  simp only [dstValue, srcAfter_drawn, dstAfter_drawn, dstPlace_drawn, hvalue]

end Drawn

/-- DADD completes, on operands that are ready, with what it computes from SR and the operands. -/
theorem exec_dadd {w : Width} {src : Src} {dst : Dst} {s : State} {r : Word} {fl : Option Flags}
    (h : formReady true true w src dst s = true)
    (he : daddEffect w (srC s.regs.sr) s.draw.1 s.draw.2.draw.1 (srcValue w src s)
      (dstValue w src dst s) = ⟨some r, fl⟩) :
    exec (.dadd w src dst) s = .next (delivered w src dst fl (some r) (drawn s)) := by
  obtain ⟨hsrc, -, hdef, hops⟩ := formReady_iff.mp h
  refine toOutcome_next.mpr (twoOperand_plain (s := drawn s) (e := ⟨some r, fl⟩) (hdef rfl) ?_ ?_)
  · rw [srcAfter_sr w src _ hsrc, srcValue_drawn, dstValue_drawn]
    exact he.symm
  · rw [operandsReady_drawn]
    exact hops

/-! ### The instructions -/

/-- Settles O5: the digit loop's sum, delivered after the two free values. -/
theorem daddResult : Obligations.DaddResult := by
  rintro w src dst s a b m h rfl rfl rfl ha hb
  obtain ⟨r, hbcd, hfit, hvalue, heff⟩ :=
    daddEffect_bcd w (srC s.regs.sr) s.draw.1 s.draw.2.draw.1 ha hb
  exact ⟨r, _, hbcd, hfit, hvalue, exec_dadd h heff⟩

/-- Settles O6: the free values, cut to the operand's width. -/
theorem daddOpenResult : Obligations.DaddOpenResult := by
  intro w src dst s h hopen
  obtain ⟨f, heff⟩ := daddEffect_open (srC s.regs.sr) s.draw.1 s.draw.2.draw.1 hopen
  exact ⟨_, f, trunc_lt w s.draw.2.draw.1, exec_dadd h heff⟩

/-- Settles O23: DADC as DADD of 0. -/
theorem dadcResult : Obligations.DadcResult := by
  rintro w dst s d m c h rfl rfl hd rfl
  obtain ⟨hzero, hvalue0⟩ := bcd_zero (bcdDigits w)
  have hsrc : (srcValue w (.const .zero) s).toNat = 0 := congrArg BitVec.toNat (trunc_constZero w)
  obtain ⟨r, v, hbcd, hfit, hvalue, hexec⟩ := daddResult w (.const .zero) dst s _ _ _ h rfl rfl rfl
    (by rw [hsrc]; exact hzero) hd
  rw [hsrc, hvalue0, Nat.zero_add] at hvalue hexec
  refine ⟨r, v, hbcd, hfit, hvalue, ?_⟩
  have hlt := bcdValue_lt hd
  have hcarry : decide (10 ^ bcdDigits w ≤ bcdValue (bcdDigits w) (soleValue w dst s).toNat +
        (srC s.regs.sr).toNat) =
      (decide (bcdValue (bcdDigits w) (soleValue w dst s).toNat = 10 ^ bcdDigits w - 1) &&
        srC s.regs.sr) := by
    cases srC s.regs.sr with
    | false =>
      rw [Bool.and_false, decide_eq_false_iff_not]
      exact Nat.not_le_of_lt hlt
    | true =>
      rw [Bool.and_true, decide_eq_decide, Bool.toNat_true]
      omega
  rw [← hcarry]
  exact hexec

end Sys2Proof.Proofs.Decimal
end

section
/-! PROOF. PUSH, POP, ADC, SBC and the jumps after CMP (41_single_operand.md R145; 43_emulated.md
R181, R196, R200; 42_jumps.md R170). -/

namespace Sys2Proof.Proofs.Results

open Sys2Proof.Machine
open Sys2Proof.Proofs.DoubleOperand Sys2Proof.Proofs.SingleOperand Sys2Proof.Proofs.Emulated

/-! ### The stack (R71, R145, R196) -/

/-- A push at an even SP stores two bytes lower, whatever the width. -/
theorem push_even {w : Width} {v : Word} {s : State} (hsp : s.regs.sp.getLsbD 0 = false)
    (h : s.canWrite w (s.regs.sp - 2#16) = true) :
    push w v s = .ok ((s.setSp (s.regs.sp - 2#16)).storeAt w (s.regs.sp - 2#16) v) := by
  have heven := even_self _ (even_sub_two hsp)
  rw [push_plain (by rwa [heven]), heven]

/-- Settles O12: SP is still even after the operand, an autoincrement of SP included. -/
theorem pushResult : Obligations.PushResult := by
  rintro w opd s s1 - hne hsrc hsp rfl hw
  have hpush := push_even (v := srcValue w opd s) (srcAfter_sp_even _ _ _ hsp) hw
  have hexec : exec (.push w opd) s = execPush w opd s := rfl
  simp only [hexec, execPush, if_neg hne, toOutcome_next, readSrc_plain hsrc, ok_bind, hpush]

/-- Settles O24: POP is MOV from `@SP+`, which steps SP by 2 whatever the width (R92). -/
theorem popResult : Obligations.PopResult := by
  rintro w dst s s1 h rfl
  exact movResult w (.autoinc .sp) dst s h

/-! ### Adding the carry, taking the borrow (R181, R200) -/

theorem zero_lt_width (w : Width) : (0#16 : Word).toNat < 2 ^ w.bits := by cases w <;> decide

theorem signedValue_zero (w : Width) : signedValue w 0#16 = 0 := by cases w <;> rfl

section Carry

variable {w : Width} {d r : Word} (c : Bool) (hd : d.toNat < 2 ^ w.bits)
include hd

/-- Adding the carry alone overflows from the largest positive number. -/
theorem signedOverflow_add_carry :
    signedOverflow w (signedValue w d + c.toNat) =
      (decide (d.toNat = 2 ^ (w.bits - 1) - 1) && c) := by
  have hfull := two_pow_bits w
  have hpos : 0 < 2 ^ (w.bits - 1) := by positivity
  rw [signedValue_eq w d hd, signedOverflow, ← Bool.decide_or]
  cases c with
  | false =>
    rw [Bool.and_false, decide_eq_false_iff_not, Bool.toNat_false]
    zify at hd hfull hpos ⊢
    split_ifs <;> omega
  | true =>
    rw [Bool.and_true, decide_eq_decide, Bool.toNat_true]
    zify [Nat.one_le_two_pow] at hd hfull hpos ⊢
    split_ifs <;> omega

/-- Taking the borrow alone overflows from the smallest negative number. -/
theorem signedOverflow_sub_borrow :
    signedOverflow w (signedValue w d - (!c).toNat) =
      (decide (d.toNat = 2 ^ (w.bits - 1)) && !c) := by
  have hfull := two_pow_bits w
  have hpos : 0 < 2 ^ (w.bits - 1) := by positivity
  rw [signedValue_eq w d hd, signedOverflow, ← Bool.decide_or]
  cases c with
  | true =>
    rw [Bool.not_true, Bool.and_false, decide_eq_false_iff_not, Bool.toNat_false]
    zify at hd hfull hpos ⊢
    split_ifs <;> omega
  | false =>
    rw [Bool.not_false, Bool.and_true, decide_eq_decide, Bool.toNat_true]
    zify at hd hfull hpos ⊢
    split_ifs <;> omega

/-- ADDC of 0. -/
theorem addcEffect_zero (hr : r.toNat = (d.toNat + c.toNat) % 2 ^ w.bits) :
    addcEffect w c 0#16 d =
      ⟨some r, some { v := decide (d.toNat = 2 ^ (w.bits - 1) - 1) && c
                      n := w.msb r, z := decide (r = 0#16)
                      c := decide (d.toNat = 2 ^ w.bits - 1) && c }⟩ := by
  have hr' : r = BitVec.ofNat 16 (((0#16 : Word).toNat + d.toNat + c.toNat) % 2 ^ w.bits) := by
    rw [BitVec.toNat_zero, Nat.zero_add]
    exact eq_ofNat_of_toNat_eq hr
  have hcarry : decide (2 ^ w.bits ≤ d.toNat + c.toNat) =
      (decide (d.toNat = 2 ^ w.bits - 1) && c) := by
    cases c with
    | false => rw [Bool.and_false, decide_eq_false_iff_not]; exact Nat.not_le_of_lt hd
    | true => rw [Bool.and_true, decide_eq_decide, Bool.toNat_true]; omega
  rw [addcEffect_eq w c (zero_lt_width w) hd hr', signedValue_zero, Int.zero_add,
    signedOverflow_add_carry c hd, BitVec.toNat_zero, Nat.zero_add, hcarry]

/-- SUBC of 0. -/
theorem subcEffect_zero (hr : r.toNat = (d.toNat + (2 ^ w.bits - 1) + c.toNat) % 2 ^ w.bits) :
    subcEffect w c 0#16 d =
      ⟨some r, some { v := decide (d.toNat = 2 ^ (w.bits - 1)) && !c
                      n := w.msb r, z := decide (r = 0#16)
                      c := !(decide (d.toNat = 0) && !c) }⟩ := by
  have hsum : ((d.toNat : Int) - (0#16 : Word).toNat - (!c).toNat) + 2 ^ w.bits =
      (d.toNat + (2 ^ w.bits - 1) + c.toNat : Nat) := by
    have hone : (c.toNat : Int) + (!c).toNat = 1 := carry_add_borrow c
    push_cast [Nat.one_le_two_pow]
    linarith
  have hr' : r = BitVec.ofInt 16
      (((d.toNat : Int) - (0#16 : Word).toNat - (!c).toNat) % 2 ^ w.bits) := by
    rw [← Int.add_emod_right, hsum, eq_ofNat_of_toNat_eq hr]
    exact (BitVec.ofInt_natCast 16 _).symm
  have hborrow : decide ((!c).toNat ≤ d.toNat) = !(decide (d.toNat = 0) && !c) := by
    cases c with
    | true => rw [Bool.not_true, Bool.and_false, Bool.toNat_false]; simp
    | false =>
      rw [Bool.not_false, Bool.and_true, Bool.toNat_true, ← decide_not, decide_eq_decide]
      omega
  rw [subcEffect_eq w c (zero_lt_width w) hd hr', signedValue_zero, Int.sub_zero,
    signedOverflow_sub_borrow c hd, BitVec.toNat_zero, Nat.zero_add, hborrow]

end Carry

/-- Settles O18: ADDC and SUBC of 0. -/
theorem adcSbcResult : Obligations.AdcSbcResult := by
  rintro w dst s d c h rfl rfl
  have hd := soleValue_lt w dst s
  obtain ⟨r1, hr1⟩ := exists_toNat_eq_mod w ((soleValue w dst s).toNat + (srC s.regs.sr).toNat)
  obtain ⟨r2, hr2⟩ := exists_toNat_eq_mod w
    ((soleValue w dst s).toNat + (2 ^ w.bits - 1) + (srC s.regs.sr).toNat)
  refine ⟨⟨r1, hr1, exec_of_constSource rfl h ?adc⟩, ⟨r2, hr2, exec_of_constSource rfl h ?sbc⟩⟩
  case adc =>
    rw [trunc_constZero]
    exact addcEffect_zero _ hd hr1
  case sbc =>
    rw [trunc_constZero]
    exact subcEffect_zero _ hd hr2

/-! ### Jumps after CMP (R170) -/

/-- The status bits are read back from SR as written. -/
theorem flagsOf_withFlags (sr : Word) (f : Flags) : flagsOf (withFlags sr f) = f := by
  rcases f with ⟨v, n, z, c⟩
  cases v <;> cases n <;> cases z <;> cases c <;>
    simp [flagsOf, withFlags, srV, srN, srZ, srC, bitAt]

/-- The n-bit difference as a number: a borrow adds 2^n. -/
theorem trunc_sub_toNat (w : Width) {a b : Word} (ha : a.toNat < 2 ^ w.bits)
    (hb : b.toNat < 2 ^ w.bits) :
    (w.trunc (b - a)).toNat + a.toNat =
      b.toNat + if a.toNat ≤ b.toNat then 0 else 2 ^ w.bits := by
  rw [trunc_toNat, BitVec.toNat_sub]
  cases w with
  | word => simp only [Width.bits, Nat.reducePow] at ha hb ⊢; split <;> omega
  | byte => simp only [Width.bits, Nat.reducePow] at ha hb ⊢; split <;> omega

/-- The n-bit difference is the truncated word difference. -/
theorem ofInt_sub_eq_trunc (w : Width) {a b : Word} (ha : a.toNat < 2 ^ w.bits)
    (hb : b.toNat < 2 ^ w.bits) :
    BitVec.ofInt 16 (((b.toNat : Int) - a.toNat) % 2 ^ w.bits) = w.trunc (b - a) := by
  have hsub := trunc_sub_toNat w ha hb
  apply BitVec.eq_of_toNat_eq
  rw [BitVec.toNat_ofInt]
  cases w with
  | word =>
    simp only [Width.bits, Nat.reducePow, Int.reducePow] at ha hb hsub ⊢
    split at hsub <;> omega
  | byte =>
    simp only [Width.bits, Nat.reducePow, Int.reducePow] at ha hb hsub ⊢
    split at hsub <;> omega

/-- N and V of a difference differ exactly where the signed order is strict. -/
theorem msb_xor_overflow (w : Width) {a b : Word} (ha : a.toNat < 2 ^ w.bits)
    (hb : b.toNat < 2 ^ w.bits) :
    xor (w.msb (w.trunc (b - a))) (signedOverflow w (signedValue w b - signedValue w a)) =
      decide (signedValue w b < signedValue w a) := by
  have hfull := two_pow_bits w
  have hsub := trunc_sub_toNat w ha hb
  rw [msb_eq w _ (trunc_lt w _), signedOverflow, signedValue_eq w a ha, signedValue_eq w b hb,
    ← Bool.decide_or, Bool.eq_iff_iff, Bool.xor_iff_ne, ne_eq, decide_eq_decide, decide_eq_true_eq]
  generalize (w.trunc (b - a)).toNat = d at hsub ⊢
  zify at hfull ha hb hsub ⊢
  split_ifs at hsub ⊢ <;> omega

/-- Reading the operands leaves PC even. -/
theorem srcAfter_pc_even (w : Width) (src : Src) {s : State} (h : s.regs.pc.getLsbD 0 = false) :
    (srcAfter w src s).regs.pc.getLsbD 0 = false := by
  cases src with
  | reg r => exact h
  | indirect r => exact h
  | const c => exact h
  | autoinc r =>
    cases r with
    | pc => exact even_and _
    | _ => exact h
  | _ => exact even_and _

theorem dstAfter_pc_even (dst : Dst) {s : State} (h : s.regs.pc.getLsbD 0 = false) :
    (dstAfter dst s).regs.pc.getLsbD 0 = false := by
  cases dst with
  | reg r => exact h
  | unlisted => exact h
  | _ => exact even_and _

/-- What CMP leaves: PC even, and the status bits of the difference. -/
theorem cmp_leaves {w : Width} {src : Src} {dst : Dst} {s t : State} {a b : Word}
    (h : formReady true false w src dst s = true) (hpc : s.regs.pc.getLsbD 0 = false)
    (ha : a = srcValue w src s) (hb : b = dstValue w src dst s)
    (hexec : exec (.cmp w src dst) s = .next t) :
    t.regs.pc.getLsbD 0 = false ∧ srC t.regs.sr = decide (a.toNat ≤ b.toNat) ∧
      srZ t.regs.sr = decide (b = a) ∧ srN t.regs.sr = w.msb (w.trunc (b - a)) ∧
      xor (srN t.regs.sr) (srV t.regs.sr) = decide (signedValue w b < signedValue w a) := by
  have halt : a.toNat < 2 ^ w.bits := ha ▸ srcValue_lt w src s
  have hblt : b.toNat < 2 ^ w.bits := hb ▸ dstValue_lt w src dst s
  have hcmp := cmpResult w src dst s a b _ h ha hb rfl
  rw [ofInt_sub_eq_trunc w halt hblt] at hcmp
  cases hcmp.symm.trans hexec
  obtain ⟨hv, hn, hz, hc⟩ := Flags.mk.inj (flagsOf_withFlags
    (dstAfter dst (srcAfter w src s)).regs.sr
    ⟨signedOverflow w (signedValue w b - signedValue w a), w.msb (w.trunc (b - a)),
      decide (a = b), decide (a.toNat ≤ b.toNat)⟩)
  refine ⟨dstAfter_pc_even dst (srcAfter_pc_even w src hpc), hc, ?_, hn, ?_⟩
  · exact hz.trans (decide_eq_decide.mpr eq_comm)
  · exact (congrArg₂ xor hn hv).trans (msb_xor_overflow w halt hblt)

/-- Settles O16: the jumps' conditions on the status bits CMP leaves. -/
theorem jumpAfterCmp : Obligations.JumpAfterCmp := by
  intro w src dst s t a b off h hpc ha hb hexec
  obtain ⟨heven, hc, hz, hn, hnv⟩ := cmp_leaves h hpc ha hb hexec
  obtain ⟨hjne, hjeq, hjnc, hjc, hjn, hjge, hjl, -⟩ := Jumps.jumpResult off t heven
  simp only [hnv, ← decide_not, Int.not_lt] at hjge hjl
  simp only [hz, hc, hn, ← decide_not, Nat.not_le] at hjne hjeq hjnc hjc hjn
  exact ⟨hjeq, hjne, hjc, hjnc, hjge, hjl, hjn⟩

end Sys2Proof.Proofs.Results
end

section
/-! PROOF. Plain memory read after a write, and the accesses memory refuses (20_memory.md R51 to
R56, R60, R66; 60_exceptions.md R222). -/

namespace Sys2Proof.Proofs.MemoryAccess

open Sys2Proof.Machine

/-! ### Bytes of a word (R51) -/

theorem wordOfBytes_toNat (lo hi : Byte) :
    (wordOfBytes lo hi).toNat = hi.toNat * 256 + lo.toNat := by
  have := lo.isLt
  have := hi.isLt
  rw [wordOfBytes, BitVec.toNat_ofNat]
  omega

theorem lowByte_toNat (v : Word) : (lowByte v).toNat = v.toNat % 256 := by
  rw [lowByte, BitVec.toNat_ofNat]
  omega

theorem highByte_toNat (v : Word) : (highByte v).toNat = v.toNat / 256 := by
  have := v.isLt
  rw [highByte, BitVec.toNat_ofNat]
  omega

theorem wordOfBytes_low_high (v : Word) : wordOfBytes (lowByte v) (highByte v) = v := by
  apply BitVec.eq_of_toNat_eq
  rw [wordOfBytes_toNat, lowByte_toNat, highByte_toNat]
  omega

theorem lowByte_setWidth (v : Word) : (lowByte v).setWidth 16 = Width.byte.trunc v := by
  apply BitVec.eq_of_toNat_eq
  rw [BitVec.toNat_setWidth, lowByte_toNat, trunc_toNat]
  simp only [Width.bits]
  omega

/-- The byte after an address is another byte. -/
theorem add_one_ne (a : Word) : a + 1#16 ≠ a := by bv_omega

/-! ### A store and the bytes it leaves (R54, R55) -/

/-- Reading a byte after a byte has been written at another address. -/
theorem read_write_ne (m : Memory) {a x : Word} (b : Byte) (h : x ≠ a) :
    (m.write a.toNat b).read x.toNat = m.read x.toNat :=
  Memory.read_write_other m a.toNat x.toNat b (fun he => h (BitVec.eq_of_toNat_eq he))

section Store

variable {w : Width} {a x v : Word} {s : State}

/-- A store changes no byte outside the access. -/
theorem storeAt_byteAt_other (h : x ∉ accessBytes w a) :
    (s.storeAt w a v).byteAt x = s.byteAt x := by
  cases w with
  | byte => exact read_write_ne _ _ (by simpa [accessBytes] using h)
  | word =>
    obtain ⟨hlo, hhi⟩ : x ≠ accessAt .word a ∧ x ≠ accessAt .word a + 1#16 := by
      simpa [accessBytes] using h
    exact (read_write_ne _ _ hhi).trans (read_write_ne _ _ hlo)

theorem storeAt_wf (h : s.mem.wf = true) : (s.storeAt w a v).mem.wf = true := by
  cases w with
  | byte => exact Memory.wf_write _ _ _ h
  | word => exact Memory.wf_write _ _ _ (Memory.wf_write _ _ _ h)

/-- The two bytes of a stored word, the low one at the even address. -/
theorem storeAt_word_bytes (h : s.mem.wf = true) :
    (s.storeAt .word a v).byteAt (accessAt .word a) = lowByte v ∧
      (s.storeAt .word a v).byteAt (accessAt .word a + 1#16) = highByte v := by
  have hlo := Memory.wf_write _ (accessAt .word a) (lowByte v) h
  exact ⟨(read_write_ne _ _ (add_one_ne _).symm).trans (Memory.read_write _ _ _ h),
    Memory.read_write _ _ _ hlo⟩

/-- A read of what has just been stored. -/
theorem valueAt_storeAt (h : s.mem.wf = true) : (s.storeAt w a v).valueAt w a = w.trunc v := by
  cases w with
  | byte =>
    have hb : (s.storeAt .byte a v).byteAt a = lowByte v := Memory.read_write _ _ _ h
    rw [State.valueAt, hb, lowByte_setWidth]
  | word =>
    obtain ⟨hlo, hhi⟩ := storeAt_word_bytes (a := a) (v := v) h
    rw [State.valueAt, hlo, hhi, wordOfBytes_low_high]
    rfl

/-- A word is read from its two bytes alone. -/
theorem valueAt_word_congr {s t : State} (h : ∀ x ∈ accessBytes .word a, t.byteAt x = s.byteAt x) :
    t.valueAt .word a = s.valueAt .word a := by
  rw [State.valueAt, State.valueAt, h _ (by simp [accessBytes]), h _ (by simp [accessBytes])]

@[simp] theorem storeAt_regs : (s.storeAt w a v).regs = s.regs := by cases w <;> rfl
@[simp] theorem storeAt_params : (s.storeAt w a v).params = s.params := by cases w <;> rfl
@[simp] theorem storeAt_dev : (s.storeAt w a v).dev = s.dev := by cases w <;> rfl

/-- Whether a read is plain depends on the parameters alone. -/
theorem canRead_congr {s t : State} (h : t.params = s.params) (w : Width) (a : Word) :
    t.canRead w a = s.canRead w a := by
  have hp : t.isPlain = s.isPlain := by
    funext x; unfold State.isPlain; rw [State.kindAt_congr h]
  unfold State.canRead State.aligned
  rw [hp, h]

/-- RAM can be read. -/
theorem canRead_of_canWrite (h : s.canWrite w a = true) : s.canRead w a = true := by
  have hplain : ∀ x, s.isRam x = true → s.isPlain x = true := fun x hx => by
    rw [State.isPlain, of_decide_eq_true hx]
  simp only [State.canWrite, State.canRead, Bool.and_eq_true, List.all_eq_true] at h ⊢
  exact ⟨h.1, fun x hx => hplain x (h.2 x hx)⟩

end Store

/-- Settles O52: the write stores in RAM, and the bytes stored are read back. -/
theorem readAfterWrite : Obligations.ReadAfterWrite := by
  intro w a v s hwf hw
  refine ⟨_, memWrite_plain hw, ?_, fun x hx => storeAt_byteAt_other hx, ?_⟩
  · have hr := canRead_of_canWrite hw
    rw [← canRead_congr (t := s.storeAt w a v) storeAt_params] at hr
    rw [memRead_plain hr, valueAt_storeAt hwf]
  · rintro rfl
    obtain ⟨hlo, hhi⟩ := storeAt_word_bytes (a := a) (v := v) hwf
    exact ⟨(congrArg BitVec.toNat hlo).trans (lowByte_toNat v),
      (congrArg BitVec.toNat hhi).trans (highByte_toNat v)⟩

/-! ### Accesses memory refuses (R52 to R56) -/

section Refused

variable {a v : Word} {s : State} {f : Fault}

theorem memRead_word_aligned (h : s.aligned .word a = true) :
    memRead .word a s = readWord (accessAt .word a) s := by
  rw [memRead, wordAddress_aligned h, ok_bind]

theorem memWrite_word_aligned (h : s.aligned .word a = true) :
    memWrite .word a v s = writeWord (accessAt .word a) v s := by
  rw [memWrite, wordAddress_aligned h, ok_bind]

theorem wordAddress_misaligned (hodd : a.getLsbD 0 = true) (hp : s.params.misaligned = .fault) :
    wordAddress s a = .error (.misalignedAccess a s) := by
  simp only [wordAddress, hodd, hp, if_true]

theorem admitRead_unmapped (h : s.kindAt a = .unmapped) :
    admitRead a s = .error (.unmappedAccess a s) := by simp only [admitRead, h]

theorem admitRead_mapped (h : s.kindAt a ≠ .unmapped) : admitRead a s = .ok () := by
  rcases admitRead_cases a s with ⟨hok, -⟩ | ⟨hun, -⟩
  · exact hok
  · exact absurd hun h

theorem admitWrite_unmapped (h : s.kindAt a = .unmapped) :
    admitWrite a s = .error (.unmappedAccess a s) := by simp only [admitWrite, h]

theorem admitWrite_rom (h : s.kindAt a = .rom) :
    admitWrite a s = .error (.writeToReadOnly a s) := by simp only [admitWrite, h]

theorem admitWrite_admitted (h : s.kindAt a = .ram ∨ ∃ d, s.kindAt a = .device d) :
    admitWrite a s = .ok () := by
  rcases h with h | ⟨d, h⟩ <;> simp only [admitWrite, h]

/-- A word read stops where the map refuses its lower byte, or its upper byte. -/
theorem readWord_refused
    (h : admitRead a s = .error f ∨ admitRead a s = .ok () ∧ admitRead (a + 1#16) s = .error f) :
    readWord a s = .error f := by
  unfold readWord
  split
  · rename_i d d' hd hd'
    simp only [admitRead, hd, hd', reduceCtorEq, and_false, or_false] at h
  · rcases h with h | ⟨h, h'⟩
    · rw [h]; rfl
    · rw [h, h']; rfl

/-- A word write stops where the map refuses its lower byte, or its upper byte. -/
theorem writeWord_refused
    (h : admitWrite a s = .error f ∨ admitWrite a s = .ok () ∧ admitWrite (a + 1#16) s = .error f) :
    writeWord a v s = .error f := by
  unfold writeWord
  split
  · rename_i d d' hd hd'
    simp only [admitWrite, hd, hd', reduceCtorEq, and_false, or_false] at h
  · rcases h with h | ⟨h, h'⟩
    · rw [h]; rfl
    · rw [h, h']; rfl

/-- A byte read answers at every mapped address. -/
theorem readByte_mapped (h : s.kindAt a ≠ .unmapped) : ∃ b t, readByte a s = .ok (b, t) := by
  unfold readByte
  split
  · exact ⟨_, _, rfl⟩
  · exact ⟨_, _, rfl⟩
  · exact ⟨_, _, rfl⟩
  · rename_i hun
    exact absurd hun h

/-- A byte write succeeds wherever the map admits it. -/
theorem writeByte_admitted (b : Byte) (h : s.kindAt a = .ram ∨ ∃ d, s.kindAt a = .device d) :
    ∃ t, writeByte a b s = .ok t := by
  rcases h with h | ⟨d, h⟩ <;> simp only [writeByte, h] <;> exact ⟨_, rfl⟩

/-- A word read that faults holds the state it was asked in: both bytes are admitted before one is
read. -/
theorem readWord_error (h : readWord a s = .error f) : f.state = s := by
  rcases admitRead_cases a s with ⟨hlo, hlo'⟩ | ⟨-, hlo⟩
  · rcases admitRead_cases (a + 1#16) s with ⟨hhi, hhi'⟩ | ⟨-, hhi⟩
    · unfold readWord at h
      split at h
      · cases h
      · obtain ⟨b, t, hb⟩ := readByte_mapped hlo'
        have hkind := State.kindAt_congr (readByte_quiet hb).only.params (a + 1#16)
        obtain ⟨b', t', hb'⟩ := readByte_mapped (hkind ▸ hhi')
        simp only [hlo, hhi, hb, hb', ok_bind, pure_eq_ok, reduceCtorEq] at h
    · cases (readWord_refused (.inr ⟨hlo, hhi⟩)).symm.trans h
      rfl
  · cases (readWord_refused (.inl hlo)).symm.trans h
    rfl

/-- A word write that faults holds the state it was asked in. -/
theorem writeWord_error (h : writeWord a v s = .error f) : f.state = s := by
  rcases admitWrite_cases a s with ⟨hlo, hlo'⟩ | ⟨g, hlo, hg⟩
  · rcases admitWrite_cases (a + 1#16) s with ⟨hhi, hhi'⟩ | ⟨g, hhi, hg⟩
    · unfold writeWord at h
      split at h
      · cases h
      · obtain ⟨t, ht⟩ := writeByte_admitted (lowByte v) hlo'
        have hkind := State.kindAt_congr (writeByte_stores ht).owned.params (a + 1#16)
        obtain ⟨t', ht'⟩ := writeByte_admitted (highByte v) (hkind ▸ hhi')
        simp only [hlo, hhi, ht, ht', ok_bind, reduceCtorEq] at h
    · cases (writeWord_refused (.inr ⟨hlo, hhi⟩)).symm.trans h
      exact hg
  · cases (writeWord_refused (.inl hlo)).symm.trans h
    exact hg

theorem wordAddress_error (h : wordAddress s a = .error f) : f.state = s := by
  unfold wordAddress at h
  split at h
  · split at h
    · cases h; rfl
    · cases h
  · cases h

theorem memRead_error {w : Width} (h : memRead w a s = .error f) : f.state = s := by
  cases w with
  | byte =>
    rcases admitRead_cases a s with ⟨-, hmap⟩ | ⟨hun, -⟩
    · obtain ⟨b, t, hb⟩ := readByte_mapped hmap
      simp only [memRead, hb, ok_bind, pure_eq_ok, reduceCtorEq] at h
    · simp only [memRead, readByte, hun] at h
      cases h
      rfl
  | word =>
    rw [memRead] at h
    cases ha : wordAddress s a with
    | ok b => rw [ha] at h; exact readWord_error h
    | error e => rw [ha] at h; cases h; exact wordAddress_error ha

theorem memWrite_error {w : Width} (h : memWrite w a v s = .error f) : f.state = s := by
  cases w with
  | byte =>
    rw [memWrite, writeByte] at h
    split at h <;> cases h <;> rfl
  | word =>
    rw [memWrite] at h
    cases ha : wordAddress s a with
    | ok b => rw [ha] at h; exact writeWord_error h
    | error e => rw [ha] at h; cases h; exact wordAddress_error ha

end Refused

/-- Settles O53: the alignment rule, then the map's answer for the lower byte, then the upper. -/
theorem accessFaults : Obligations.AccessFaults := by
  intro w a v s
  refine ⟨?misaligned, fun hal hun => ⟨?readUnmapped, ?writeUnmapped⟩, fun hal hrom => ?writeRom,
    ?upperUnmapped, ?upperRom, ?state⟩
  case misaligned =>
    rintro rfl hodd hp
    constructor
    · rw [memRead, wordAddress_misaligned hodd hp]; rfl
    · rw [memWrite, wordAddress_misaligned hodd hp]; rfl
  case readUnmapped =>
    cases w with
    | byte =>
      have hun : s.kindAt a = .unmapped := hun
      simp only [memRead, readByte, hun]
      rfl
    | word => rw [memRead_word_aligned hal, readWord_refused (.inl (admitRead_unmapped hun))]
  case writeUnmapped =>
    cases w with
    | byte =>
      have hun : s.kindAt a = .unmapped := hun
      simp only [memWrite, writeByte, hun]
      rfl
    | word => rw [memWrite_word_aligned hal, writeWord_refused (.inl (admitWrite_unmapped hun))]
  case writeRom =>
    cases w with
    | byte =>
      have hrom : s.kindAt a = .rom := hrom
      simp only [memWrite, writeByte, hrom]
      rfl
    | word => rw [memWrite_word_aligned hal, writeWord_refused (.inl (admitWrite_rom hrom))]
  case upperUnmapped =>
    rintro rfl hal hun
    refine ⟨fun hlo => ?_, fun hlo => ?_⟩
    · rw [memRead_word_aligned hal,
        readWord_refused (.inr ⟨admitRead_mapped hlo, admitRead_unmapped hun⟩)]
    · rw [memWrite_word_aligned hal,
        writeWord_refused (.inr ⟨admitWrite_admitted hlo, admitWrite_unmapped hun⟩)]
  case upperRom =>
    rintro rfl hal hrom hlo
    rw [memWrite_word_aligned hal,
      writeWord_refused (.inr ⟨admitWrite_admitted hlo, admitWrite_rom hrom⟩)]
  case state =>
    rintro f (h | h)
    · exact memRead_error h
    · exact memWrite_error h

end Sys2Proof.Proofs.MemoryAccess
end

section
/-! PROOF. Interrupts (60_exceptions.md R223 to R234): which source is served, what an entry leaves,
and that RETI undoes it. -/

namespace Sys2Proof.Proofs.Interrupts

open Sys2Proof.Machine
open Sys2Proof.Proofs.SingleOperand (even_sub_two push_of_even retiResult)
open Sys2Proof.Proofs.Emulated (srStored_of_clean)
open Sys2Proof.Proofs.MemoryAccess
open Sys2Proof.Proofs.Step (step_of_atBoundary srStored_zero)
open Sys2Proof.Proofs.Frames (byteAt_congr)

/-! ### What is pending (R223, R225, R246) -/

/-- A byte that is not 0 has a bit that is set. -/
theorem ne_zero_iff_exists_bit (b : Byte) : b ≠ 0#8 ↔ ∃ k < 8, b.getLsbD k = true := by
  constructor
  · intro h
    by_contra hnone
    refine h (BitVec.eq_of_getLsbD_eq fun k hk => ?_)
    rw [BitVec.getLsbD_zero, ← Bool.not_eq_true]
    exact fun hbit => hnone ⟨k, hk, hbit⟩
  · rintro ⟨k, -, hk⟩ rfl
    rw [BitVec.getLsbD_zero] at hk
    cases hk

theorem port_pending_iff (p : Port) : p.pending = true ↔ ∃ k < 8,
    p.ifg.getLsbD k = true ∧ p.ie.getLsbD k = true ∧ p.sel.getLsbD k = false := by
  rw [Port.pending, decide_eq_true_eq, ne_zero_iff_exists_bit]
  refine exists_congr fun k => and_congr_right fun hk => ?_
  simp [hk, and_assoc]

section Pending

variable {q : IrqSource} (d : Devices)

theorem pending_port_iff {p : PortId} (h : q.request = .port p) : q.pending d = true ↔
    ∃ k < 8, (d.port p).ifg.getLsbD k = true ∧ (d.port p).ie.getLsbD k = true ∧
      (d.port p).sel.getLsbD k = false := by
  simp only [IrqSource.pending, h]
  exact port_pending_iff _

theorem pending_timerOverflow_iff (h : q.request = .timerOverflow) : q.pending d = true ↔
    d.timer.ctl.getLsbD 0 = true ∧ d.timer.ctl.getLsbD 1 = true := by
  simp only [IrqSource.pending, h, Timer.taifg, Timer.taie, Bool.and_eq_true]

theorem pending_capture_iff {x : Nat} {single : Bool} (h : q.request = .capture x single) :
    q.pending d = true ↔ ∃ b, elementAt x d.timer.blocks = some b ∧ b.ctl.getLsbD 0 = true ∧
      b.ctl.getLsbD 4 = true := by
  simp only [IrqSource.pending, h]
  cases elementAt x d.timer.blocks with
  | none => simp
  | some b => simp [TimerBlock.ccifg, TimerBlock.ccie]

theorem pending_line_iff {k : Nat} {single : Bool} (h : q.request = .line k single) :
    q.pending d = true ↔ (d.line k).flag = true ∧ (d.line k).enable = true := by
  simp only [IrqSource.pending, h, Bool.and_eq_true]

end Pending

/-! ### Which source is served (R224, R229, R253) -/

/-- A source goes before another only with at least its rank. -/
theorem rank_of_before {q r : IrqSource} :
    (r.before q = true → q.rank ≤ r.rank) ∧ (r.before q = false → r.rank ≤ q.rank) := by
  simp only [IrqSource.before, Bool.or_eq_true, Bool.and_eq_true, Bool.or_eq_false_iff,
    Bool.and_eq_false_iff, decide_eq_true_eq, decide_eq_false_iff_not]
  omega

theorem highest_none {wanted : IrqSource → Bool} {l : List IrqSource}
    (h : highest wanted l = none) : ∀ r ∈ l, wanted r = false := by
  induction l with
  | nil => exact fun r hr => nomatch hr
  | cons q l ih =>
    unfold highest at h
    split at h
    · cases h
    · cases h
    · rename_i hq
      exact List.forall_mem_cons.mpr ⟨hq, ih h⟩

/-- The source served first is wanted, and none that is wanted has a higher rank. -/
theorem highest_some {wanted : IrqSource → Bool} {l : List IrqSource} {q : IrqSource}
    (h : highest wanted l = some q) :
    q ∈ l ∧ wanted q = true ∧ ∀ r ∈ l, wanted r = true → r.rank ≤ q.rank := by
  induction l generalizing q with
  | nil => cases h
  | cons p l ih =>
    unfold highest at h
    split at h
    · rename_i r hp hr
      obtain ⟨hmem, hwant, hmax⟩ := ih hr
      obtain ⟨hyes, hno⟩ := rank_of_before (q := p) (r := r)
      cases hb : r.before p with
      | true =>
        rw [hb] at h
        cases h
        exact ⟨List.mem_cons_of_mem _ hmem, hwant,
          List.forall_mem_cons.mpr ⟨fun _ => hyes hb, hmax⟩⟩
      | false =>
        rw [hb] at h
        cases h
        exact ⟨List.mem_cons_self, hp, List.forall_mem_cons.mpr
          ⟨fun _ => Nat.le_refl _, fun x hx hw => (hmax x hx hw).trans (hno hb)⟩⟩
    · rename_i hp hnone
      cases h
      refine ⟨List.mem_cons_self, hp, List.forall_mem_cons.mpr ⟨fun _ => Nat.le_refl _, ?_⟩⟩
      intro x hx hw
      rw [highest_none hnone x hx] at hw
      cases hw
    · rename_i hp
      obtain ⟨hmem, hwant, hmax⟩ := ih h
      refine ⟨List.mem_cons_of_mem _ hmem, hwant, List.forall_mem_cons.mpr ⟨fun hw => ?_, hmax⟩⟩
      rw [hp] at hw
      cases hw

section Requesting

variable {s : State} {admitted : Bool} {q : IrqSource}

/-- What is served: the highest nonmaskable source, or where none is pending and the gate admits it
the highest maskable one. -/
theorem requesting_some (h : s.requesting admitted = some q) :
    highest (fun q => !q.maskable && q.pending s.dev) s.params.irqTable = some q ∨
    admitted = true ∧
      highest (fun q => !q.maskable && q.pending s.dev) s.params.irqTable = none ∧
      highest (fun q => q.maskable && q.pending s.dev) s.params.irqTable = some q := by
  unfold State.requesting at h
  split at h
  · rename_i r hr
    cases h
    exact .inl hr
  · rename_i hnone
    cases admitted with
    | true => exact .inr ⟨rfl, hnone, h⟩
    | false => cases h

theorem requesting_none (h : s.requesting admitted = none) :
    highest (fun q => !q.maskable && q.pending s.dev) s.params.irqTable = none ∧
    (admitted = true →
      highest (fun q => q.maskable && q.pending s.dev) s.params.irqTable = none) := by
  unfold State.requesting at h
  split at h
  · cases h
  · rename_i hnone
    refine ⟨hnone, ?_⟩
    rintro rfl
    exact h

/-- Where no nonmaskable source is served, every pending one is maskable. -/
theorem maskable_of_none
    (h : highest (fun q => !q.maskable && q.pending s.dev) s.params.irqTable = none) :
    ∀ r ∈ s.params.irqTable, r.pending s.dev = true → r.maskable = true := fun r hr hp => by
  simpa [hp] using highest_none h r hr

end Requesting

/-- Settles O40: what pending means for each request, then the first of the sources wanted. -/
theorem priorityRule : Obligations.PriorityRule := by
  refine ⟨fun q d => ⟨fun p => pending_port_iff d, pending_timerOverflow_iff d,
    fun x single => pending_capture_iff d, fun k single => pending_line_iff d⟩,
    fun s admitted => ⟨fun q h => ?served, fun h => ?none⟩⟩
  case served =>
    rcases requesting_some h with hq | ⟨hadm, hnone, hq⟩
    · obtain ⟨hmem, hwant, hmax⟩ := highest_some hq
      simp only [Bool.and_eq_true, Bool.not_eq_true'] at hwant hmax
      obtain ⟨hmask, hpend⟩ := hwant
      refine ⟨hmem, hpend, fun hm => ?_, fun r hr hp hsame => ?_⟩
      · rw [hm] at hmask
        cases hmask
      · exact hmax r hr ⟨hsame.trans hmask, hp⟩
    · obtain ⟨hmem, hwant, hmax⟩ := highest_some hq
      simp only [Bool.and_eq_true] at hwant hmax
      obtain ⟨hmask, hpend⟩ := hwant
      exact ⟨hmem, hpend, fun _ => ⟨hadm, maskable_of_none hnone⟩, fun r hr hp hsame =>
        hmax r hr ⟨hsame.trans hmask, hp⟩⟩
  case none =>
    obtain ⟨hnone, hadm⟩ := requesting_none h
    intro r hr hp
    have hmask := maskable_of_none hnone r hr hp
    refine ⟨hmask, ?_⟩
    cases admitted with
    | false => rfl
    | true =>
      have hfalse := highest_none (hadm rfl) r hr
      simp only [hmask, hp, Bool.and_self] at hfalse
      cases hfalse

/-! ### The entry (R230) -/

/-- The two words an entry saves, PC above SR. -/
def stacked (s : State) : State :=
  ((s.setSp (s.regs.sp - 4#16)).storeAt .word (s.regs.sp - 2#16) s.regs.pc).storeAt .word
    (s.regs.sp - 4#16) s.regs.sr

theorem sub_two_sub_two (a : Word) : a - 2#16 - 2#16 = a - 4#16 := by bv_omega

theorem setSp_storeAt (s : State) (w : Width) (a v p : Word) :
    (s.storeAt w a v).setSp p = (s.setSp p).storeAt w a v := by cases w <;> rfl

section Entry

variable {s : State} (hsp : s.regs.sp.getLsbD 0 = false)
  (h2 : s.canWrite .word (s.regs.sp - 2#16) = true)
  (h4 : s.canWrite .word (s.regs.sp - 4#16) = true)
include hsp

theorem even_sub_four : (s.regs.sp - 4#16).getLsbD 0 = false := by
  rw [← sub_two_sub_two]
  exact even_sub_two (even_sub_two hsp)

include h2 h4 in
/-- The two pushes of an entry on plain memory. -/
theorem pushes_plain :
    ∃ u, push .word s.regs.pc s = .ok u ∧ push .word u.regs.sr u = .ok (stacked s) := by
  refine ⟨_, push_of_even hsp h2, ?_⟩
  have hmid : (((s.setSp (s.regs.sp - 2#16)).storeAt .word (s.regs.sp - 2#16) s.regs.pc).regs.sp) =
      s.regs.sp - 2#16 := by
    rw [storeAt_regs]
    exact even_self _ (even_sub_two hsp)
  rw [push_of_even (by rw [hmid]; exact even_sub_two hsp)
    (by rw [hmid, sub_two_sub_two, ← h4]; exact canWrite_congr (by simp) _ _),
    hmid, sub_two_sub_two, setSp_storeAt, storeAt_regs]
  rfl

theorem stacked_regs : (stacked s).regs = { s.regs with sp := s.regs.sp - 4#16 } := by
  rw [stacked, storeAt_regs, storeAt_regs, State.setSp_regs, even_self _ (even_sub_four hsp)]

/-- The bytes of the two stack words are four different ones. -/
theorem notMem_lower_word {x : Word} (hx : x ∈ accessBytes .word (s.regs.sp - 2#16)) :
    x ∉ accessBytes .word (s.regs.sp - 4#16) := by
  have hlo := even_self _ (even_sub_two hsp)
  have hhi := even_self _ (even_sub_four hsp)
  simp only [accessBytes, accessAt, hlo, hhi, List.mem_cons, List.not_mem_nil, or_false] at hx ⊢
  rcases hx with rfl | rfl <;> bv_omega

variable (hwf : s.mem.wf = true)
include hwf

/-- What the two stack words hold. -/
theorem stacked_values :
    (stacked s).valueAt .word (s.regs.sp - 4#16) = s.regs.sr ∧
      (stacked s).valueAt .word (s.regs.sp - 2#16) = s.regs.pc := by
  have hwf' : (s.setSp (s.regs.sp - 4#16)).mem.wf = true := hwf
  refine ⟨valueAt_storeAt (storeAt_wf hwf'), ?_⟩
  rw [stacked, valueAt_word_congr fun x hx => storeAt_byteAt_other (notMem_lower_word hsp hx)]
  exact valueAt_storeAt hwf'

end Entry

/-- Outside the two stack words the pushes change SP alone. -/
theorem stacked_byteAt {s : State} {x : Word} (h2 : x ∉ accessBytes .word (s.regs.sp - 2#16))
    (h4 : x ∉ accessBytes .word (s.regs.sp - 4#16)) : (stacked s).byteAt x = s.byteAt x :=
  (storeAt_byteAt_other h4).trans (storeAt_byteAt_other h2)

/-- The state in which an entry reads its vector: the source acknowledged, SR cleared. -/
def entered (q : IrqSource) (u : State) : State := (u.setDev (q.acknowledge u.dev)).setSr 0#16

/-- An entry whose pushes are plain is the two pushes, then the vector. -/
theorem interruptEntry_plain {q : IrqSource} {m : Bool} {s : State}
    (hsp : s.regs.sp.getLsbD 0 = false) (h2 : s.canWrite .word (s.regs.sp - 2#16) = true)
    (h4 : s.canWrite .word (s.regs.sp - 4#16) = true) :
    interruptEntry q m s = (do
      let (vector, u) ← memRead .word ((s.requesting m).getD q).vector
        (entered ((s.requesting m).getD q) (stacked s))
      return (u.setPc vector).setHistory false false) := by
  obtain ⟨u, hu, hu'⟩ := pushes_plain hsp h2 h4
  have hreq : (stacked s).requesting m = s.requesting m := by
    simp only [State.requesting, stacked, storeAt_dev, storeAt_params, State.setSp_dev,
      State.setSp_params]
  simp only [interruptEntry, hu, hu', ok_bind, hreq]
  rfl

theorem vectorAddress_toNat (i : VectorSlot) : (vectorAddress i).toNat = 0xFFE0 + 2 * i.val := by
  have := i.isLt
  rw [vectorAddress, BitVec.toNat_ofNat]
  omega

/-- Settles O43: the two pushes and the vector, all on plain memory. -/
theorem interruptEntryResult : Obligations.InterruptEntryResult := by
  rintro s u s2 q a hb ⟨hwf, hpc, hsp, hsr⟩ hreq h2 h4 rfl hread
  refine ⟨⟨q.slot.val, q.slot.isLt, vectorAddress_toNat q.slot⟩, ?_⟩
  have hplain := interruptEntry_plain (q := q) (m := u.maskableAccepted a) hsp h2 h4
  have hread' : (entered q (stacked u)).canRead .word q.vector = true := hread
  rw [hreq, Option.getD_some, memRead_plain hread', ok_bind] at hplain
  have hstep : step s = mapNext (fun t => t.addCycles interruptCycles)
      (toOutcome (interruptEntry q (u.maskableAccepted a) u)) := by
    rw [step_of_atBoundary hb, boundary, hreq]
    rfl
  rw [hplain] at hstep
  obtain ⟨hvsr, hvpc⟩ := stacked_values hsp hwf
  refine ⟨_, hstep, ?regs, rfl, rfl, hvsr, hvpc, fun x hx2 hx4 => stacked_byteAt hx2 hx4, rfl, rfl,
    rfl, rfl, rfl, rfl, rfl⟩
  simp only [State.addCycles_regs, State.setHistory_regs, State.setPc_regs, entered,
    State.setSr_regs, State.setDev_regs, stacked_regs hsp, srStored_zero]
  rfl

/-- Settles O44: the entry's two stack words, popped again. -/
theorem retiUndoesEntry : Obligations.RetiUndoesEntry := by
  rintro s t r q admitted ⟨hwf, hpc, hsp, hsr⟩ h2 h4 hentry hrsp hrparams hrsr hrpc
  rw [interruptEntry_plain hsp h2 h4] at hentry
  obtain ⟨⟨v, u⟩, hread, hend⟩ := bind_eq_ok.mp hentry
  cases hend
  have hquiet := (memRead_quiet hread).only
  have hregs : u.regs.sp = s.regs.sp - 4#16 := by
    rw [hquiet.regs, entered, State.setSr_regs, State.setDev_regs, stacked_regs hsp]
  have hparams : u.params = s.params := hquiet.params
  have hwords : ∀ a, u.valueAt .word a = (stacked s).valueAt .word a := fun a =>
    valueAt_word_congr fun x _ => byteAt_congr hquiet.mem x
  obtain ⟨hvsr, hvpc⟩ := stacked_values hsp hwf
  have hup2 : s.regs.sp - 4#16 + 2#16 = s.regs.sp - 2#16 := by bv_omega
  have hup4 : s.regs.sp - 4#16 + 4#16 = s.regs.sp := by bv_omega
  have hbot : r.regs.sp = s.regs.sp - 4#16 := hrsp.trans hregs
  have hsrWord : r.valueAt .word u.regs.sp = u.valueAt .word u.regs.sp := hrsr
  have hpcWord : r.valueAt .word (u.regs.sp + 2#16) = u.valueAt .word (u.regs.sp + 2#16) := hrpc
  rw [hregs, hwords, hvsr] at hsrWord
  rw [hregs, hup2, hwords, hvpc] at hpcWord
  have hsame : r.params = s.params := hrparams.trans hparams
  have hreti := retiResult r (by rw [hbot]; exact even_sub_four hsp)
    (by rw [hbot, canRead_congr hsame]; exact canRead_of_canWrite h4)
    (by rw [hbot, hup2, canRead_congr hsame]; exact canRead_of_canWrite h2)
  rw [hbot, hup2, hup4, hsrWord, hpcWord] at hreti
  refine ⟨_, hreti, even_self _ hpc, ?_, even_self _ hsp, rfl⟩
  exact srStored_of_clean (p := r.params.srReserved) fun hp => hsr (hsame ▸ hp)

end Sys2Proof.Proofs.Interrupts
end

section
/-! PROOF. The peripheral registers and the accesses to them (60_exceptions.md R241 to R247;
20_memory.md R53, R55, R60, R61). An access that meets devices only is one access of the device; what
a register answers is then read off the device state. -/

namespace Sys2Proof.Proofs.Peripherals

open Sys2Proof.Machine
open Sys2Proof.Proofs.MemoryAccess
open Sys2Proof.Proofs.Frames (byteAt_congr)

/-! ### Accesses that meet devices only (R53, R55, R60) -/

theorem trunc_trunc (w : Width) (v : Word) : w.trunc (w.trunc v) = w.trunc v :=
  trunc_of_lt w _ (trunc_lt w v)

theorem trunc_or (w : Width) (a b : Word) : w.trunc (a ||| b) = w.trunc a ||| w.trunc b := by
  cases w with
  | word => rfl
  | byte =>
    show (a ||| b) &&& 0x00FF#16 = a &&& 0x00FF#16 ||| b &&& 0x00FF#16
    rw [BitVec.and_comm, BitVec.and_or_distrib_left, BitVec.and_comm a, BitVec.and_comm b]

/-- A byte taken of a word and widened again is the word's low byte. -/
theorem ofNat_byte_setWidth (v : Word) :
    (BitVec.ofNat 8 v.toNat).setWidth 16 = Width.byte.trunc v := by
  apply BitVec.eq_of_toNat_eq
  rw [BitVec.toNat_setWidth, BitVec.toNat_ofNat, trunc_toNat]
  simp only [Width.bits]
  omega

/-- Every byte of an access lies on a device: a word at an even address lies on two. -/
def OnDevice (s : State) (d : Device) (w : Width) (a : Word) : Prop :=
  s.kindAt a = .device d ∧
    (w = .word → a.getLsbD 0 = false ∧ ∃ d', s.kindAt (a + 1#16) = .device d')

theorem OnDevice.congr {s t : State} {d : Device} {w : Width} {a : Word} (h : OnDevice s d w a)
    (hp : t.params = s.params) : OnDevice t d w a := by
  rw [OnDevice, State.kindAt_congr hp, State.kindAt_congr hp]
  exact h

theorem wordAddress_even {s : State} {a : Word} (h : a.getLsbD 0 = false) :
    wordAddress s a = .ok a := by
  rw [wordAddress, h]
  rfl

/-- A write that meets devices only is one write of the device. -/
theorem memWrite_device {s : State} {d : Device} {w : Width} {a : Word} (v : Word)
    (h : OnDevice s d w a) : memWrite w a v s = .ok (deviceWrite d w a (w.trunc v) s) := by
  obtain ⟨hd, hw⟩ := h
  cases w with
  | byte => simp only [memWrite, writeByte, hd, lowByte_setWidth]
  | word =>
    obtain ⟨heven, d', hd'⟩ := hw rfl
    simp only [memWrite, wordAddress_even heven, ok_bind, writeWord, hd, hd']
    rfl

/-- A read that meets devices only is one read of the device. -/
theorem memRead_device {s : State} {d : Device} {w : Width} {a : Word} (h : OnDevice s d w a) :
    memRead w a s = .ok (w.trunc (deviceRead d w a s).1, (deviceRead d w a s).2) := by
  obtain ⟨hd, hw⟩ := h
  cases w with
  | byte => simp only [memRead, readByte, hd, ok_bind, pure_eq_ok, ofNat_byte_setWidth]
  | word =>
    obtain ⟨heven, d', hd'⟩ := hw rfl
    simp only [memRead, wordAddress_even heven, ok_bind, readWord, hd, hd']
    rfl

/-! ### A quiet platform -/

section QuietBus

variable {s : State} {d : Device} {w : Width} {a v : Word}

/-- A write of a register's own width, the platform quiet. -/
theorem deviceWrite_quiet (hq : s.busTicks = []) (hw : deviceWidth d = some w) :
    deviceWrite d w a v s = (s.setDev (s.dev.store v d)).logAccess ⟨true, a, w, v⟩ := by
  have hbus : s.busTick = s := by simp only [State.busTick, hq]
  simp only [deviceWrite, hbus, hw, if_true]

/-- A read of a register whose value the sources give, the platform quiet. -/
theorem deviceRead_quiet (hq : s.busTicks = []) (hv : s.dev.value s.draw.1 d w = some v) :
    (deviceRead d w a s).1 = v ∧ (deviceRead d w a s).2.dev = s.dev := by
  have hbus : s.busTick = s := by simp only [State.busTick, hq]
  constructor
  · simp only [deviceRead, hbus, State.draw_dev, hv, Option.getD_some]
  · simp only [deviceRead, hbus, State.logAccess_dev, State.draw_dev]

/-- A register read after it has been written, the platform quiet: the value that the written device
state gives. -/
theorem memRead_after_memWrite {t : State} {x : Word} (hd : OnDevice s d w a)
    (hq : s.busTicks = []) (hw : deviceWidth d = some w) (ht : memWrite w a v s = .ok t)
    (hx : (s.dev.store (w.trunc v) d).value s.draw.1 d w = some x) :
    t.dev = s.dev.store (w.trunc v) d ∧
      ∃ u, memRead w a t = .ok (w.trunc x, u) ∧ u.dev = t.dev := by
  rw [memWrite_device v hd, deviceWrite_quiet hq hw] at ht
  cases ht
  have hd' : OnDevice ((s.setDev (s.dev.store (w.trunc v) d)).logAccess ⟨true, a, w, w.trunc v⟩)
      d w a := hd.congr rfl
  obtain ⟨hval, hdev⟩ := deviceRead_quiet (a := a)
    (s := (s.setDev (s.dev.store (w.trunc v) d)).logAccess ⟨true, a, w, w.trunc v⟩) hq hx
  exact ⟨rfl, _, by rw [memRead_device hd', hval], hdev⟩

end QuietBus

/-! ### Ports (R245 to R247) -/

theorem port_setPort (d : Devices) (i : PortId) (p : Port) : (d.setPort i p).port i = p := by
  cases i <;> rfl

theorem setPort_port (d : Devices) (i : PortId) : d.setPort i (d.port i) = d := by cases i <;> rfl

/-- A port register reads back what was written to it; PxIN alone is not stored. -/
theorem read_write {r : PortReg} (h : r ≠ .input) (p : Port) (v free : Byte) :
    (p.write v r).read free r = v := by
  cases r with
  | input => exact absurd rfl h
  | _ => rfl

/-- PxIN at a pin whose I/O function is selected is the level at the pin, whatever the open bits. -/
theorem getLsbD_read_input {p : Port} {k : Nat} (free : Byte) (hk : k < 8)
    (hsel : p.sel.getLsbD k = false) (hsel2 : p.sel2.getLsbD k = false) :
    (p.read free .input).getLsbD k = p.pins.getLsbD k := by
  have hio : p.ioPins.getLsbD k = true := by
    rw [Port.ioPins, BitVec.getLsbD_not, BitVec.getLsbD_or, hsel, hsel2, decide_eq_true hk]
    rfl
  unfold Port.read
  simp only
  split
  · rfl
  · simp [hio]

/-- A byte widened to a word is an 8-bit value. -/
theorem trunc_setWidth (b : Byte) : Width.byte.trunc (b.setWidth 16) = b.setWidth 16 := by
  refine trunc_of_lt .byte _ ?_
  rw [BitVec.toNat_setWidth]
  exact Nat.lt_of_le_of_lt (Nat.mod_le _ _) b.isLt

/-- Settles O54: the register's byte is what was written, PxIN's the level at the pin. -/
theorem portRegisters : Obligations.PortRegisters := by
  intro s t a v p r hkind hq ht
  have hd : OnDevice s (.port p r) .byte a := ⟨hkind, fun h => nomatch h⟩
  obtain ⟨hdev, u, hread, hu⟩ := memRead_after_memWrite hd hq rfl ht rfl
  rw [Devices.store, port_setPort, trunc_setWidth] at hread
  constructor
  · intro hr
    rw [read_write hr, ofNat_byte_setWidth, trunc_trunc] at hread
    exact ⟨u, hread, hu⟩
  · rintro rfl
    have hsame : t.dev = s.dev := hdev.trans (setPort_port _ _)
    refine ⟨hsame, _, u, hread, hu.trans hsame, ?_, fun k hk hsel hsel2 => ?_⟩
    · rw [← trunc_setWidth]
      exact trunc_lt .byte _
    · rw [BitVec.getLsbD_setWidth, decide_eq_true (by omega : k < 16), Bool.true_and]
      exact getLsbD_read_input _ hk hsel hsel2

/-- Settles O57: bit by bit, the edge PxIES selects. -/
theorem portEdge : Obligations.PortEdge := by
  intro s p levels k hk
  have hport : (s.event (.pins p levels)).dev.port p = (s.dev.port p).setPins levels :=
    port_setPort _ _ _
  rw [hport]
  refine ⟨?_, rfl⟩
  simp only [Port.setPins, BitVec.getLsbD_or, BitVec.getLsbD_and, BitVec.getLsbD_not, hk,
    decide_true, Bool.true_and]
  congr 1
  cases (s.dev.port p).ies.getLsbD k <;> simp [Bool.and_comm]

/-! ### Timer_A (R241 to R244) -/

/-- A field of two bits. -/
theorem field_two_bits (v : Word) (k : Nat) :
    field v (k + 1) k = 2 * (v.getLsbD (k + 1)).toNat + (v.getLsbD k).toNat := by
  have bit : ∀ j, (v.getLsbD j).toNat = v.toNat / 2 ^ j % 2 := fun j => by
    rw [BitVec.getLsbD, Nat.toNat_testBit]
  rw [bit, bit, Nat.pow_succ, ← Nat.div_div_eq_div_mul, field, Nat.add_sub_cancel_left]
  omega

/-- A halted timer is one whose two mode bits are clear. -/
theorem running_eq (t : Timer) : t.running = (t.ctl.getLsbD 5 || t.ctl.getLsbD 4) := by
  unfold Timer.running Timer.mode
  rw [field_two_bits t.ctl 4]
  cases t.ctl.getLsbD 5 <;> cases t.ctl.getLsbD 4 <;> rfl

theorem captures_eq (b : TimerBlock) : b.captures =
    (b.ctl.getLsbD 8 && (b.ctl.getLsbD 15 || b.ctl.getLsbD 14)) := by
  unfold TimerBlock.captures TimerBlock.captureMode
  rw [field_two_bits b.ctl 14]
  cases b.ctl.getLsbD 15 <;> cases b.ctl.getLsbD 14 <;> rfl

/-- The input CCISx selects. -/
theorem cci_eq (b : TimerBlock) : b.cci =
    if b.ctl.getLsbD 13 then b.ctl.getLsbD 12
    else if b.ctl.getLsbD 12 then b.inputB else b.inputA := by
  unfold TimerBlock.cci
  rw [field_two_bits b.ctl 12]
  cases b.ctl.getLsbD 13 <;> cases b.ctl.getLsbD 12 <;> rfl

/-- What happens to a block's flag: in capture mode it captures, in compare mode the timer runs. -/
theorem mayFlag_eq (t : Timer) (b : TimerBlock) :
    t.mayFlag b = (b.captures || (!b.ctl.getLsbD 8 && t.running)) := by
  unfold Timer.mayFlag TimerBlock.captures TimerBlock.captureMode
  cases b.ctl.getLsbD 8 <;> simp

/-- A write of TACCTLx leaves the input signals and SCCI. -/
theorem write_inputs (b : TimerBlock) (v : Word) :
    (b.write v).scci = b.scci ∧ (b.write v).inputA = b.inputA ∧ (b.write v).inputB = b.inputB := by
  unfold TimerBlock.write
  simp only
  split <;> exact ⟨rfl, rfl, rfl⟩

/-- TACCTLx reads back what was written, but for bit 9 and the hardware's bits. -/
theorem read_write_block (b : TimerBlock) (v : Word) :
    (b.write v).read &&& 0xF9F7#16 = v &&& 0xF9F7#16 ∧ (b.write v).read.getLsbD 9 = false ∧
      (b.write v).read.getLsbD 10 = b.scci ∧
      (b.write v).read.getLsbD 3 = (if v.getLsbD 13 then v.getLsbD 12
        else if v.getLsbD 12 then b.inputB else b.inputA) := by
  obtain ⟨hscci, hA, hB⟩ := write_inputs b v
  have hcci := cci_eq (b.write v)
  have bit : ∀ k, (v &&& 0xF9F7#16).getLsbD k = (v.getLsbD k && (0xF9F7#16).getLsbD k) := fun k =>
    BitVec.getLsbD_and
  rw [TimerBlock.write_ctl, hA, hB, tacctlStored, bit, bit,
    show (0xF9F7#16).getLsbD 13 = true from rfl, show (0xF9F7#16).getLsbD 12 = true from rfl,
    Bool.and_true, Bool.and_true] at hcci
  rw [TimerBlock.read, TimerBlock.write_ctl, hscci, tacctlStored, ← hcci, BitVec.or_assoc]
  have hard : (bitAt b.scci 10 ||| bitAt (b.write v).cci 3) &&& 0xF9F7#16 = 0#16 := by
    cases b.scci <;> cases (b.write v).cci <;> decide
  refine ⟨?_, ?_, ?_, ?_⟩
  · rw [BitVec.and_comm, BitVec.and_or_distrib_left, BitVec.and_comm 0xF9F7#16,
      BitVec.and_comm 0xF9F7#16, hard, BitVec.or_zero, BitVec.and_assoc, BitVec.and_self]
  all_goals
    rw [BitVec.getLsbD_or, bit]
    cases b.scci <;> cases (b.write v).cci <;> simp [bitAt]

/-- Settles O56: the registers read back, then the events a running or halted timer admits. -/
theorem timerRegisters : Obligations.TimerRegisters := by
  constructor
  · intro s t a v d heven hq hupper ht
    refine ⟨fun hkind => ?tactl, fun x b hkind hb => ?tacctl⟩
    case tactl =>
      have hd : OnDevice s .tactl .word a := ⟨hkind, fun _ => ⟨heven, d, hupper⟩⟩
      obtain ⟨-, u, hread, -⟩ := memRead_after_memWrite hd hq rfl ht rfl
      exact ⟨u, hread⟩
    case tacctl =>
      have hd : OnDevice s (.tacctl x) .word a := ⟨hkind, fun _ => ⟨heven, d, hupper⟩⟩
      have hval : (s.dev.store (Width.word.trunc v) (.tacctl x)).value s.draw.1 (.tacctl x) .word =
          some (b.write v).read := by
        simp only [Devices.store, Devices.value, Timer.updateBlock, elementAt_updateAt, if_true, hb,
          Option.map_some]
        rfl
      obtain ⟨-, u, hread, -⟩ := memRead_after_memWrite hd hq rfl ht hval
      exact ⟨_, u, hread, read_write_block b v⟩
  · intro s x halts hhalts
    have hrun : s.dev.timer.running = !halts := by
      rw [running_eq, hhalts, Bool.not_and, Bool.not_not, Bool.not_not]
    refine ⟨?halted, ?returns, fun b taken hb htaken => ?flags⟩
    case halted =>
      rintro rfl
      obtain ⟨hcount, hreturn⟩ := Timer.halted_inert hrun x (s.draw.1.getLsbD 0)
      simp only [State.event, Devices.event, State.setDev_dev, hcount, hreturn, and_self]
    case returns =>
      rintro rfl
      simp only [State.event, Devices.event, State.setDev_dev, Timer.returnsToZero, hrun,
        Bool.not_false, if_true]
    case flags =>
      have hcap : b.captures = taken := by rw [captures_eq, htaken]
      simp only [State.event, Devices.event, State.setDev_dev, Timer.overflowCapture, Timer.setFlag,
        Timer.updateBlock, elementAt_updateAt, if_true, hb, Option.map_some, mayFlag_eq, hcap, hrun,
        and_self]

/-! ### Operands on a device (R53, R55, R60, R61) -/

section DeviceOperand

variable {w : Width} {rn : Reg} {a : Word} {d : Device} {s : State}

/-- The absolute form's address, with PC past its word. -/
theorem indexedAddress_absolute (hr : s.canRead .word s.regs.pc = true) :
    indexedAddress 0#16 s =
      .ok (s.valueAt .word s.regs.pc, s.setPc (s.regs.pc + 2#16)) := by
  rw [indexedAddress_plain hr, BitVec.zero_add]

variable (hr : s.canRead .word s.regs.pc = true) (ha : a = s.valueAt .word s.regs.pc)
  (hd : OnDevice s d w a)
include hr ha hd

/-- MOV to a device is one write of it. -/
theorem exec_mov_to_device : exec (.mov w (.reg rn) .absolute) s =
    .next (deviceWrite d w a (w.trunc (s.reg rn)) (s.setPc (s.regs.pc + 2#16))) := by
  subst ha
  have hd' : OnDevice (s.setPc (s.regs.pc + 2#16)) d w (s.valueAt .word s.regs.pc) := hd.congr rfl
  refine toOutcome_next.mpr ?_
  simp only [moveOperand, reduceCtorEq, if_false, readSrc, dstLoc, indexedAddress_absolute hr,
    ok_bind, pure_eq_ok, writeLoc, memWrite_device _ hd', trunc_trunc]

/-- MOV from a device is one read of it. -/
theorem exec_mov_from_device : exec (.mov w .absolute (.reg rn)) s =
    .next ((deviceRead d w a (s.setPc (s.regs.pc + 2#16))).2.setReg rn
      (w.trunc (deviceRead d w a (s.setPc (s.regs.pc + 2#16))).1)) := by
  subst ha
  have hd' : OnDevice (s.setPc (s.regs.pc + 2#16)) d w (s.valueAt .word s.regs.pc) := hd.congr rfl
  refine toOutcome_next.mpr ?_
  simp only [moveOperand, reduceCtorEq, if_false, readSrc, dstLoc, indexedAddress_absolute hr,
    ok_bind, writeLoc, memRead_device hd', trunc_trunc]

/-- BIS to a device reads it, then writes it. -/
theorem exec_bis_to_device : exec (.bis w (.reg rn) .absolute) s =
    .next (deviceWrite d w a
      (w.trunc (s.reg rn ||| (deviceRead d w a (s.setPc (s.regs.pc + 2#16))).1))
      (deviceRead d w a (s.setPc (s.regs.pc + 2#16))).2) := by
  subst ha
  have hd' : OnDevice (s.setPc (s.regs.pc + 2#16)) d w (s.valueAt .word s.regs.pc) := hd.congr rfl
  have hd'' := hd'.congr (DeviceOnly.deviceRead d w (s.valueAt .word s.regs.pc)
    (s.setPc (s.regs.pc + 2#16))).params
  refine toOutcome_next.mpr ?_
  simp only [twoOperand, dstDefined, if_true, readSrc, dstLoc, indexedAddress_absolute hr, ok_bind,
    pure_eq_ok, readLoc, memRead_device hd', applyEffect, bisEffect, writeLoc,
    memWrite_device _ hd'', trunc_or, trunc_trunc]

end DeviceOperand

/-- The high byte of a word is the low byte of the word shifted down. -/
theorem lowByte_shift (v : Word) : lowByte (v >>> 8) = highByte v := by
  have := v.isLt
  apply BitVec.eq_of_toNat_eq
  rw [lowByte_toNat, highByte_toNat, BitVec.toNat_ushiftRight, Nat.shiftRight_eq_div_pow]
  omega

/-- The high byte of a word, widened again, is the word shifted down. -/
theorem highByte_setWidth (v : Word) : (highByte v).setWidth 16 = v >>> 8 := by
  have := v.isLt
  apply BitVec.eq_of_toNat_eq
  rw [BitVec.toNat_setWidth, highByte_toNat, BitVec.toNat_ushiftRight, Nat.shiftRight_eq_div_pow]
  omega

section ByteAccess

variable {a : Word} {b : Byte} {d : Device} {s : State}

theorem writeByte_ram (h : s.kindAt a = .ram) :
    writeByte a b s = .ok (s.setMem (s.mem.write a.toNat b)) := by simp only [writeByte, h]

theorem writeByte_device (h : s.kindAt a = .device d) :
    writeByte a b s = .ok (deviceWrite d .byte a (b.setWidth 16) s) := by simp only [writeByte, h]

theorem readByte_ram (h : s.kindAt a = .ram) : readByte a s = .ok (s.byteAt a, s) := by
  simp only [readByte, h]

theorem readByte_device (h : s.kindAt a = .device d) : readByte a s =
    .ok (BitVec.ofNat 8 (deviceRead d .byte a s).1.toNat, (deviceRead d .byte a s).2) := by
  simp only [readByte, h]

end ByteAccess

section SplitWord

variable {a v : Word} {d : Device} {s : State} (heven : a.getLsbD 0 = false)
include heven

/-- A word that is not on two devices is written byte by byte, the low one first. -/
theorem memWrite_split {t u : State}
    (hdev : ¬ ((∃ d, s.kindAt a = .device d) ∧ ∃ d, s.kindAt (a + 1#16) = .device d))
    (hlo : s.kindAt a = .ram ∨ ∃ d, s.kindAt a = .device d)
    (hhi : s.kindAt (a + 1#16) = .ram ∨ ∃ d, s.kindAt (a + 1#16) = .device d)
    (ht : writeByte a (lowByte v) s = .ok t) (hu : writeByte (a + 1#16) (highByte v) t = .ok u) :
    memWrite .word a v s = .ok u := by
  rw [memWrite, wordAddress_even heven, ok_bind, writeWord]
  split
  · rename_i d d' hd hd'
    exact absurd ⟨⟨d, hd⟩, d', hd'⟩ hdev
  · simp only [admitWrite_admitted hlo, admitWrite_admitted hhi, ok_bind, ht, hu]

/-- A word that is not on two devices is read byte by byte, the low one first. -/
theorem memRead_split {t u : State} {lo hi : Byte}
    (hdev : ¬ ((∃ d, s.kindAt a = .device d) ∧ ∃ d, s.kindAt (a + 1#16) = .device d))
    (hlo : s.kindAt a ≠ .unmapped) (hhi : s.kindAt (a + 1#16) ≠ .unmapped)
    (ht : readByte a s = .ok (lo, t)) (hu : readByte (a + 1#16) t = .ok (hi, u)) :
    memRead .word a s = .ok (wordOfBytes lo hi, u) := by
  rw [memRead, wordAddress_even heven, ok_bind, readWord]
  split
  · rename_i d d' hd hd'
    exact absurd ⟨⟨d, hd⟩, d', hd'⟩ hdev
  · simp only [admitRead_mapped hlo, admitRead_mapped hhi, ok_bind, ht, hu, pure_eq_ok]

/-- The bytes of a word whose low byte is a device's and whose high byte lies in RAM. -/
theorem split_device_ram (hlo : s.kindAt a = .device d) (hhi : s.kindAt (a + 1#16) = .ram) :
    memWrite .word a v s =
      .ok ((deviceWrite d .byte a (v &&& 0x00FF#16) s).storeAt .byte (a + 1#16) (v >>> 8)) ∧
    ∃ r, memRead .word a s = .ok (r, (deviceRead d .byte a s).2) ∧
      r.toNat = (deviceRead d .byte a s).1.toNat % 256 + 256 * (s.byteAt (a + 1#16)).toNat := by
  have hdev : ¬ ((∃ d, s.kindAt a = .device d) ∧ ∃ d, s.kindAt (a + 1#16) = .device d) := by
    simp [hhi]
  have hread := DeviceOnly.deviceRead d .byte a s
  constructor
  · have hram : (deviceWrite d .byte a ((lowByte v).setWidth 16) s).kindAt (a + 1#16) = .ram :=
      (State.kindAt_congr (DeviceOnly.deviceWrite _ _ _ _ _).params _).trans hhi
    rw [memWrite_split heven hdev (.inr ⟨d, hlo⟩) (.inl hhi) (writeByte_device hlo)
      (writeByte_ram hram), lowByte_setWidth, ← lowByte_shift]
    rfl
  · have hram : (deviceRead d .byte a s).2.kindAt (a + 1#16) = .ram :=
      (State.kindAt_congr hread.params _).trans hhi
    refine ⟨_, memRead_split heven hdev (by simp [hlo]) (by simp [hhi]) (readByte_device hlo)
      (readByte_ram hram), ?_⟩
    rw [wordOfBytes_toNat, BitVec.toNat_ofNat, byteAt_congr hread.mem, Nat.mul_comm, Nat.add_comm]

/-- The bytes of a word whose low byte lies in RAM and whose high byte is a device's. -/
theorem split_ram_device (hlo : s.kindAt a = .ram) (hhi : s.kindAt (a + 1#16) = .device d) :
    memWrite .word a v s =
      .ok (deviceWrite d .byte (a + 1#16) (v >>> 8) (s.storeAt .byte a v)) ∧
    ∃ r, memRead .word a s = .ok (r, (deviceRead d .byte (a + 1#16) s).2) ∧
      r.toNat = (s.byteAt a).toNat + 256 * ((deviceRead d .byte (a + 1#16) s).1.toNat % 256) := by
  have hdev : ¬ ((∃ d, s.kindAt a = .device d) ∧ ∃ d, s.kindAt (a + 1#16) = .device d) := by
    simp [hlo]
  constructor
  · have hkind : (s.setMem (s.mem.write a.toNat (lowByte v))).kindAt (a + 1#16) = .device d := hhi
    rw [memWrite_split heven hdev (.inl hlo) (.inr ⟨d, hhi⟩) (writeByte_ram hlo)
      (writeByte_device hkind), highByte_setWidth]
    rfl
  · refine ⟨_, memRead_split heven hdev (by simp [hlo]) (by simp [hhi]) (readByte_ram hlo)
      (readByte_device hhi), ?_⟩
    rw [wordOfBytes_toNat, BitVec.toNat_ofNat, Nat.mul_comm, Nat.add_comm]

end SplitWord

/-- Settles O55: an access of devices only, then the two ways a word can be split. -/
theorem deviceOperand : Obligations.DeviceOperand := by
  constructor
  · rintro w rn a d s s1 - - hr ha hkind hword rfl
    have hd : OnDevice s d w a := ⟨hkind, hword⟩
    exact ⟨exec_mov_to_device hr ha hd, exec_mov_from_device hr ha hd, exec_bis_to_device hr ha hd⟩
  · intro a v d s heven
    exact ⟨split_device_ram heven, split_ram_device heven⟩

end Sys2Proof.Proofs.Peripherals
end
